-- ==== Sys2Proof/Word.lean ====
section
/-!
DEFINITION. The word types of the etask packet codec.

Every quantity of the hardware is unsigned (rule R7 of 00_scope.md): a bit field, a byte, a byte
string or an unsigned integer of 1 to 8 bytes.  Bits are numbered from 0 at the least significant
bit, which is how `BitVec` numbers them.
-/

namespace Sys2Proof

/-- A byte: 8 bits (rule R50 of 20_memory.md). -/
abbrev Byte := BitVec 8

/-- A 16-bit word: the command word (R78), the `space` word (R71), a 16-bit operand port (R80). -/
abbrev Word16 := BitVec 16

/-- A 64-bit word: the `RES` port (R81), the 64-bit operand ports (R80), the accumulator `K.a` (R20). -/
abbrev Word64 := BitVec 64

end Sys2Proof
end

