-- ==== Sys2Proof/Config.lean ====
section
/-!
DEFINITION. The parameters an instance of the codec is built with, and the configuration inputs
that reset samples (rule R5 of 00_scope.md, rules R261 and R263 of 70_reset_and_hazards.md).

The spec leaves all four values open.  Nothing here is a function of the machine's state: the two
parameters are carried through a run unchanged, and the two inputs are what a reset event latches.
-/

namespace Sys2Proof

/-- The two parameters "fixed for the life of an instance" (R261, R23): the word-alignment unit and
the largest total size, `none` standing for an unbounded packet buffer (R5, D7). -/
structure Params where
  /-- `WORD_UNIT`: a legal total size is a whole multiple of it (R5). -/
  wordUnit : Nat
  /-- `PKT_MAX`: the largest total size, `none` when unbounded (R5). -/
  pktMax   : Option Nat
deriving DecidableEq, Repr

/-- The legal parameter values: `WORD_UNIT` is at least 1 (R263, U2) and `PKT_MAX` is at least 1 or
unbounded (R5). -/
def Params.wf (c : Params) : Bool :=
  decide (1 ≤ c.wordUnit) && c.pktMax != some 0

/-- The parameters of the instance that `State.reset` stands for.  DESIGN CHOICE (assumption log 3),
unsafe where a claim rests on it: the spec leaves both open; the least alignment unit and an
unbounded buffer refuse no size that another choice would accept. -/
def Config.params : Params := { wordUnit := 1, pktMax := none }

/-- The configuration input `cfg.version` that `State.reset` samples.  DESIGN CHOICE (assumption log
2), unsafe where a claim rests on it: the spec gives no value (R21). -/
def Config.version : BitVec 2 := 0

/-- The configuration input `cfg.board_id` that `State.reset` samples.  DESIGN CHOICE (assumption log
2), unsafe where a claim rests on it: the spec gives no value (R22). -/
def Config.boardId : Byte := 0

end Sys2Proof
end

