-- ==== Sys2Proof/Syntax.lean ====
section
/-!
DEFINITION. The operations of the codec, one constructor of `Instr` per row of
spec/opcode_table.json, and the request that carries one (30_encoding.md rules R75 to R80, R87, R88).

An `Instr` is an operation with its modifiers and ALL its operands, the byte string `DIN` included:
the hardware has no registers an operation could name (R33), so operands arrive with the request.
-/

namespace Sys2Proof

/-- The packet variant, `KIND` (R76): Basic has no trailing field, Framed has a checksum field. -/
inductive Kind where
  | basic | framed
deriving DecidableEq, Repr

/-- The task-id width W, one of 1, 2, 4 and 8 bytes (R75).  No other width can be expressed. -/
inductive TaskWidth where
  | w1 | w2 | w4 | w8
deriving DecidableEq, Repr

/-- The twelve checksum policies (R77). -/
inductive Policy where
  | none | sum8 | sum16 | sum32 | crc8 | crc16 | crc32 | crc64
  | fletcher16 | fletcher32 | adler32 | internet16
deriving DecidableEq, Repr

/-- The fields HDR.GET can select (R88). -/
inductive HdrField where
  | space | type | version | encrypted | fragmented | priority | flags | validated | reserved
  | senderId | receiverId
deriving DecidableEq, Repr

/-- The modifiers of a format L operation (R78): the variant, the task-id width and the checksum
policy.  For a Basic packet the policy must be the code 0 (R78, R83): `Instr.wf` says so. -/
structure Layout where
  kind   : Kind
  width  : TaskWidth
  policy : Policy
deriving DecidableEq, Repr

/-- The 27 operations (R79) with the operands of R80.  Operand widths are the port widths of R80. -/
inductive Instr where
  -- header group
  | hdrDecode (din : List Byte)
  | hdrEncode
  | hdrRaw (raw16 : Word16) (receiverId : Word16)
  | hdrFields (type : BitVec 4) (encrypted fragmented : BitVec 1) (priority flags : BitVec 8)
      (validated reserved : BitVec 1) (receiverId : Word16)
  | hdrSetRcv (receiverId : Word16)
  | hdrGet (field : HdrField)
  -- packet group
  | pktNew (lay : Layout) (n : BitVec 32) (taskId : Word64) (status : Word16)
      (seed : Option Word64) (payload : List Byte)
  | pktToBytes
  | pktFromBytes (lay : Layout) (raw : List Byte)
  | pktGetHdr
  | pktSetHdr
  | pktGetStat
  | pktSetStat (status : Word16)
  | pktGetTask
  | pktSetTask (taskId : Word64)
  | pktGetPay
  | pktSetPay (payload : List Byte)
  | pktGetFcs
  | pktSetFcs (value : Word64)
  -- checksum group
  | ckCompute (policy : Policy) (bytes : List Byte)
  | ckInit (policy : Policy)
  | ckUpdate (chunk : List Byte)
  | ckFinal
  -- validator group
  | valSeal
  | valIsValid
  -- pipeline group
  | txPrep
  | rxAccept (lay : Layout) (n : BitVec 32) (raw : List Byte)
deriving DecidableEq, Repr

/-- A request (R6, R78, R80): the 16-bit command word, one typed port per operand name, and the byte
string `DIN`, whose length is `DLEN`.  A port that the operation does not take is not read. -/
structure Request where
  cmd        : Word16
  raw16      : Word16 := 0
  receiverId : Word16 := 0
  type       : BitVec 4 := 0
  encrypted  : BitVec 1 := 0
  fragmented : BitVec 1 := 0
  priority   : BitVec 8 := 0
  flags      : BitVec 8 := 0
  validated  : BitVec 1 := 0
  reserved   : BitVec 1 := 0
  n          : BitVec 32 := 0
  taskId     : Word64 := 0
  status     : Word16 := 0
  seed       : Word64 := 0
  value      : Word64 := 0
  din        : List Byte := []
deriving DecidableEq, Repr

/-- The pseudo-operations of R87: abbreviations with no semantics of their own
(`Sys2Proof.expandPseudo` gives the expansions). -/
inductive Pseudo where
  /-- `HDR.SPACE` … `HDR.RECEIVER`. -/
  | hdrField (field : HdrField)
  /-- `PKT.NEWB`. -/
  | pktNewB (width : TaskWidth) (n : BitVec 32) (taskId : Word64) (status : Word16)
      (payload : List Byte)
  /-- `CK.STREAM`. -/
  | ckStream (policy : Policy) (chunks : List (List Byte))
  /-- `SEND`: the host then writes `DOUT` to its transport. -/
  | send
  /-- `RECV`: `raw` is what the host read from its transport. -/
  | recv (lay : Layout) (n : BitVec 32) (raw : List Byte)
deriving DecidableEq, Repr

end Sys2Proof
end

