-- ==== Sys2Proof/WellFormed.lean ====
section
/-!
DEFINITION. When an instruction can be written as a request.

Almost everything is well-formed by typing: widths, policies, selectors and operands have types with
no illegal value.  What is left is the one rule of format L (R78, R83): a Basic packet has no policy
and no checksum field to seed.
-/

namespace Sys2Proof

/-- In format L a Basic layout must have `SEL` = 0, the code of policy `none` (R78). -/
def Layout.wf (lay : Layout) : Bool :=
  decide (lay.kind = .framed) || decide (lay.policy = .none)

/-- In PKT.NEW a Basic layout must have `SEED` = 0 (R78). -/
def Layout.seedWf (lay : Layout) (seed : Option Word64) : Bool :=
  decide (lay.kind = .framed) || seed.isNone

/-- The instructions that a request can carry (R78, R83). -/
def Instr.wf : Instr → Bool
  | .hdrDecode _ => true
  | .hdrEncode => true
  | .hdrRaw _ _ => true
  | .hdrFields _ _ _ _ _ _ _ _ => true
  | .hdrSetRcv _ => true
  | .hdrGet _ => true
  | .pktNew lay _ _ _ seed _ => lay.wf && lay.seedWf seed
  | .pktToBytes => true
  | .pktFromBytes lay _ => lay.wf
  | .pktGetHdr => true
  | .pktSetHdr => true
  | .pktGetStat => true
  | .pktSetStat _ => true
  | .pktGetTask => true
  | .pktSetTask _ => true
  | .pktGetPay => true
  | .pktSetPay _ => true
  | .pktGetFcs => true
  | .pktSetFcs _ => true
  | .ckCompute _ _ => true
  | .ckInit _ => true
  | .ckUpdate _ => true
  | .ckFinal => true
  | .valSeal => true
  | .valIsValid => true
  | .txPrep => true
  | .rxAccept lay _ _ => lay.wf

end Sys2Proof
end

