-- ==== Sys2Proof/Decode.lean ====
section
/-!
DEFINITION. The decoder and the encoder of the command word (30_encoding.md rules R75 to R80, R83,
R87, R88).

`decode` is total on requests and rejects by name; every rejection is the one outcome
`E_ILLEGAL_OP` of R83, and the names only say which clause of R83 holds.
-/

namespace Sys2Proof

/-- Why a command word is illegal: the clauses of R83. -/
inductive DecodeError where
  /-- `OP` is unassigned (R79). -/
  | unassignedOpcode
  /-- A must-be-zero field of the operation's format is non-zero (R78). -/
  | mustBeZero
  /-- `SEL` is 12 to 15 where it is a policy code (R77). -/
  | reservedPolicy
  /-- `SEL` is 11 to 15 in HDR.GET (R88). -/
  | reservedSelector
  /-- Format L with `KIND` = 0 and `SEL` ≠ 0 (R78). -/
  | basicWithPolicy
  /-- Format L with `KIND` = 0 and `SEED` ≠ 0 (R78). -/
  | basicWithSeed
deriving DecidableEq, Repr

/-! ## The fields of the command word (R78) -/

/-- `OP`, bits 7:0. -/
def cmdOp (c : Word16) : BitVec 8 := c.extractLsb' 0 8
/-- `SEL`, bits 11:8. -/
def cmdSel (c : Word16) : BitVec 4 := c.extractLsb' 8 4
/-- `WC`, bits 13:12. -/
def cmdWc (c : Word16) : BitVec 2 := c.extractLsb' 12 2
/-- `KIND`, bit 14. -/
def cmdKind (c : Word16) : BitVec 1 := c.extractLsb' 14 1
/-- `SEED`, bit 15. -/
def cmdSeed (c : Word16) : BitVec 1 := c.extractLsb' 15 1

/-- The command word with the given fields, bit 15 first: `dkwwssssoooooooo` (R78). -/
def cmdWord (seed kind : BitVec 1) (wc : BitVec 2) (sel : BitVec 4) (op : BitVec 8) : Word16 :=
  seed ++ kind ++ wc ++ sel ++ op

/-! ## The codes (R75, R76, R77, R88) -/

/-- R75: `WC` = log2 W. -/
def widthOfCode (c : BitVec 2) : TaskWidth :=
  if c = 0 then .w1 else if c = 1 then .w2 else if c = 2 then .w4 else .w8

/-- R75. -/
def widthCode : TaskWidth → BitVec 2
  | .w1 => 0 | .w2 => 1 | .w4 => 2 | .w8 => 3

/-- R76. -/
def kindOfCode (c : BitVec 1) : Kind := if c = 0 then .basic else .framed

/-- R76. -/
def kindCode : Kind → BitVec 1
  | .basic => 0 | .framed => 1

/-- R77; codes 12 to 15 are reserved. -/
def policyOfCode (c : BitVec 4) : Option Policy :=
  match c.toNat with
  | 0 => some .none
  | 1 => some .sum8
  | 2 => some .sum16
  | 3 => some .sum32
  | 4 => some .crc8
  | 5 => some .crc16
  | 6 => some .crc32
  | 7 => some .crc64
  | 8 => some .fletcher16
  | 9 => some .fletcher32
  | 10 => some .adler32
  | 11 => some .internet16
  | _ => none

/-- R77. -/
def policyCode : Policy → BitVec 4
  | .none => 0 | .sum8 => 1 | .sum16 => 2 | .sum32 => 3
  | .crc8 => 4 | .crc16 => 5 | .crc32 => 6 | .crc64 => 7
  | .fletcher16 => 8 | .fletcher32 => 9 | .adler32 => 10 | .internet16 => 11

/-- R88; selectors 11 to 15 are reserved. -/
def fieldOfCode (c : BitVec 4) : Option HdrField :=
  match c.toNat with
  | 0 => some .space
  | 1 => some .type
  | 2 => some .version
  | 3 => some .encrypted
  | 4 => some .fragmented
  | 5 => some .priority
  | 6 => some .flags
  | 7 => some .validated
  | 8 => some .reserved
  | 9 => some .senderId
  | 10 => some .receiverId
  | _ => none

/-- R88. -/
def fieldCode : HdrField → BitVec 4
  | .space => 0 | .type => 1 | .version => 2 | .encrypted => 3 | .fragmented => 4
  | .priority => 5 | .flags => 6 | .validated => 7 | .reserved => 8
  | .senderId => 9 | .receiverId => 10

/-! ## The decoder -/

/-- Format Z: `CMD[15:8]` must be 0 (R78). -/
def decodeZ (c : Word16) (i : Instr) : Except DecodeError Instr :=
  if c.extractLsb' 8 8 = 0 then .ok i else .error .mustBeZero

/-- Format S with a policy selector: `CMD[15:12]` must be 0, `SEL` must be an assigned policy code
(R78, R83). -/
def decodePolicy (c : Word16) (f : Policy → Instr) : Except DecodeError Instr :=
  if c.extractLsb' 12 4 = 0 then
    match policyOfCode (cmdSel c) with
    | some p => .ok (f p)
    | none => .error .reservedPolicy
  else .error .mustBeZero

/-- Format S of HDR.GET: `CMD[15:12]` must be 0, `SEL` must be an assigned selector (R78, R83). -/
def decodeField (c : Word16) (f : HdrField → Instr) : Except DecodeError Instr :=
  if c.extractLsb' 12 4 = 0 then
    match fieldOfCode (cmdSel c) with
    | some p => .ok (f p)
    | none => .error .reservedSelector
  else .error .mustBeZero

/-- The layout of a format L word (R78, R83): `SEL` is a policy code, and must be 0 when `KIND` is 0. -/
def decodeLayout (c : Word16) : Except DecodeError Layout :=
  match kindOfCode (cmdKind c) with
  | .basic =>
    if cmdSel c = 0 then .ok { kind := .basic, width := widthOfCode (cmdWc c), policy := .none }
    else .error .basicWithPolicy
  | .framed =>
    match policyOfCode (cmdSel c) with
    | some p => .ok { kind := .framed, width := widthOfCode (cmdWc c), policy := p }
    | none => .error .reservedPolicy

/-- Format L without a seed: `SEED` must be 0 (R78). -/
def decodeL (c : Word16) (f : Layout → Instr) : Except DecodeError Instr :=
  if cmdSeed c = 0 then
    match decodeLayout c with
    | .ok lay => .ok (f lay)
    | .error e => .error e
  else .error .mustBeZero

/-- Format L of PKT.NEW: `SEED` = 1 says that the seed operand is supplied, and must be 0 when `KIND`
is 0 (R78, R80). -/
def decodeSeeded (c : Word16) (seed : Word64) (f : Layout → Option Word64 → Instr) :
    Except DecodeError Instr :=
  match decodeLayout c with
  | .ok lay =>
    if cmdSeed c = 0 then .ok (f lay none)
    else if lay.kind = .basic then .error .basicWithSeed
    else .ok (f lay (some seed))
  | .error e => .error e

/-- The operation a request carries: the opcode map of R79, the operands of R80, the refusals of R83.
The decision rests on the command word alone (R237). -/
def decode (r : Request) : Except DecodeError Instr :=
  match (cmdOp r.cmd).toNat with
  | 0x01 => decodeZ r.cmd (.hdrDecode r.din)
  | 0x02 => decodeZ r.cmd .hdrEncode
  | 0x03 => decodeZ r.cmd (.hdrRaw r.raw16 r.receiverId)
  | 0x04 => decodeZ r.cmd (.hdrFields r.type r.encrypted r.fragmented r.priority r.flags
      r.validated r.reserved r.receiverId)
  | 0x05 => decodeZ r.cmd (.hdrSetRcv r.receiverId)
  | 0x06 => decodeField r.cmd .hdrGet
  | 0x10 => decodeSeeded r.cmd r.seed
      (fun lay seed => .pktNew lay r.n r.taskId r.status seed r.din)
  | 0x11 => decodeZ r.cmd .pktToBytes
  | 0x12 => decodeL r.cmd (fun lay => .pktFromBytes lay r.din)
  | 0x13 => decodeZ r.cmd .pktGetHdr
  | 0x14 => decodeZ r.cmd .pktSetHdr
  | 0x15 => decodeZ r.cmd .pktGetStat
  | 0x16 => decodeZ r.cmd (.pktSetStat r.status)
  | 0x17 => decodeZ r.cmd .pktGetTask
  | 0x18 => decodeZ r.cmd (.pktSetTask r.taskId)
  | 0x19 => decodeZ r.cmd .pktGetPay
  | 0x1A => decodeZ r.cmd (.pktSetPay r.din)
  | 0x1B => decodeZ r.cmd .pktGetFcs
  | 0x1C => decodeZ r.cmd (.pktSetFcs r.value)
  | 0x20 => decodePolicy r.cmd (fun p => .ckCompute p r.din)
  | 0x21 => decodePolicy r.cmd .ckInit
  | 0x22 => decodeZ r.cmd (.ckUpdate r.din)
  | 0x23 => decodeZ r.cmd .ckFinal
  | 0x30 => decodeZ r.cmd .valSeal
  | 0x31 => decodeZ r.cmd .valIsValid
  | 0x40 => decodeZ r.cmd .txPrep
  | 0x41 => decodeL r.cmd (fun lay => .rxAccept lay r.n r.din)
  | _ => .error .unassignedOpcode

/-! ## The encoder -/

/-- The opcode of an operation (R79). -/
def opcode : Instr → BitVec 8
  | .hdrDecode _ => 0x01
  | .hdrEncode => 0x02
  | .hdrRaw _ _ => 0x03
  | .hdrFields _ _ _ _ _ _ _ _ => 0x04
  | .hdrSetRcv _ => 0x05
  | .hdrGet _ => 0x06
  | .pktNew _ _ _ _ _ _ => 0x10
  | .pktToBytes => 0x11
  | .pktFromBytes _ _ => 0x12
  | .pktGetHdr => 0x13
  | .pktSetHdr => 0x14
  | .pktGetStat => 0x15
  | .pktSetStat _ => 0x16
  | .pktGetTask => 0x17
  | .pktSetTask _ => 0x18
  | .pktGetPay => 0x19
  | .pktSetPay _ => 0x1A
  | .pktGetFcs => 0x1B
  | .pktSetFcs _ => 0x1C
  | .ckCompute _ _ => 0x20
  | .ckInit _ => 0x21
  | .ckUpdate _ => 0x22
  | .ckFinal => 0x23
  | .valSeal => 0x30
  | .valIsValid => 0x31
  | .txPrep => 0x40
  | .rxAccept _ _ _ => 0x41

/-- The command word of a format Z operation: the opcode alone (R78). -/
def wordZ (op : BitVec 8) : Word16 := cmdWord 0 0 0 0 op

/-- The command word of a format S operation (R78). -/
def wordS (sel : BitVec 4) (op : BitVec 8) : Word16 := cmdWord 0 0 0 sel op

/-- The command word of a format L operation (R78). -/
def wordL (seed : BitVec 1) (lay : Layout) (op : BitVec 8) : Word16 :=
  cmdWord seed (kindCode lay.kind) (widthCode lay.width) (policyCode lay.policy) op

/-- The request that carries an operation (R78, R80).  Ports the operation does not take are 0. -/
def encode (i : Instr) : Request :=
  match i with
  | .hdrDecode din => { cmd := wordZ (opcode i), din := din }
  | .hdrEncode => { cmd := wordZ (opcode i) }
  | .hdrRaw raw16 rcv => { cmd := wordZ (opcode i), raw16 := raw16, receiverId := rcv }
  | .hdrFields type enc frag prio flags val res rcv =>
    { cmd := wordZ (opcode i), type := type, encrypted := enc, fragmented := frag,
      priority := prio, flags := flags, validated := val, reserved := res, receiverId := rcv }
  | .hdrSetRcv rcv => { cmd := wordZ (opcode i), receiverId := rcv }
  | .hdrGet field => { cmd := wordS (fieldCode field) (opcode i) }
  | .pktNew lay n taskId status none payload =>
    { cmd := wordL 0 lay (opcode i), n := n, taskId := taskId, status := status, din := payload }
  | .pktNew lay n taskId status (some seed) payload =>
    { cmd := wordL 1 lay (opcode i), n := n, taskId := taskId, status := status, seed := seed,
      din := payload }
  | .pktToBytes => { cmd := wordZ (opcode i) }
  | .pktFromBytes lay raw => { cmd := wordL 0 lay (opcode i), din := raw }
  | .pktGetHdr => { cmd := wordZ (opcode i) }
  | .pktSetHdr => { cmd := wordZ (opcode i) }
  | .pktGetStat => { cmd := wordZ (opcode i) }
  | .pktSetStat status => { cmd := wordZ (opcode i), status := status }
  | .pktGetTask => { cmd := wordZ (opcode i) }
  | .pktSetTask taskId => { cmd := wordZ (opcode i), taskId := taskId }
  | .pktGetPay => { cmd := wordZ (opcode i) }
  | .pktSetPay payload => { cmd := wordZ (opcode i), din := payload }
  | .pktGetFcs => { cmd := wordZ (opcode i) }
  | .pktSetFcs value => { cmd := wordZ (opcode i), value := value }
  | .ckCompute policy bytes => { cmd := wordS (policyCode policy) (opcode i), din := bytes }
  | .ckInit policy => { cmd := wordS (policyCode policy) (opcode i) }
  | .ckUpdate chunk => { cmd := wordZ (opcode i), din := chunk }
  | .ckFinal => { cmd := wordZ (opcode i) }
  | .valSeal => { cmd := wordZ (opcode i) }
  | .valIsValid => { cmd := wordZ (opcode i) }
  | .txPrep => { cmd := wordZ (opcode i) }
  | .rxAccept lay n raw => { cmd := wordL 0 lay (opcode i), n := n, din := raw }

/-! ## Pseudo-operations (R87) -/

/-- The expansion of a pseudo-operation (R87). -/
def expandPseudo : Pseudo → List Instr
  | .hdrField field => [.hdrGet field]
  | .pktNewB width n taskId status payload =>
    [.pktNew { kind := .basic, width := width, policy := .none } n taskId status none payload]
  | .ckStream policy chunks =>
    .ckInit policy :: (chunks.map fun c => .ckUpdate c) ++ [.ckFinal]
  | .send => [.txPrep]
  | .recv lay n raw => [.rxAccept lay n raw]

/-! ## The host's access to the decoder -/

/-- The request whose command word is the low `nbits` bits of `w` and whose operand ports are all 0:
an opcode-table row gives the command word only, since operands have ports of their own (R82). -/
def tableRequest (nbits w : Nat) : Request := { cmd := BitVec.ofNat 16 (w % 2 ^ nbits) }

/-- The operation the decoder reads from an opcode-table word, `none` where it refuses. -/
def decodeTableWord (nbits w : Nat) : Option Instr :=
  match decode (tableRequest nbits w) with
  | .ok i => some i
  | .error _ => none

end Sys2Proof
end

