-- ==== Sys2Proof/Machine/State.lean ====
section
/-!
DEFINITION. The state of the codec (10_state.md rules R20 to R36), the response of an operation
(30_encoding.md rule R81, 60_exceptions.md rule R231), the reasons a step can stop, and reset.

Every architectural element of R20 is a field: `cfg`, `h`, `p`, `k`.  Four further fields are the
MODEL's own and are no state of the block (R20): the parameters the instance was built with, the
host's script of requests and resets still to come, and the response port.
-/

namespace Sys2Proof.Machine

/-! ## The response -/

/-- The fourteen status names of R231; `statusCode` gives their numbers. -/
inductive Status where
  | ok | noPacket
  | eTooSmall | eNotAligned | eTaskIdRange | eStatusRange | ePayloadTooLarge | eFcsRange
  | eFcsAbsent | eReceiverRange
  | eIllegalOp | eNoObject | eOperandLength | eCapacity
deriving DecidableEq, Repr

/-- A response (R81): `STATUS`, `RES`, `ABSENT`, `DOUT`. -/
structure Response where
  status : Status
  res    : Word64
  absent : Bool
  dout   : List Byte
deriving DecidableEq, Repr

/-! ## The packet buffer -/

/-- The packet buffer `P.buf` (R50): the bytes that have been written, as address and byte pairs with
addresses strictly rising.  An address that is not listed holds no byte (assumption log 5). -/
abbrev Memory := List Host.Cell

/-- The canonical form: addresses strictly rising.  No entry can equal what an unlisted address reads
as, since an unlisted address holds no byte. -/
def Memory.wf : Memory → Bool
  | [] => true
  | [_] => true
  | c :: d :: m => decide (c.1 < d.1) && Memory.wf (d :: m)

/-! ## The architectural state -/

/-- The locked configuration `CFG` (R21, R22): written by reset only. -/
structure LockedConfig where
  /-- `CFG.VERSION`, 2 bits. -/
  version : BitVec 2
  /-- `CFG.BOARD_ID`, 8 bits. -/
  boardId : Byte
deriving DecidableEq, Repr

/-- The header register `H` (R25, R26). -/
structure HeaderReg where
  /-- `H.valid`. -/
  valid    : Bool
  /-- `H.space`, 16 bits, subdivided by R71. -/
  space    : Word16
  /-- `H.sender`, the `sender_id`. -/
  sender   : Byte
  /-- `H.receiver`, the `receiver_id`. -/
  receiver : Byte
deriving DecidableEq, Repr

/-- The packet context `P` (R28). -/
structure Packet where
  /-- `P.valid`. -/
  valid  : Bool
  /-- `P.kind`. -/
  kind   : Kind
  /-- `P.N`, the total size in bytes. -/
  n      : Nat
  /-- `P.W`, the task-id width. -/
  width  : TaskWidth
  /-- `P.policy`, meaningful only when the kind is Framed. -/
  policy : Policy
  /-- `P.buf`, the byte image. -/
  buf    : Memory
deriving DecidableEq, Repr

/-- The accumulators of a checksum computation (R31, R173): the fields `a`, `b`, `pv`, `pend` of K,
and the context k that `Compute` threads through a byte string. -/
structure Accum where
  /-- `a`, 64 bits. -/
  a    : Word64
  /-- `b`, 16 bits. -/
  b    : Word16
  /-- `pv`: a pending odd byte is held. -/
  pv   : Bool
  /-- `pend`: the pending odd byte. -/
  pend : Byte
deriving DecidableEq, Repr

/-- The checksum stream context `K` (R31). -/
structure Stream where
  /-- `K.active`. -/
  active : Bool
  /-- `K.policy`. -/
  policy : Policy
  /-- `K.a`, `K.b`, `K.pv`, `K.pend`. -/
  acc    : Accum
deriving DecidableEq, Repr

/-! ## The host's side -/

/-- What the host can do to the block: issue a request (R4), or reset it with the configuration inputs
it then drives (R260, R261). -/
inductive HostEvent where
  | request (r : Request)
  | reset (version : BitVec 2) (boardId : Byte)
deriving DecidableEq, Repr

/-- The machine: the architectural state of R20, and the model's own fields. -/
structure State where
  /-- `CFG` (R21, R22). -/
  cfg      : LockedConfig
  /-- `H` (R25). -/
  h        : HeaderReg
  /-- `P` (R28). -/
  p        : Packet
  /-- `K` (R31). -/
  k        : Stream
  /-- MODEL's own: `WORD_UNIT` and `PKT_MAX`, which no step writes (R5, R23). -/
  params   : Params
  /-- MODEL's own: what the host will do next, first event first (R34, R60, R275). -/
  events   : List HostEvent
  /-- MODEL's own: the response port, holding the response of the last request served since reset;
  no operation reads it (R20, R35). -/
  response : Option Response
deriving DecidableEq, Repr

/-! ## Stops -/

/-- Why a step can stop.  No state that satisfies the invariant of R30 can raise either: "no bounds
error exists" (R51). -/
inductive Fault where
  /-- Raised by the packet-buffer operations for an access that is not inside `P.buf[0 .. P.N)`, an
  address the spec says does not exist (R50, R51).  Safe: the model stops. -/
  | outsideBuffer
  /-- Raised by the packet-buffer operations for a read of a byte that nothing has written, which no
  valid packet has (R30).  Safe: the model stops. -/
  | unwrittenByte
deriving DecidableEq, Repr

/-- Why a step can be refused. -/
inductive Refusal where
  /-- Reserved for an arm of `exec` that has no meaning yet; no arm raises it.  Safe. -/
  | notModelled (mnemonic : String)
deriving DecidableEq, Repr

/-! ## Reset -/

/-- The state after a reset that samples the inputs `version` and `boardId` (R36, R260, R262): the
locked registers hold the inputs and the three valid bits are 0.  Everything else is unspecified by
the spec and reads as zero here (assumption log 1, DESIGN CHOICE); no operation can return it (R36). -/
def State.resetWith (params : Params) (version : BitVec 2) (boardId : Byte) : State :=
  { cfg := { version := version, boardId := boardId }
    h := { valid := false, space := 0, sender := 0, receiver := 0 }
    p := { valid := false, kind := .basic, n := 0, width := .w1, policy := .none, buf := [] }
    k := { active := false, policy := .none, acc := { a := 0, b := 0, pv := false, pend := 0 } }
    params := params
    events := []
    response := none }

/-- The machine right after reset, for the inputs and parameters that `Sys2Proof.Config` names
(assumption log 2 and 3). -/
def State.reset : State :=
  State.resetWith Config.params Config.version Config.boardId

end Sys2Proof.Machine
end

