-- ==== Sys2Proof/Machine/Bytes.lean ====
section
/-!
DEFINITION. Byte strings: the little-endian image of an integer and its inverse, and runs of zero
bytes (00_scope.md rule R7, 20_memory.md rule R52).
-/

namespace Sys2Proof.Machine

/-- `LE(v, n)`: the n-byte little-endian image of v (R7).  It is used only where v < 2^(8n). -/
def le : Nat → Nat → List Byte
  | 0, _ => []
  | n + 1, v => BitVec.ofNat 8 v :: le n (v / 256)

/-- `unLE(s)`: the unsigned integer whose little-endian image is s (R7). -/
def unLE : List Byte → Nat
  | [] => 0
  | b :: s => b.toNat + 256 * unLE s

/-- `zeros(n)`: n bytes 0x00 (R7). -/
def zeros (n : Nat) : List Byte := List.replicate n 0

/-- The value v fits unsigned in n bytes: v < 2^(8n) (R82). -/
def fits (v n : Nat) : Bool := decide (v < 2 ^ (8 * n))

end Sys2Proof.Machine
end

