-- ==== Sys2Proof/Machine/Flags.lean ====
section
/-!
DEFINITION. Outcomes of an operation.

The hardware has no flags, condition codes or sticky status bits (10_state.md rule R35).  What other
machines keep in flags is here the response: the status code (60_exceptions.md rule R231) and the
result fields (30_encoding.md rule R81).
-/

namespace Sys2Proof.Machine

/-- The number of a status on the 8-bit `STATUS` port (R231). -/
def statusCode : Status → BitVec 8
  | .ok => 0x00
  | .noPacket => 0x01
  | .eTooSmall => 0x10
  | .eNotAligned => 0x11
  | .eTaskIdRange => 0x12
  | .eStatusRange => 0x13
  | .ePayloadTooLarge => 0x14
  | .eFcsRange => 0x15
  | .eFcsAbsent => 0x20
  | .eReceiverRange => 0x21
  | .eIllegalOp => 0x30
  | .eNoObject => 0x31
  | .eOperandLength => 0x32
  | .eCapacity => 0x33

/-- The LayoutError class: statuses 0x10 to 0x15 (R232). -/
def isLayoutError : Status → Bool
  | .eTooSmall | .eNotAligned | .eTaskIdRange | .eStatusRange | .ePayloadTooLarge | .eFcsRange => true
  | _ => false

/-- The error statuses: all but OK and NO_PACKET (R230, R236). -/
def isError (st : Status) : Bool := decide (st ≠ .ok) && decide (st ≠ .noPacket)

/-- A response that carries the status alone: `RES` = 0, `ABSENT` = 0, `DOUT` empty (R81). -/
def Response.bare (st : Status) : Response :=
  { status := st, res := 0, absent := false, dout := [] }

/-- OK with nothing beyond the status (R81). -/
def Response.done : Response := Response.bare .ok

/-- OK with a scalar result on `RES` (R81). -/
def Response.value (v : Word64) : Response := { Response.done with res := v }

/-- OK with a byte string on `DOUT` (R81). -/
def Response.bytes (s : List Byte) : Response := { Response.done with dout := s }

/-- OK with `RES` = 0 and `ABSENT` = 1: the field does not exist (R81, R143). -/
def Response.missing : Response := { Response.done with absent := true }

end Sys2Proof.Machine
end

