-- ==== Sys2Proof/Machine/Operands.lean ====
section
/-!
DEFINITION. Operand forms: the quantities derived from a layout (41_packet_layout.md rules R130,
R131), and the transformations and checks that operands go through (30_encoding.md rule R82).
-/

namespace Sys2Proof.Machine

/-! ## Widths -/

/-- W in bytes: 2^WC (R75). -/
def widthBytes : TaskWidth → Nat
  | .w1 => 1 | .w2 => 2 | .w4 => 4 | .w8 => 8

/-- The field width of a policy in bytes (R77, R171). -/
def policyBytes : Policy → Nat
  | .none => 0
  | .sum8 => 1 | .sum16 => 2 | .sum32 => 4
  | .crc8 => 1 | .crc16 => 2 | .crc32 => 4 | .crc64 => 8
  | .fletcher16 => 2 | .fletcher32 => 4 | .adler32 => 4 | .internet16 => 2

/-- `F(kind, policy)` (R130): the width of the checksum field, 0 for a Basic packet. -/
def fcsBytes (kind : Kind) (policy : Policy) : Nat :=
  match kind with
  | .basic => 0
  | .framed => policyBytes policy

/-- `F` of a layout operand (R130). -/
def layoutFcsBytes (lay : Layout) : Nat := fcsBytes lay.kind lay.policy

/-- `MinSize(kind, W, pol)` = 4 + 1 + W + F (R130). -/
def minSize (lay : Layout) : Nat := 4 + 1 + widthBytes lay.width + layoutFcsBytes lay

/-- `Pcap(N, kind, W, pol)` = N − 4 − 1 − W − F (R130), used only where `minSize lay ≤ n`. -/
def pcap (n : Nat) (lay : Layout) : Nat := n - minSize lay

/-! ## The layout of the packet in P (R29) -/

/-- The layout the packet context holds. -/
def Packet.layout (p : Packet) : Layout := { kind := p.kind, width := p.width, policy := p.policy }

/-- `F` of the packet in P (R29). -/
def Packet.fcsBytes (p : Packet) : Nat := Machine.fcsBytes p.kind p.policy

/-- `Pcap` of the packet in P (R29). -/
def Packet.pcap (p : Packet) : Nat := Machine.pcap p.n p.layout

/-- The offset of the payload, 5 + W (R29, R56). -/
def Packet.payloadOffset (p : Packet) : Nat := 5 + widthBytes p.width

/-- The offset of the checksum field, N − F (R29, R56). -/
def Packet.fcsOffset (p : Packet) : Nat := p.n - p.fcsBytes

/-! ## Checks, in the order they are listed (R237) -/

/-- One check: if the condition holds, the request ends with the status. -/
abbrev Check := Bool × Status

/-- N > PKT_MAX, never for an unbounded buffer (R5, R231). -/
def exceedsMax (c : Params) (n : Nat) : Bool :=
  match c.pktMax with
  | none => false
  | some m => decide (m < n)

/-- `CheckSize` (R131): (a) too small, then (b) not aligned. -/
def sizeChecks (c : Params) (lay : Layout) (n : Nat) : List Check :=
  [(decide (n < minSize lay), .eTooSmall), (decide (n % c.wordUnit ≠ 0), .eNotAligned)]

/-- The checks of PKT.FROMBYTES on N (R134): capacity, then `CheckSize`. -/
def parseChecks (c : Params) (lay : Layout) (n : Nat) : List Check :=
  (exceedsMax c n, .eCapacity) :: sizeChecks c lay n

/-- `receiver_id` is checked, not masked (R82, R106 to R108). -/
def receiverCheck (receiverId : Word16) : Check :=
  (decide (255 < receiverId.toNat), .eReceiverRange)

/-- `status` is checked, not masked (R82, R132 (d), R138). -/
def statusCheck (status : Word16) : Check := (decide (255 < status.toNat), .eStatusRange)

/-- `task_id` must fit W bytes (R82, R132 (c), R140). -/
def taskIdCheck (w : TaskWidth) (taskId : Word64) : Check :=
  (!fits taskId.toNat (widthBytes w), .eTaskIdRange)

/-- The payload must not be longer than the payload field (R82, R132 (e), R142). -/
def payloadCheck (capacity : Nat) (payload : List Byte) : Check :=
  (decide (capacity < payload.length), .ePayloadTooLarge)

/-- A supplied seed must fit the checksum field when there is one (R82, R132 (f)). -/
def seedCheck (f : Nat) (seed : Option Word64) : Check :=
  (match seed with
   | none => false
   | some v => decide (0 < f) && !fits v.toNat f, .eFcsRange)

/-- The initial value of the checksum field (R132 (f)): the seed, else 0.  A seed for a field of
width 0 is discarded. -/
def seedValue (f : Nat) (seed : Option Word64) : Nat :=
  match seed with
  | none => 0
  | some v => if 0 < f then v.toNat else 0

/-- The payload right-padded with zero bytes to the payload field (R82). -/
def padPayload (capacity : Nat) (payload : List Byte) : List Byte :=
  payload ++ zeros (capacity - payload.length)

end Sys2Proof.Machine
end

