-- ==== Sys2Proof/Machine/Checksum.lean ====
section
/-!
DEFINITION. The checksum engine's pure functions: the twelve policies as state machines over an
accumulator context (42_checksum_engine.md rules R170 to R186).

Sums and remainders are computed on natural numbers and narrowed at the end; CRC registers are bit
vectors of the policy's width.
-/

namespace Sys2Proof.Machine

/-! ## `Init` -/

/-- `Init(policy)` (R173, R191): all zero, but `a` = 0xFFFFFFFF for crc32 (R181, conflict C1) and
`a` = 1 for adler32 (R185). -/
def ckStart (policy : Policy) : Accum :=
  { a := match policy with
      | .none => 0
      | .sum8 => 0
      | .sum16 => 0
      | .sum32 => 0
      | .crc8 => 0
      | .crc16 => 0
      | .crc32 => 0xFFFFFFFF
      | .crc64 => 0
      | .fletcher16 => 0
      | .fletcher32 => 0
      | .adler32 => 1
      | .internet16 => 0
    b := 0
    pv := false
    pend := 0 }

/-! ## The steps -/

/-- One of the eight shifts of `StepMsb` (R174). -/
def crcShiftMsb {n : Nat} (poly a : BitVec n) : BitVec n :=
  if a.msb then (a <<< 1) ^^^ poly else a <<< 1

/-- `StepMsb(n, poly, a, x)` (R174): the byte step of a non-reflected, MSB-first CRC. -/
def crcStepMsb {n : Nat} (poly a : BitVec n) (x : Byte) : BitVec n :=
  Nat.iterate (crcShiftMsb poly) 8 (a ^^^ (x.setWidth n <<< (n - 8)))

/-- One of the eight shifts of `StepLsb32` (R174). -/
def crcShiftLsb (rpoly a : BitVec 32) : BitVec 32 :=
  if a.getLsbD 0 then (a >>> 1) ^^^ rpoly else a >>> 1

/-- `StepLsb32(rpoly, a, x)` (R174): the byte step of the 32-bit reflected CRC. -/
def crcStepLsb (rpoly a : BitVec 32) (x : Byte) : BitVec 32 :=
  Nat.iterate (crcShiftLsb rpoly) 8 (a ^^^ x.setWidth 32)

/-- The step of a sum (R176 to R178): `a <- (a + x) mod m`. -/
def sumStep (m : Nat) (k : Accum) (x : Nat) : Accum :=
  { k with a := BitVec.ofNat 64 ((k.a.toNat + x) % m) }

/-- The step of the two running sums of Fletcher and Adler (R183 to R185): `a <- (a + x) mod m`, then
`b <- (b + a) mod m` with the new a. -/
def pairStep (m : Nat) (k : Accum) (x : Nat) : Accum :=
  let a := (k.a.toNat + x) % m
  { k with a := BitVec.ofNat 64 a, b := BitVec.ofNat 16 ((k.b.toNat + a) % m) }

/-- The end-around carry of R186: `while s > 0xFFFF: s <- (s & 0xFFFF) + (s >> 16)`, with a bound on
the number of turns; each turn that the loop takes makes s smaller. -/
def foldCarry : Nat → Nat → Nat
  | 0, s => s
  | turns + 1, s => if 0xFFFF < s then foldCarry turns (s % 65536 + s / 65536) else s

/-- The word step of internet16 (R186).  Eight turns are enough for every 64-bit a. -/
def internetStep (k : Accum) (w : Nat) : Accum :=
  { k with a := BitVec.ofNat 64 (foldCarry 8 (k.a.toNat + w)) }

/-- The word step of fletcher32 (R184). -/
def fletcher32Step (k : Accum) (w : Nat) : Accum := pairStep 65535 k w

/-- `Absorb` of a word-serial policy (R173): the high byte waits, the low byte completes the
big-endian word. -/
def absorbWord (step : Accum → Nat → Accum) (k : Accum) (x : Byte) : Accum :=
  if k.pv then { step k (k.pend.toNat * 256 + x.toNat) with pv := false }
  else { k with pv := true, pend := x }

/-- The flush inside `Final` of a word-serial policy (R173): a pending byte is the high byte of a word
whose low byte is 0. -/
def flushWord (step : Accum → Nat → Accum) (k : Accum) : Accum :=
  if k.pv then step k (k.pend.toNat * 256) else k

/-- `Absorb(policy, k, x)` (R173, R175 to R186): consume one byte. -/
def absorb (policy : Policy) (k : Accum) (x : Byte) : Accum :=
  match policy with
  | .none => k
  | .sum8 => sumStep (2 ^ 8) k x.toNat
  | .sum16 => sumStep (2 ^ 16) k x.toNat
  | .sum32 => sumStep (2 ^ 32) k x.toNat
  | .crc8 => { k with a := (crcStepMsb 0x07#8 (k.a.setWidth 8) x).setWidth 64 }
  | .crc16 => { k with a := (crcStepMsb 0x1021#16 (k.a.setWidth 16) x).setWidth 64 }
  | .crc32 => { k with a := (crcStepLsb 0xEDB88320#32 (k.a.setWidth 32) x).setWidth 64 }
  | .crc64 => { k with a := crcStepMsb 0x42F0E1EBA9EA3693#64 k.a x }
  | .fletcher16 => pairStep 255 k x.toNat
  | .fletcher32 => absorbWord fletcher32Step k x
  | .adler32 => pairStep 65521 k x.toNat
  | .internet16 => absorbWord internetStep k x

/-- Consume a byte string, first byte first (R192). -/
def absorbAll (policy : Policy) (k : Accum) (s : List Byte) : Accum := s.foldl (absorb policy) k

/-! ## `Final` -/

/-- The value of two running sums: `(b << shift) | a` (R183 to R185). -/
def pairValue (shift : Nat) (k : Accum) : Word64 := (k.b.setWidth 64 <<< shift) ||| k.a

/-- `Final(policy, k)` (R173, R175 to R186); k itself does not change. -/
def ckValue (policy : Policy) (k : Accum) : Word64 :=
  match policy with
  | .none => 0
  | .sum8 => k.a
  | .sum16 => k.a
  | .sum32 => k.a
  | .crc8 => k.a
  | .crc16 => k.a
  | .crc32 => k.a ^^^ 0xFFFFFFFF
  | .crc64 => k.a
  | .fletcher16 => pairValue 8 k
  | .fletcher32 => pairValue 16 (flushWord fletcher32Step k)
  | .adler32 => pairValue 16 k
  | .internet16 => ~~~(flushWord internetStep k).a &&& 0xFFFF

/-- `Compute(policy, s)` (R170, R173): a pure function of the policy and the bytes. -/
def compute (policy : Policy) (s : List Byte) : Word64 :=
  ckValue policy (absorbAll policy (ckStart policy) s)

end Sys2Proof.Machine
end

