-- ==== Sys2Proof/Machine/Ops.lean ====
section
/-!
DEFINITION. The named operations every meaning is written over: ending an operation with a response
(R230), with an error (R238), the ordered checks (R237), the packet buffer (R50, R51), writing a
context (R26, R28, R31), and serving the host's events (R34, R260).
-/

namespace Sys2Proof.Machine

/-- The outcome of a step. -/
abbrev Out := Host.Outcome State Fault Refusal

/-! ## Ending an operation -/

/-- Put a response on the response port. -/
def State.respond (s : State) (r : Response) : State := { s with response := some r }

/-- End the operation normally (R230). -/
def finish (r : Response) (s : State) : Out := .next (s.respond r)

/-- TAKING AN EXCEPTION (R238): the operation ends with the status and nothing else; "no element of
architectural state is written".  There is no saved context, cause register, mode, vector or handler:
"the trap is the response".  There is nothing to return from either (R239): the next step serves the
next request, and nothing remembers that this one failed. -/
def raise (st : Status) (s : State) : Out := finish (Response.bare st) s

/-- The status of the first check that applies (R237), `none` if none does. -/
def firstError : List Check → Option Status
  | [] => none
  | (c, st) :: cs => if c then some st else firstError cs

/-- The checks of an operation in the order its rule lists them (R237): the first that applies ends
the operation; if none does, the operation goes on. -/
def guarded (cs : List Check) (s : State) (k : State → Out) : Out :=
  match firstError cs with
  | some st => raise st s
  | none => k s

/-- Go on with a value, or stop with the fault that computing it met. -/
def orFault {α : Type} (x : Except Fault α) (k : α → Out) : Out :=
  match x with
  | .ok a => k a
  | .error e => .fault e

/-! ## The packet buffer as a list of cells -/

/-- The byte at an address, `none` where nothing has been written. -/
def Memory.read : Memory → Nat → Option Byte
  | [], _ => none
  | (k, v) :: m, a => if k = a then some v else Memory.read m a

/-- Write one byte, keeping the addresses in rising order. -/
def Memory.write : Memory → Nat → Byte → Memory
  | [], a, b => [(a, b)]
  | (k, v) :: m, a, b =>
    if a < k then (a, b) :: (k, v) :: m
    else if a = k then (a, b) :: m
    else (k, v) :: Memory.write m a b

/-- Write a byte string from an offset on. -/
def Memory.store : Memory → Nat → List Byte → Memory
  | m, _, [] => m
  | m, a, b :: bs => Memory.store (Memory.write m a b) (a + 1) bs

/-- The buffer that holds a byte string from an offset on and nothing else. -/
def Memory.ofBytes : Nat → List Byte → Memory
  | _, [] => []
  | a, b :: bs => (a, b) :: Memory.ofBytes (a + 1) bs

/-! ## `MemRead` and `MemWrite` (R51) -/

/-- The byte strings at consecutive addresses. -/
def readCells (m : Memory) : Nat → Nat → Except Fault (List Byte)
  | _, 0 => .ok []
  | a, n + 1 =>
    match m.read a with
    | none => .error .unwrittenByte
    | some b =>
      match readCells m (a + 1) n with
      | .ok bs => .ok (b :: bs)
      | .error e => .error e

/-- `P.buf[off .. off+n)`, for off + n ≤ P.N (R51). -/
def Packet.bytesAt (p : Packet) (off n : Nat) : Except Fault (List Byte) :=
  if off + n ≤ p.n then readCells p.buf off n else .error .outsideBuffer

/-- `MemRead(off, n)` (R51): the little-endian value at an offset. -/
def Packet.memRead (p : Packet) (off n : Nat) : Except Fault Nat :=
  match p.bytesAt off n with
  | .ok bs => .ok (unLE bs)
  | .error e => .error e

/-- `P.buf[off .. off+len) <- bs`, for off + len ≤ P.N (R51): no other byte changes. -/
def Packet.storeBytes (p : Packet) (off : Nat) (bs : List Byte) : Except Fault Packet :=
  if off + bs.length ≤ p.n then .ok { p with buf := p.buf.store off bs }
  else .error .outsideBuffer

/-- `MemWrite(off, n, v)` (R51). -/
def Packet.memWrite (p : Packet) (off n v : Nat) : Except Fault Packet := p.storeBytes off (le n v)

/-! ## Writing a context -/

/-- Load the header register (R26): the three parts, and the valid bit becomes 1. -/
def State.loadHeader (s : State) (space : Word16) (sender receiver : Byte) : State :=
  { s with h := { valid := true, space := space, sender := sender, receiver := receiver } }

/-- The packet of a layout, a total size and an image (R132, R134).  The policy is written for a Framed
packet only, so that for a Basic one it stays as it was. -/
def buildPacket (old : Packet) (lay : Layout) (n : Nat) (image : List Byte) : Packet :=
  { valid := true
    kind := lay.kind
    n := n
    width := lay.width
    policy := match lay.kind with
      | .basic => old.policy
      | .framed => lay.policy
    buf := Memory.ofBytes 0 image }

/-- Write the packet context. -/
def State.setPacket (s : State) (p : Packet) : State := { s with p := p }

/-- Write the checksum stream context. -/
def State.setStream (s : State) (k : Stream) : State := { s with k := k }

/-- Write the packet context with what an operation computed, and end with OK. -/
def updatePacket (x : Except Fault Packet) (s : State) : Out :=
  orFault x fun p => finish Response.done (s.setPacket p)

/-! ## The host's events -/

/-- The host's script with a request put before what was to come (R34). -/
def State.push (s : State) (r : Request) : State := { s with events := .request r :: s.events }

/-- The state in which the first event of the host's script has been taken off it (R34). -/
def State.pop (s : State) : State := { s with events := s.events.tail }

/-- A reset event (R260 to R262): everything is as `State.resetWith` gives it for the sampled inputs;
the instance's parameters and what the host will do next are not the block's to reset. -/
def State.resetNow (s : State) (version : BitVec 2) (boardId : Byte) : State :=
  { State.resetWith s.params version boardId with events := s.events }

end Sys2Proof.Machine
end

