-- ==== Sys2Proof/Machine/Ck.lean ====
section
/-!
DEFINITION. The four CK operations (42_checksum_engine.md rules R190 to R194).  The stream context K is
read and written by CK.INIT, CK.UPDATE and CK.FINAL alone (R194).
-/

namespace Sys2Proof.Machine

/-- An operation that reads K ends with `E_NO_OBJECT` while `K.active` = 0 (R192, R193). -/
def streamCheck (s : State) : Check := (!s.k.active, .eNoObject)

/-- CK.COMPUTE (R190). -/
def execCkCompute (policy : Policy) (bytes : List Byte) (s : State) : Out :=
  finish (Response.value (compute policy bytes)) s

/-- CK.INIT (R191): a computation in progress is abandoned. -/
def execCkInit (policy : Policy) (s : State) : Out :=
  finish Response.done (s.setStream { active := true, policy := policy, acc := ckStart policy })

/-- CK.UPDATE (R192). -/
def execCkUpdate (chunk : List Byte) (s : State) : Out :=
  guarded [streamCheck s] s fun s =>
    finish Response.done
      (s.setStream { s.k with acc := absorbAll s.k.policy s.k.acc chunk })

/-- CK.FINAL (R193): the flush works on a copy, so that only `K.active` changes. -/
def execCkFinal (s : State) : Out :=
  guarded [streamCheck s] s fun s =>
    finish (Response.value (ckValue s.k.policy s.k.acc)) (s.setStream { s.k with active := false })

end Sys2Proof.Machine
end

