-- ==== Sys2Proof/Machine/Hdr.lean ====
section
/-!
DEFINITION. The header codec: the pure functions of 40_header_codec.md rules R100 to R102 and the six
HDR operations (rules R104 to R109).
-/

namespace Sys2Proof.Machine

/-! ## Pure functions -/

/-- `Space(type, version, encrypted, fragmented, priority, flags, validated, reserved)` (R100):
priority and flags are cut to their low 3 bits, the other parts have exactly their field's width. -/
def spaceOf (type : BitVec 4) (version : BitVec 2) (encrypted fragmented : BitVec 1)
    (priority flags : BitVec 8) (validated reserved : BitVec 1) : Word16 :=
  (type.setWidth 16 <<< 12) ||| (version.setWidth 16 <<< 10) ||| (encrypted.setWidth 16 <<< 9)
    ||| (fragmented.setWidth 16 <<< 8) ||| ((priority &&& 7).setWidth 16 <<< 5)
    ||| ((flags &&& 7).setWidth 16 <<< 2) ||| (validated.setWidth 16 <<< 1) ||| reserved.setWidth 16

/-- The space word of HDR.RAW (R106): `raw16` with bits 11:10 replaced by the locked version. -/
def rawSpace (raw16 : Word16) (version : BitVec 2) : Word16 :=
  (raw16 &&& 0xF3FF) ||| (version.setWidth 16 <<< 10)

/-- `HdrEncode(space, sender, receiver)` (R101): the 4-byte wire header. -/
def hdrBytes (space : Word16) (sender receiver : Byte) : List Byte :=
  [space.extractLsb' 0 8, space.extractLsb' 8 8, sender, receiver]

/-- The `space` part of `HdrDecode(b)` (R102): b[0] | (b[1] << 8). -/
def hdrSpace (b0 b1 : Byte) : Word16 := b0.setWidth 16 ||| (b1.setWidth 16 <<< 8)

/-- The field of the header register that a selector names (R109). -/
def hdrField (h : HeaderReg) : HdrField → Word64
  | .space => h.space.setWidth 64
  | .type => (h.space.extractLsb' 12 4).setWidth 64
  | .version => (h.space.extractLsb' 10 2).setWidth 64
  | .encrypted => (h.space.extractLsb' 9 1).setWidth 64
  | .fragmented => (h.space.extractLsb' 8 1).setWidth 64
  | .priority => (h.space.extractLsb' 5 3).setWidth 64
  | .flags => (h.space.extractLsb' 2 3).setWidth 64
  | .validated => (h.space.extractLsb' 1 1).setWidth 64
  | .reserved => (h.space.extractLsb' 0 1).setWidth 64
  | .senderId => h.sender.setWidth 64
  | .receiverId => h.receiver.setWidth 64

/-- `HdrEncode` of the header register. -/
def HeaderReg.bytes (h : HeaderReg) : List Byte := hdrBytes h.space h.sender h.receiver

/-- An operation that reads H ends with `E_NO_OBJECT` while `H.valid` = 0 (R26). -/
def headerCheck (s : State) : Check := (!s.h.valid, .eNoObject)

/-! ## Operations -/

/-- HDR.DECODE (R104). -/
def execHdrDecode (din : List Byte) (s : State) : Out :=
  match din with
  | [b0, b1, b2, b3] => finish Response.done (s.loadHeader (hdrSpace b0 b1) b2 b3)
  | _ => raise .eOperandLength s

/-- HDR.ENCODE (R105). -/
def execHdrEncode (s : State) : Out :=
  guarded [headerCheck s] s fun s => finish (Response.bytes s.h.bytes) s

/-- HDR.RAW (R106). -/
def execHdrRaw (raw16 receiverId : Word16) (s : State) : Out :=
  guarded [receiverCheck receiverId] s fun s =>
    finish Response.done
      (s.loadHeader (rawSpace raw16 s.cfg.version) s.cfg.boardId (receiverId.setWidth 8))

/-- HDR.FIELDS (R107). -/
def execHdrFields (type : BitVec 4) (encrypted fragmented : BitVec 1) (priority flags : BitVec 8)
    (validated reserved : BitVec 1) (receiverId : Word16) (s : State) : Out :=
  guarded [receiverCheck receiverId] s fun s =>
    finish Response.done
      (s.loadHeader
        (spaceOf type s.cfg.version encrypted fragmented priority flags validated reserved)
        s.cfg.boardId (receiverId.setWidth 8))

/-- HDR.SETRCV (R108). -/
def execHdrSetRcv (receiverId : Word16) (s : State) : Out :=
  guarded [headerCheck s, receiverCheck receiverId] s fun s =>
    finish Response.done (s.loadHeader s.h.space s.h.sender (receiverId.setWidth 8))

/-- HDR.GET (R109). -/
def execHdrGet (field : HdrField) (s : State) : Out :=
  guarded [headerCheck s] s fun s => finish (Response.value (hdrField s.h field)) s

end Sys2Proof.Machine
end

