-- ==== Sys2Proof/Machine/Pkt.lean ====
section
/-!
DEFINITION. The packet layout engine: the thirteen PKT operations (41_packet_layout.md rules R132 to
R144).
-/

namespace Sys2Proof.Machine

/-- An operation that reads P ends with `E_NO_OBJECT` while `P.valid` = 0 (R30). -/
def packetCheck (s : State) : Check := (!s.p.valid, .eNoObject)

/-- The checks of PKT.NEW, in order (R132, R237): H, capacity, then (a) to (f). -/
def newChecks (lay : Layout) (n : Nat) (taskId : Word64) (status : Word16) (seed : Option Word64)
    (payload : List Byte) (s : State) : List Check :=
  [headerCheck s, (exceedsMax s.params n, .eCapacity)] ++ sizeChecks s.params lay n ++
    [taskIdCheck lay.width taskId, statusCheck status, payloadCheck (pcap n lay) payload,
      seedCheck (layoutFcsBytes lay) seed]

/-- The image PKT.NEW builds (R132): header, status, task id, padded payload, checksum field. -/
def newImage (header : List Byte) (lay : Layout) (n : Nat) (taskId : Word64) (status : Word16)
    (seed : Option Word64) (payload : List Byte) : List Byte :=
  header ++ le 1 status.toNat ++ le (widthBytes lay.width) taskId.toNat ++
    padPayload (pcap n lay) payload ++
    le (layoutFcsBytes lay) (seedValue (layoutFcsBytes lay) seed)

/-- PKT.NEW (R132).  The header is copied as it stands in H. -/
def execPktNew (lay : Layout) (n : BitVec 32) (taskId : Word64) (status : Word16)
    (seed : Option Word64) (payload : List Byte) (s : State) : Out :=
  guarded (newChecks lay n.toNat taskId status seed payload s) s fun s =>
    finish Response.done (s.setPacket (buildPacket s.p lay n.toNat
      (newImage s.h.bytes lay n.toNat taskId status seed payload)))

/-- PKT.TOBYTES (R133). -/
def execPktToBytes (s : State) : Out :=
  guarded [packetCheck s] s fun s =>
    orFault (s.p.bytesAt 0 s.p.n) fun image => finish (Response.bytes image) s

/-- The packet PKT.FROMBYTES builds (R134): the image is the byte string, its length the total size. -/
def parsedPacket (old : Packet) (lay : Layout) (raw : List Byte) : Packet :=
  buildPacket old lay raw.length raw

/-- PKT.FROMBYTES (R134). -/
def execPktFromBytes (lay : Layout) (raw : List Byte) (s : State) : Out :=
  guarded (parseChecks s.params lay raw.length) s fun s =>
    finish Response.done (s.setPacket (parsedPacket s.p lay raw))

/-- PKT.GETHDR (R135): H becomes the packet's header, byte-exact. -/
def execPktGetHdr (s : State) : Out :=
  guarded [packetCheck s] s fun s =>
    orFault (s.p.memRead 0 2) fun space =>
      orFault (s.p.memRead 2 1) fun sender =>
        orFault (s.p.memRead 3 1) fun receiver =>
          finish Response.done
            (s.loadHeader (BitVec.ofNat 16 space) (BitVec.ofNat 8 sender) (BitVec.ofNat 8 receiver))

/-- PKT.SETHDR (R136). -/
def execPktSetHdr (s : State) : Out :=
  guarded [headerCheck s, packetCheck s] s fun s => updatePacket (s.p.storeBytes 0 s.h.bytes) s

/-- PKT.GETSTAT (R137). -/
def execPktGetStat (s : State) : Out :=
  guarded [packetCheck s] s fun s =>
    orFault (s.p.memRead 4 1) fun v => finish (Response.value (BitVec.ofNat 64 v)) s

/-- PKT.SETSTAT (R138). -/
def execPktSetStat (status : Word16) (s : State) : Out :=
  guarded [packetCheck s, statusCheck status] s fun s =>
    updatePacket (s.p.memWrite 4 1 status.toNat) s

/-- PKT.GETTASK (R139). -/
def execPktGetTask (s : State) : Out :=
  guarded [packetCheck s] s fun s =>
    orFault (s.p.memRead 5 (widthBytes s.p.width)) fun v =>
      finish (Response.value (BitVec.ofNat 64 v)) s

/-- PKT.SETTASK (R140). -/
def execPktSetTask (taskId : Word64) (s : State) : Out :=
  guarded [packetCheck s, taskIdCheck s.p.width taskId] s fun s =>
    updatePacket (s.p.memWrite 5 (widthBytes s.p.width) taskId.toNat) s

/-- PKT.GETPAY (R141): the whole payload field, zero padding included. -/
def execPktGetPay (s : State) : Out :=
  guarded [packetCheck s] s fun s =>
    orFault (s.p.bytesAt s.p.payloadOffset s.p.pcap) fun field => finish (Response.bytes field) s

/-- PKT.SETPAY (R142): the whole payload field is replaced, its tail zeroed. -/
def execPktSetPay (payload : List Byte) (s : State) : Out :=
  guarded [packetCheck s, payloadCheck s.p.pcap payload] s fun s =>
    updatePacket (s.p.storeBytes s.p.payloadOffset (padPayload s.p.pcap payload)) s

/-- PKT.GETFCS (R143): a field of width 0 is absent. -/
def execPktGetFcs (s : State) : Out :=
  guarded [packetCheck s] s fun s =>
    if s.p.fcsBytes = 0 then finish Response.missing s
    else orFault (s.p.memRead s.p.fcsOffset s.p.fcsBytes) fun v =>
      finish (Response.value (BitVec.ofNat 64 v)) s

/-- PKT.SETFCS (R144): absence is checked before the range. -/
def execPktSetFcs (value : Word64) (s : State) : Out :=
  guarded [packetCheck s, (decide (s.p.fcsBytes = 0), .eFcsAbsent),
      (!fits value.toNat s.p.fcsBytes, .eFcsRange)] s fun s =>
    updatePacket (s.p.memWrite s.p.fcsOffset s.p.fcsBytes value.toNat) s

end Sys2Proof.Machine
end

