-- ==== Sys2Proof/Machine/Val.lean ====
section
/-!
DEFINITION. The validator: `Covered`, `IsValid` and `Seal` (43_validator_pipeline.md rules R210 to
R212) and the two VAL operations (rules R213, R214).
-/

namespace Sys2Proof.Machine

/-- `Covered(P)` (R210): every byte except the trailing checksum field. -/
def Packet.covered (p : Packet) : Except Fault (List Byte) := p.bytesAt 0 p.fcsOffset

/-- `IsValid(P)` (R211). -/
def Packet.isValid (p : Packet) : Except Fault Bool :=
  match p.kind with
  | .basic => .ok true
  | .framed =>
    if p.fcsBytes = 0 then .ok true
    else
      match p.covered, p.memRead p.fcsOffset p.fcsBytes with
      | .ok bytes, .ok stored => .ok (decide ((compute p.policy bytes).toNat = stored))
      | .error e, _ => .error e
      | _, .error e => .error e

/-- `Seal(P)` (R212): only the F checksum bytes change. -/
def Packet.sealed (p : Packet) : Except Fault Packet :=
  match p.kind with
  | .basic => .ok p
  | .framed =>
    if p.fcsBytes = 0 then .ok p
    else
      match p.covered with
      | .ok bytes => p.memWrite p.fcsOffset p.fcsBytes (compute p.policy bytes).toNat
      | .error e => .error e

/-- VAL.SEAL (R214). -/
def execValSeal (s : State) : Out :=
  guarded [packetCheck s] s fun s => updatePacket s.p.sealed s

/-- VAL.ISVALID (R213): an invalid packet is a result, not an error. -/
def execValIsValid (s : State) : Out :=
  guarded [packetCheck s] s fun s =>
    orFault s.p.isValid fun v => finish (Response.value (if v then 1 else 0)) s

end Sys2Proof.Machine
end

