-- ==== Sys2Proof/Machine/Pipe.lean ====
section
/-!
DEFINITION. The codec part of send and receive: TX.PREP and RX.ACCEPT (43_validator_pipeline.md rules
R216 to R218).
-/

namespace Sys2Proof.Machine

/-- TX.PREP (R216): a Framed packet is sealed, then the image is returned. -/
def execTxPrep (s : State) : Out :=
  guarded [packetCheck s] s fun s =>
    orFault s.p.sealed fun p =>
      orFault (p.bytesAt 0 p.n) fun image => finish (Response.bytes image) (s.setPacket p)

/-- The checks of RX.ACCEPT, in order (R217 (1) to (3), R237): the minimum size on n, the length of
what the host read, then those of PKT.FROMBYTES. -/
def acceptChecks (lay : Layout) (n : Nat) (raw : List Byte) (s : State) : List Check :=
  [(decide (n < minSize lay), .eTooSmall), (decide (raw.length ≠ n), .eOperandLength)] ++
    parseChecks s.params lay raw.length

/-- RX.ACCEPT (R217): the destination filter comes before the checksum (R218), and the candidate is
written to P only if it passes both. -/
def execRxAccept (lay : Layout) (n : BitVec 32) (raw : List Byte) (s : State) : Out :=
  guarded (acceptChecks lay n.toNat raw s) s fun s =>
    let t := parsedPacket s.p lay raw
    orFault (t.memRead 3 1) fun receiver =>
      if receiver ≠ s.cfg.boardId.toNat then raise .noPacket s
      else orFault t.isValid fun v =>
        if v then finish Response.done (s.setPacket t) else raise .noPacket s

end Sys2Proof.Machine
end

