-- ==== Sys2Proof/Machine/Dispatch.lean ====
section
/-!
DEFINITION. The meaning of every operation: one arm per constructor of `Instr`.
-/

namespace Sys2Proof.Machine

def exec (i : Instr) (s : State) : Host.Outcome State Fault Refusal :=
  match i with
  -- header group
  | .hdrDecode din => Sys2Proof.Machine.execHdrDecode din s
  | .hdrEncode => Sys2Proof.Machine.execHdrEncode s
  | .hdrRaw raw16 rcv => Sys2Proof.Machine.execHdrRaw raw16 rcv s
  | .hdrFields type enc frag prio flags val res rcv => Sys2Proof.Machine.execHdrFields type enc frag prio flags val res rcv s
  | .hdrSetRcv rcv => Sys2Proof.Machine.execHdrSetRcv rcv s
  | .hdrGet field => Sys2Proof.Machine.execHdrGet field s
  -- packet group
  | .pktNew lay n taskId status seed payload => Sys2Proof.Machine.execPktNew lay n taskId status seed payload s
  | .pktToBytes => Sys2Proof.Machine.execPktToBytes s
  | .pktFromBytes lay raw => Sys2Proof.Machine.execPktFromBytes lay raw s
  | .pktGetHdr => Sys2Proof.Machine.execPktGetHdr s
  | .pktSetHdr => Sys2Proof.Machine.execPktSetHdr s
  | .pktGetStat => Sys2Proof.Machine.execPktGetStat s
  | .pktSetStat status => Sys2Proof.Machine.execPktSetStat status s
  | .pktGetTask => Sys2Proof.Machine.execPktGetTask s
  | .pktSetTask taskId => Sys2Proof.Machine.execPktSetTask taskId s
  | .pktGetPay => Sys2Proof.Machine.execPktGetPay s
  | .pktSetPay payload => Sys2Proof.Machine.execPktSetPay payload s
  | .pktGetFcs => Sys2Proof.Machine.execPktGetFcs s
  | .pktSetFcs value => Sys2Proof.Machine.execPktSetFcs value s
  -- checksum group
  | .ckCompute policy bytes => Sys2Proof.Machine.execCkCompute policy bytes s
  | .ckInit policy => Sys2Proof.Machine.execCkInit policy s
  | .ckUpdate chunk => Sys2Proof.Machine.execCkUpdate chunk s
  | .ckFinal => Sys2Proof.Machine.execCkFinal s
  -- validator group
  | .valSeal => Sys2Proof.Machine.execValSeal s
  | .valIsValid => Sys2Proof.Machine.execValIsValid s
  -- pipeline group
  | .txPrep => Sys2Proof.Machine.execTxPrep s
  | .rxAccept lay n raw => Sys2Proof.Machine.execRxAccept lay n raw s

end Sys2Proof.Machine
end

