-- ==== Sys2Proof/Machine/Step.lean ====
section
/-!
DEFINITION. One step: the block serves the host's next event (R4, R34, R60).
-/

namespace Sys2Proof.Machine

/-- One step of the machine.

A request is one atomic transition (R4): the operation its command word selects, or `E_ILLEGAL_OP`
decided from the command word alone (R83, R237).  A reset event is the one other thing that changes
state (R260).  With nothing from the host nothing happens, since the block never acts on its own
initiative (R240; assumption log 4). -/
def step (s : State) : Host.Outcome State Fault Refusal :=
  match s.events with
  | [] => .next s
  | .reset version boardId :: _ => .next (s.pop.resetNow version boardId)
  | .request r :: _ =>
    match decode r with
    | .ok i => exec i s.pop
    | .error _ => raise .eIllegalOp s.pop

/-- The state in which the host's next event is the request with the given command word and all
operand ports 0. -/
def State.withFetchWord (s : State) (nbits w : Nat) : State := s.push (tableRequest nbits w)

end Sys2Proof.Machine
end

