-- ==== Sys2Proof/Safety.lean ====
section
/-!
DEFINITION. What the claims are stated in: the invariant of the reachable states (10_state.md rules R30
and R32), when an outcome is safe, the observable part of a state (R36), and runs of operations.
-/

namespace Sys2Proof.Safety

open Sys2Proof.Machine

/-! ## The invariant -/

/-- R30, for a packet context that holds a packet: the size is at least the minimum, a multiple of
`WORD_UNIT` and at most `PKT_MAX`, and the buffer holds exactly the bytes 0 to N − 1. -/
abbrev packetOk (c : Params) (p : Packet) : Prop :=
  minSize p.layout ≤ p.n ∧ p.n % c.wordUnit = 0 ∧ exceedsMax c p.n = false ∧
    p.buf.map Prod.fst = List.range p.n

/-- R32: a strict upper bound of `K.a` for each policy; 1 where the element is unused and held at 0. -/
def aBound : Policy → Nat
  | .none => 1
  | .sum8 => 2 ^ 8 | .sum16 => 2 ^ 16 | .sum32 => 2 ^ 32
  | .crc8 => 2 ^ 8 | .crc16 => 2 ^ 16 | .crc32 => 2 ^ 32 | .crc64 => 2 ^ 64
  | .fletcher16 => 255 | .fletcher32 => 65535 | .adler32 => 65521 | .internet16 => 65536

/-- R32: a strict upper bound of `K.b` for each policy; 1 where the element is unused and held at 0. -/
def bBound : Policy → Nat
  | .none => 1
  | .sum8 => 1 | .sum16 => 1 | .sum32 => 1
  | .crc8 => 1 | .crc16 => 1 | .crc32 => 1 | .crc64 => 1
  | .fletcher16 => 255 | .fletcher32 => 65535 | .adler32 => 65521 | .internet16 => 1

/-- The word-serial policies (R173), the only ones that use `K.pv` and `K.pend` (R32). -/
def wordSerial : Policy → Bool
  | .none => false
  | .sum8 => false | .sum16 => false | .sum32 => false
  | .crc8 => false | .crc16 => false | .crc32 => false | .crc64 => false
  | .fletcher16 => false | .fletcher32 => true | .adler32 => false | .internet16 => true

/-- R32: what the accumulators of a computation under a policy can hold. -/
abbrev accOk (policy : Policy) (k : Accum) : Prop :=
  k.a.toNat < aBound policy ∧ k.b.toNat < bBound policy ∧
    (wordSerial policy = false → k.pv = false ∧ k.pend = 0)

/-- The invariant of the machine: legal parameters (R263), a packet buffer in canonical form, R30 of a
packet context that holds a packet, R32 of a stream context that is active. -/
abbrev Inv (s : State) : Prop :=
  s.params.wf = true ∧ s.p.buf.wf = true ∧ (s.p.valid = true → packetOk s.params s.p) ∧
    (s.k.active = true → accOk s.k.policy s.k.acc)

/-! ## Safe outcomes -/

/-- A step is safe when it ends in a next state: no fault and no refusal. -/
def Safe (o : Out) : Prop := ∃ s', o = .next s'

/-! ## What a host can observe -/

/-- Two packet contexts that no operation can tell apart (R147, R36): both empty, or both holding equal
packets; the policy is compared for a Framed packet only. -/
def SamePacket (p q : Packet) : Prop :=
  p.valid = q.valid ∧
    (p.valid = true →
      p.kind = q.kind ∧ p.n = q.n ∧ p.width = q.width ∧ p.buf = q.buf ∧
        (p.kind = .framed → p.policy = q.policy))

/-- Two states that no operation can tell apart: they agree on everything but the content of contexts
whose valid (active) bit is 0 (R36, U10, U11). -/
def SameObservable (s t : State) : Prop :=
  s.cfg = t.cfg ∧ s.params = t.params ∧ s.events = t.events ∧ s.response = t.response ∧
    s.h.valid = t.h.valid ∧ (s.h.valid = true → s.h = t.h) ∧ SamePacket s.p t.p ∧
    s.k.active = t.k.active ∧ (s.k.active = true → s.k = t.k)

/-- Two outcomes that no operation can tell apart. -/
def SameOutcome : Out → Out → Prop
  | .next s, .next t => SameObservable s t
  | .fault e, .fault f => e = f
  | .refused e, .refused f => e = f
  | _, _ => False

/-! ## Runs of operations -/

/-- Perform operations one after the other (R60), stopping where one does not end in a next state. -/
def execAll : List Instr → State → Out
  | [], s => .next s
  | i :: is, s =>
    match exec i s with
    | .next s' => execAll is s'
    | .fault e => .fault e
    | .refused e => .refused e

end Sys2Proof.Safety
end

