-- ==== Sys2Proof/Certificates/Slice0/Obligations.lean ====
section
/-!
DEFINITION. The statements for the provers.  Each docstring names the rules of spec/ a statement
formalises.  A result is stated as the whole next state (`exec i s = .next (…)`), so that everything
not named there is unchanged: the other contexts, the locked configuration, the host's script.
-/

namespace Sys2Proof.Claims

open Sys2Proof.Machine Sys2Proof.Safety

/-! ## Responses (R81) -/

/-- A response that carries only its status. -/
def only (st : Status) : Response := { status := st, res := 0, absent := false, dout := [] }

/-- OK with a scalar result. -/
def okRes (v : Word64) : Response := { status := .ok, res := v, absent := false, dout := [] }

/-- OK with a byte string. -/
def okBytes (b : List Byte) : Response := { status := .ok, res := 0, absent := false, dout := b }

/-- The outcome that leaves everything but the response port as it was. -/
def answers (s : State) (r : Response) : Out := .next { s with response := some r }

/-! ## Bytes in the packet buffer -/

/-- The n-byte little-endian image of a 64-bit value: byte i is bits 8i+7 to 8i (R7). -/
def leBytes (n : Nat) (v : Word64) : List Byte := (List.range n).map fun i => v.extractLsb' (8 * i) 8

/-- The buffer holds the byte string from an offset on. -/
def holdsAt (m : Memory) (off : Nat) (bs : List Byte) : Prop :=
  ∀ i, i < bs.length → m.read (off + i) = bs[i]?

/-- The two buffers read alike outside the window of n bytes at an offset. -/
def sameOutside (m m' : Memory) (off n : Nat) : Prop :=
  ∀ a, a < off ∨ off + n ≤ a → m'.read a = m.read a

/-- An operation that stored the byte string in a window of the packet buffer and did nothing else. -/
def stores (i : Instr) (s : State) (off : Nat) (bs : List Byte) : Prop :=
  ∃ buf, exec i s = answers { s with p := { s.p with buf := buf } } (only .ok) ∧
    holdsAt buf off bs ∧ sameOutside s.p.buf buf off bs.length

/-! ## The command word (R78, R79, R83), in numbers -/

/-- The operation has this command word, and the request that carries it is decoded to it. -/
def coded (i : Instr) (word : Nat) : Prop :=
  (encode i).cmd.toNat = word ∧ decode (encode i) = .ok i

/-- R79: the values of `OP` that are unassigned. -/
abbrev unassigned (op : Nat) : Prop :=
  op = 0x00 ∨ (0x07 ≤ op ∧ op ≤ 0x0F) ∨ (0x1D ≤ op ∧ op ≤ 0x1F) ∨ (0x24 ≤ op ∧ op ≤ 0x2F) ∨
    (0x32 ≤ op ∧ op ≤ 0x3F) ∨ (0x42 ≤ op ∧ op ≤ 0xFF)

/-- R79: the opcodes of format S: HDR.GET, CK.COMPUTE, CK.INIT. -/
abbrev formatS (op : Nat) : Prop := op = 0x06 ∨ op = 0x20 ∨ op = 0x21

/-- R79: the opcodes of format L: PKT.NEW, PKT.FROMBYTES, RX.ACCEPT. -/
abbrev formatL (op : Nat) : Prop := op = 0x10 ∨ op = 0x12 ∨ op = 0x41

/-- R83, on the fields of R78: an unassigned `OP`; a must-be-zero field of the format that is not zero;
a reserved policy code; a reserved selector of HDR.GET; Basic with a policy or a seed. -/
abbrev illegalFields (op sel wc kind seed : Nat) : Prop :=
  unassigned op ∨
    (¬formatS op ∧ ¬formatL op ∧ (sel ≠ 0 ∨ wc ≠ 0 ∨ kind ≠ 0 ∨ seed ≠ 0)) ∨
    (formatS op ∧ (wc ≠ 0 ∨ kind ≠ 0 ∨ seed ≠ 0)) ∨
    ((op = 0x12 ∨ op = 0x41) ∧ seed ≠ 0) ∨
    ((op = 0x20 ∨ op = 0x21 ∨ formatL op) ∧ 12 ≤ sel) ∨
    (op = 0x06 ∧ 11 ≤ sel) ∨
    (formatL op ∧ kind = 0 ∧ (sel ≠ 0 ∨ seed ≠ 0))

/-- R83: the illegal command words, by the bits of R78. -/
abbrev illegal (c : Word16) : Prop :=
  illegalFields (c.toNat % 256) (c.toNat / 256 % 16) (c.toNat / 4096 % 4) (c.toNat / 16384 % 2)
    (c.toNat / 32768)

/-- Every request with this command word, whatever its operands, ends with `E_ILLEGAL_OP` and changes
nothing. -/
def refusedWord (word : Nat) : Prop :=
  ∀ (s : State) (r : Request) (rest : List HostEvent), s.events = .request r :: rest →
    r.cmd.toNat = word → step s = answers { s with events := rest } (only .eIllegalOp)

/-! ## Fields of the header (R27, R70, R71) -/

/-- The 32-bit word view of H (R27), as a number. -/
def word32 (h : HeaderReg) : Nat := h.space.toNat + h.sender.toNat * 2 ^ 16 + h.receiver.toNat * 2 ^ 24

/-- Lowest bit and width of each field in the 32-bit word (R70, R71). -/
def fieldBits : HdrField → Nat × Nat
  | .space => (0, 16)
  | .type => (12, 4)
  | .version => (10, 2)
  | .encrypted => (9, 1)
  | .fragmented => (8, 1)
  | .priority => (5, 3)
  | .flags => (2, 3)
  | .validated => (1, 1)
  | .reserved => (0, 1)
  | .senderId => (16, 8)
  | .receiverId => (24, 8)

/-! ## Which operations read which context (R80), and what each may report (R231) -/

/-- The operations that read H (R80). -/
def readsHeader : Instr → Bool
  | .hdrEncode | .hdrSetRcv _ | .hdrGet _ | .pktNew _ _ _ _ _ _ | .pktSetHdr => true
  | _ => false

/-- The operations that read P (R80). -/
def readsPacket : Instr → Bool
  | .pktToBytes | .pktGetHdr | .pktSetHdr | .pktGetStat | .pktSetStat _ | .pktGetTask | .pktSetTask _
  | .pktGetPay | .pktSetPay _ | .pktGetFcs | .pktSetFcs _ | .valSeal | .valIsValid | .txPrep => true
  | _ => false

/-- The operations that read K (R80). -/
def readsStream : Instr → Bool
  | .ckUpdate _ | .ckFinal => true
  | _ => false

/-- The operations that write K (R20). -/
def writesStream : Instr → Bool
  | .ckInit _ | .ckUpdate _ | .ckFinal => true
  | _ => false

/-- R231, column "raised by": the statuses beside OK that an operation can report once its command word
is legal. -/
def mayReport : Instr → List Status
  | .hdrDecode _ => [.eOperandLength]
  | .hdrEncode => [.eNoObject]
  | .hdrRaw _ _ => [.eReceiverRange]
  | .hdrFields _ _ _ _ _ _ _ _ => [.eReceiverRange]
  | .hdrSetRcv _ => [.eNoObject, .eReceiverRange]
  | .hdrGet _ => [.eNoObject]
  | .pktNew _ _ _ _ _ _ =>
    [.eNoObject, .eCapacity, .eTooSmall, .eNotAligned, .eTaskIdRange, .eStatusRange,
      .ePayloadTooLarge, .eFcsRange]
  | .pktToBytes => [.eNoObject]
  | .pktFromBytes _ _ => [.eCapacity, .eTooSmall, .eNotAligned]
  | .pktGetHdr => [.eNoObject]
  | .pktSetHdr => [.eNoObject]
  | .pktGetStat => [.eNoObject]
  | .pktSetStat _ => [.eNoObject, .eStatusRange]
  | .pktGetTask => [.eNoObject]
  | .pktSetTask _ => [.eNoObject, .eTaskIdRange]
  | .pktGetPay => [.eNoObject]
  | .pktSetPay _ => [.eNoObject, .ePayloadTooLarge]
  | .pktGetFcs => [.eNoObject]
  | .pktSetFcs _ => [.eNoObject, .eFcsAbsent, .eFcsRange]
  | .ckCompute _ _ => []
  | .ckInit _ => []
  | .ckUpdate _ => [.eNoObject]
  | .ckFinal => [.eNoObject]
  | .valSeal => [.eNoObject]
  | .valIsValid => [.eNoObject]
  | .txPrep => [.eNoObject]
  | .rxAccept _ _ _ => [.noPacket, .eTooSmall, .eOperandLength, .eCapacity, .eNotAligned]

/-! ## Sizes (R130), in numbers -/

/-- W in bytes: 2^WC (R75). -/
def widthOf : TaskWidth → Nat
  | .w1 => 1 | .w2 => 2 | .w4 => 4 | .w8 => 8

/-- The field width of each policy (R77). -/
def policyWidth : Policy → Nat
  | .none => 0 | .sum8 => 1 | .sum16 => 2 | .sum32 => 4 | .crc8 => 1 | .crc16 => 2 | .crc32 => 4
  | .crc64 => 8 | .fletcher16 => 2 | .fletcher32 => 4 | .adler32 => 4 | .internet16 => 2

/-- F (R130). -/
def fOf (lay : Layout) : Nat := if lay.kind = .framed then policyWidth lay.policy else 0

/-- The byte string is the covered bytes of the packet (R210): everything before the checksum field. -/
def isCovered (p : Packet) (c : List Byte) : Prop :=
  c.length = p.n - fOf p.layout ∧ holdsAt p.buf 0 c

/-- The size is at most `PKT_MAX` (R5). -/
def withinMax (c : Params) (n : Nat) : Prop := ∀ m, c.pktMax = some m → n ≤ m

/-- R130, R131: a total size that both size checks accept. -/
def goodSize (c : Params) (lay : Layout) (n : Nat) : Prop :=
  5 + widthOf lay.width + fOf lay ≤ n ∧ n % c.wordUnit = 0

/-- The layout of a format L request that asks for the layout of a packet. -/
def layoutOf (lay : Layout) (p : Packet) : Prop :=
  lay.kind = p.kind ∧ lay.width = p.width ∧ (p.kind = .framed → lay.policy = p.policy)

/-- The operations that make a new packet (R30). -/
def makesPacket : Instr → Bool
  | .pktNew _ _ _ _ _ _ | .pktFromBytes _ _ | .rxAccept _ _ _ => true
  | _ => false

/-! ## Outcomes and sums -/

/-- Change the next state of an outcome. -/
def mapNext (f : State → State) : Out → Out
  | .next s => .next (f s)
  | .fault e => .fault e
  | .refused e => .refused e

/-- The sum of the bytes, each taken as a number. -/
def byteSum (s : List Byte) : Nat := (s.map fun x => x.toNat).sum

/-- The sum of the byte sums of all non-empty initial parts of the string. -/
def prefixSums : List Byte → Nat
  | [] => 0
  | x :: s => (s.length + 1) * x.toNat + prefixSums s

/-- The sum of the big-endian 16-bit words of a byte string, an odd last byte being the high byte of a
word whose low byte is 0 (R53, R173). -/
def wordSum : List Byte → Nat
  | [] => 0
  | [x] => 256 * x.toNat
  | x :: y :: s => 256 * x.toNat + y.toNat + wordSum s

/-- The nine bytes "123456789" (R189). -/
def digits : List Byte := [0x31, 0x32, 0x33, 0x34, 0x35, 0x36, 0x37, 0x38, 0x39]

end Sys2Proof.Claims

open Sys2Proof Sys2Proof.Machine Sys2Proof.Safety Sys2Proof.Claims

/-! # The command word -/

/-- R78 to R80: the request that `encode` writes for a well-formed operation is decoded to that
operation, with every modifier and operand. -/
def Obligations.DecodeOfEncode : Prop :=
  ∀ i : Instr, i.wf = true → decode (encode i) = .ok i

/-- R78, R79: what a legal request is decoded to is well-formed and has that command word, so a
command word stands for one operation only. -/
def Obligations.EncodeOfDecode : Prop :=
  ∀ (r : Request) (i : Instr), decode r = .ok i → i.wf = true ∧ (encode i).cmd = r.cmd

/-- Sample words of 95_test_vectors.md, one for each group: the decoder reads the operation, and its
operands from their ports. -/
def Obligations.SampleWordsDecode : Prop :=
  (∀ v rcv : Word16, decode { cmd := 0x0003, raw16 := v, receiverId := rcv } =
      .ok (.hdrRaw v rcv)) ∧
  decode { cmd := 0x0906 } = .ok (.hdrGet .senderId) ∧
  (∀ (n : BitVec 32) (t : Word64) (st : Word16) (b : List Byte),
    decode { cmd := 0x5510, n := n, taskId := t, status := st, din := b } =
      .ok (.pktNew ⟨.framed, .w2, .crc16⟩ n t st none b)) ∧
  (∀ b : List Byte, decode { cmd := 0x0B21, din := b } = .ok (.ckInit .internet16)) ∧
  decode { cmd := 0x0031 } = .ok .valIsValid ∧
  (∀ (n : BitVec 32) (b : List Byte), decode { cmd := 0x5541, n := n, din := b } =
      .ok (.rxAccept ⟨.framed, .w2, .crc16⟩ n b))

/-- R83: a request whose command word is illegal ends with `E_ILLEGAL_OP` and changes no state,
whatever its operands are; every other command word is one of the 27 operations. -/
def Obligations.IllegalWordsAreRefused : Prop :=
  ∀ (s : State) (r : Request) (rest : List HostEvent), s.events = .request r :: rest →
    (illegal r.cmd → step s = answers { s with events := rest } (only .eIllegalOp)) ∧
    (¬illegal r.cmd → ∃ i : Instr, i.wf = true ∧ decode r = .ok i)

/-! # The step, reset and the whole machine -/

/-- R4, R34: when the host's next event is a request that decodes to an operation, one step is that
operation on the state whose script is what comes after the request, and everything else as it was. -/
def Obligations.StepRunsDecodedOperation : Prop :=
  ∀ (s : State) (r : Request) (rest : List HostEvent) (i : Instr),
    s.events = .request r :: rest → decode r = .ok i → step s = exec i { s with events := rest }

/-- R36, R260 to R262: a reset event latches the two inputs and clears the three valid bits.  The
MODEL's choices in it (assumption log 4): that the response port is then empty, that the script and the
parameters stay, and that with nothing from the host a step changes nothing (R240 says only that the
block never acts by itself). -/
def Obligations.ResetAndIdleSteps : Prop :=
  (∀ (s : State) (v : BitVec 2) (b : Byte) (rest : List HostEvent), s.events = .reset v b :: rest →
    ∃ t, step s = .next t ∧ t.cfg.version = v ∧ t.cfg.boardId = b ∧ t.h.valid = false ∧
      t.p.valid = false ∧ t.k.active = false ∧ t.params = s.params ∧ t.events = rest ∧
      t.response = none) ∧
  ∀ s : State, s.events = [] → step s = .next s

/-- R261 (and R24, R264): a reset latches the sampled inputs; no operation, with any operand, and no
other step changes the locked configuration; and no step at all changes the instance's parameters. -/
def Obligations.OnlyResetWritesConfiguration : Prop :=
  (∀ (i : Instr) (s t : State), exec i s = .next t → t.cfg = s.cfg ∧ t.params = s.params) ∧
  ∀ s t : State, step s = .next t → t.params = s.params ∧
    (∀ v b rest, s.events = .reset v b :: rest → t.cfg = ⟨v, b⟩) ∧
    ((∀ v b rest, s.events ≠ .reset v b :: rest) → t.cfg = s.cfg)

/-- R30, R32: the invariant of the reachable states is kept by every step, from every state that has
it: the packet's size and image, the bounds of the checksum accumulators, the buffer's canonical
form. -/
def Obligations.StepKeepsInvariant : Prop :=
  ∀ s t : State, Inv s → step s = .next t → Inv t

/-- R36, R263: the state after reset has the invariant, for all inputs and all legal parameters, and so
has the model's own reset state, whose inputs and parameters are the model's choice (assumption log 2
and 3). -/
def Obligations.ResetHasInvariant : Prop :=
  (∀ (c : Params) (v : BitVec 2) (b : Byte), c.wf = true → Inv (State.resetWith c v b)) ∧
    Inv State.reset

/-- R230, R239, R271: in every state with the invariant a step ends in a next state, and a request is
always responded to: no sequence of requests brings the block to a state from which it does not
respond. -/
def Obligations.EveryRequestIsAnswered : Prop :=
  ∀ s : State, Inv s → ∃ t, step s = .next t ∧
    ∀ r rest, s.events = .request r :: rest → t.events = rest ∧ ∃ a, t.response = some a

/-- R238, R236: a request whose response is not OK writes no element of architectural state, and the
response carries the status and nothing else. -/
def Obligations.ErrorsChangeNothing : Prop :=
  ∀ (s t : State) (r : Request) (rest : List HostEvent) (a : Response),
    s.events = .request r :: rest → step s = .next t → t.response = some a → a.status ≠ .ok →
      t = { s with events := rest, response := some (only a.status) }

/-- R230, R231: every operation ends with OK, or with a status that the table of R231 says it can
raise; NO_PACKET is RX.ACCEPT's alone. -/
def Obligations.StatusesAsTabled : Prop :=
  ∀ (i : Instr) (s t : State), exec i s = .next t →
    ∃ a, t.response = some a ∧ (a.status = .ok ∨ a.status ∈ mayReport i)

/-- R36, R26, R30, U10, U11: no operation can return an unspecified value: two states that differ only
in the content of contexts whose valid bit is 0 (and in a Basic packet's policy, R147) step to outcomes
that differ only so; in particular the responses are equal. -/
def Obligations.UnspecifiedContentIsInvisible : Prop :=
  ∀ s t : State, SameObservable s t → SameOutcome (step s) (step t)

/-- R26, R30, R192, R193: an operation that reads a context whose valid bit is 0 ends with
`E_NO_OBJECT`. -/
def Obligations.EmptyContextIsNoObject : Prop :=
  ∀ (i : Instr) (s : State),
    (readsHeader i = true ∧ s.h.valid = false) ∨ (readsPacket i = true ∧ s.p.valid = false) ∨
      (readsStream i = true ∧ s.k.active = false) →
    exec i s = answers s (only .eNoObject)

/-- R231, R232: the numbers of the statuses; exactly the LayoutErrors are 0x10 to 0x15. -/
def Obligations.StatusNumbers : Prop :=
  (∀ st ∈ [(Status.ok, 0x00), (.noPacket, 0x01), (.eTooSmall, 0x10), (.eNotAligned, 0x11),
      (.eTaskIdRange, 0x12), (.eStatusRange, 0x13), (.ePayloadTooLarge, 0x14), (.eFcsRange, 0x15),
      (.eFcsAbsent, 0x20), (.eReceiverRange, 0x21), (.eIllegalOp, 0x30), (.eNoObject, 0x31),
      (.eOperandLength, 0x32), (.eCapacity, 0x33)], (statusCode st.1).toNat = st.2) ∧
  (∀ st : Status, isLayoutError st = true ↔
    0x10 ≤ (statusCode st).toNat ∧ (statusCode st).toNat ≤ 0x15)

/-! # Header codec -/

/-- R104, R102: HDR.DECODE loads H with the four bytes, byte-exact, and nothing else changes; a byte
string of another length is `E_OPERAND_LENGTH`. -/
def Obligations.HdrDecodeLoadsTheBytes : Prop :=
  ∀ s : State,
    (∀ din : List Byte, coded (.hdrDecode din) 0x0001) ∧
    (∀ b0 b1 b2 b3 : Byte, ∃ sp : Word16, sp.toNat = b0.toNat + 256 * b1.toNat ∧
      exec (.hdrDecode [b0, b1, b2, b3]) s = answers { s with h := ⟨true, sp, b2, b3⟩ } (only .ok)) ∧
    (∀ din : List Byte, din.length ≠ 4 → exec (.hdrDecode din) s = answers s (only .eOperandLength))

/-- R105, R101: HDR.ENCODE returns the 4-byte little-endian image of the 32-bit header and changes
nothing. -/
def Obligations.HdrEncodeReturnsTheImage : Prop :=
  coded .hdrEncode 0x0002 ∧
  ∀ s : State,
    (s.h.valid = true → ∃ b : List Byte, b.length = 4 ∧ unLE b = word32 s.h ∧
      exec .hdrEncode s = answers s (okBytes b)) ∧
    (s.h.valid = false → exec .hdrEncode s = answers s (only .eNoObject))

/-- R103: decoding and encoding are mutually inverse, in both orders, on the machine. -/
def Obligations.HeaderRoundTrip : Prop :=
  (∀ (s : State) (b0 b1 b2 b3 : Byte), ∃ t, exec (.hdrDecode [b0, b1, b2, b3]) s = .next t ∧
    exec .hdrEncode t = answers t (okBytes [b0, b1, b2, b3])) ∧
  (∀ s : State, s.h.valid = true → ∃ b, exec .hdrEncode s = answers s (okBytes b) ∧
    exec (.hdrDecode b) s = answers s (only .ok))

/-- R106: HDR.RAW keeps every bit of `raw16` but bits 11:10, which become the locked version, stamps
the locked board id, and refuses a receiver above 255. -/
def Obligations.HdrRawStampsTheLock : Prop :=
  ∀ (s : State) (raw16 rcv : Word16),
    coded (.hdrRaw raw16 rcv) 0x0003 ∧
    (rcv.toNat ≤ 255 → ∃ sp : Word16,
      (∀ j, j < 16 → j ≠ 10 → j ≠ 11 → sp.getLsbD j = raw16.getLsbD j) ∧
      sp.extractLsb' 10 2 = s.cfg.version ∧
      exec (.hdrRaw raw16 rcv) s =
        answers { s with h := ⟨true, sp, s.cfg.boardId, rcv.extractLsb' 0 8⟩ } (only .ok)) ∧
    (255 < rcv.toNat → exec (.hdrRaw raw16 rcv) s = answers s (only .eReceiverRange))

/-- R107, R100: HDR.FIELDS builds the space word field by field: priority and flags cut to their low 3
bits, the version always the locked one; the sender is the locked board id; a receiver above 255 is
refused. -/
def Obligations.HdrFieldsBuildsTheHeader : Prop :=
  ∀ (s : State) (type : BitVec 4) (enc frag : BitVec 1) (prio flags : BitVec 8) (val res : BitVec 1)
    (rcv : Word16),
    coded (.hdrFields type enc frag prio flags val res rcv) 0x0004 ∧
    (rcv.toNat ≤ 255 → ∃ sp : Word16,
      sp.extractLsb' 12 4 = type ∧ sp.extractLsb' 10 2 = s.cfg.version ∧
      sp.extractLsb' 9 1 = enc ∧ sp.extractLsb' 8 1 = frag ∧
      sp.extractLsb' 5 3 = prio.extractLsb' 0 3 ∧ sp.extractLsb' 2 3 = flags.extractLsb' 0 3 ∧
      sp.extractLsb' 1 1 = val ∧ sp.extractLsb' 0 1 = res ∧
      exec (.hdrFields type enc frag prio flags val res rcv) s =
        answers { s with h := ⟨true, sp, s.cfg.boardId, rcv.extractLsb' 0 8⟩ } (only .ok)) ∧
    (255 < rcv.toNat →
      exec (.hdrFields type enc frag prio flags val res rcv) s = answers s (only .eReceiverRange))

/-- R108: HDR.SETRCV replaces the receiver alone, accepts 0 to 255 and refuses more. -/
def Obligations.HdrSetRcvReplacesTheReceiver : Prop :=
  ∀ (s : State) (rcv : Word16),
    coded (.hdrSetRcv rcv) 0x0005 ∧
    (s.h.valid = false → exec (.hdrSetRcv rcv) s = answers s (only .eNoObject)) ∧
    (s.h.valid = true → rcv.toNat ≤ 255 → exec (.hdrSetRcv rcv) s =
      answers { s with h := { s.h with receiver := rcv.extractLsb' 0 8 } } (only .ok)) ∧
    (s.h.valid = true → 255 < rcv.toNat →
      exec (.hdrSetRcv rcv) s = answers s (only .eReceiverRange))

/-- R109, R27, R71, R88: HDR.GET returns the selected field of the 32-bit header, zero-extended, and
changes nothing; the eleven selectors are 0 to 10, and 11 to 15 are illegal. -/
def Obligations.HdrGetReturnsTheField : Prop :=
  (∀ sel, 11 ≤ sel → sel ≤ 15 → refusedWord (0x0006 + 256 * sel)) ∧
  ∀ (s : State) (f : HdrField),
    coded (.hdrGet f) (0x0006 + 256 * (fieldCode f).toNat) ∧
    (s.h.valid = true → ∃ v : Word64,
      v.toNat = word32 s.h / 2 ^ (fieldBits f).1 % 2 ^ (fieldBits f).2 ∧
      exec (.hdrGet f) s = answers s (okRes v)) ∧
    (s.h.valid = false → exec (.hdrGet f) s = answers s (only .eNoObject))

/-- R110, R111: the lock, over all operations.  A constructor that succeeds leaves the locked version
and sender in H, HDR.SETRCV keeps both, HDR.DECODE and PKT.GETHDR that succeed load exactly the bytes of
a whole header, and every other end of an operation leaves H as it was. -/
def Obligations.OnlyWholeLoadsWriteTheLock : Prop :=
  ∀ (i : Instr) (s t : State), exec i s = .next t →
    match i with
    | .hdrDecode din =>
        if t.response = some (only .ok) then
          din = hdrBytes t.h.space t.h.sender t.h.receiver ∧ t.h.valid = true
        else t.h = s.h
    | .pktGetHdr =>
        if t.response = some (only .ok) then
          holdsAt s.p.buf 0 (hdrBytes t.h.space t.h.sender t.h.receiver) ∧ t.h.valid = true
        else t.h = s.h
    | .hdrRaw _ _ | .hdrFields _ _ _ _ _ _ _ _ =>
        if t.response = some (only .ok) then
          t.h.space.extractLsb' 10 2 = s.cfg.version ∧ t.h.sender = s.cfg.boardId ∧ t.h.valid = true
        else t.h = s.h
    | .hdrSetRcv _ => t.h.space = s.h.space ∧ t.h.sender = s.h.sender ∧ t.h.valid = s.h.valid
    | _ => t.h = s.h

/-! # Packet layout engine -/

/-- R132, R237: the checks of PKT.NEW, in order: the first that applies is reported, and nothing
changes. -/
def Obligations.NewReportsTheFirstError : Prop :=
  ∀ (s : State) (lay : Layout) (n : BitVec 32) (task : Word64) (st : Word16) (seed : Option Word64)
    (pay : List Byte),
    let e := exec (.pktNew lay n task st seed pay) s
    let w := widthOf lay.width
    let f := fOf lay
    (s.h.valid = false → e = answers s (only .eNoObject)) ∧
    (s.h.valid = true →
      (¬withinMax s.params n.toNat → e = answers s (only .eCapacity)) ∧
      (withinMax s.params n.toNat →
        (n.toNat < 5 + w + f → e = answers s (only .eTooSmall)) ∧
        (5 + w + f ≤ n.toNat →
          (n.toNat % s.params.wordUnit ≠ 0 → e = answers s (only .eNotAligned)) ∧
          (n.toNat % s.params.wordUnit = 0 →
            (2 ^ (8 * w) ≤ task.toNat → e = answers s (only .eTaskIdRange)) ∧
            (task.toNat < 2 ^ (8 * w) →
              (255 < st.toNat → e = answers s (only .eStatusRange)) ∧
              (st.toNat ≤ 255 →
                (n.toNat - (5 + w + f) < pay.length → e = answers s (only .ePayloadTooLarge)) ∧
                (pay.length ≤ n.toNat - (5 + w + f) → ∀ v, seed = some v → 0 < f →
                  2 ^ (8 * f) ≤ v.toNat → e = answers s (only .eFcsRange))))))))

/-- R132, R56, R73, R74: a PKT.NEW that passes its checks replaces P by the packet whose image is, in
order, the header in H, the status, the task id, the payload padded with zeros to the payload field,
and the seed or 0 in the checksum field; no byte is beyond N. -/
def Obligations.NewBuildsThePacket : Prop :=
  ∀ (s : State) (lay : Layout) (n : BitVec 32) (task : Word64) (st : Word16) (seed : Option Word64)
    (pay : List Byte),
    let w := widthOf lay.width
    let f := fOf lay
    s.h.valid = true → withinMax s.params n.toNat → goodSize s.params lay n.toNat →
    task.toNat < 2 ^ (8 * w) → st.toNat ≤ 255 → pay.length ≤ n.toNat - (5 + w + f) →
    (∀ v, seed = some v → 0 < f → v.toNat < 2 ^ (8 * f)) →
    ∃ pol buf,
      exec (.pktNew lay n task st seed pay) s =
        answers { s with p := ⟨true, lay.kind, n.toNat, lay.width, pol, buf⟩ } (only .ok) ∧
      (lay.kind = .framed → pol = lay.policy) ∧
      holdsAt buf 0 (hdrBytes s.h.space s.h.sender s.h.receiver) ∧
      buf.read 4 = some (st.extractLsb' 0 8) ∧
      holdsAt buf 5 (leBytes w task) ∧
      holdsAt buf (5 + w) pay ∧
      (∀ a, 5 + w + pay.length ≤ a → a < n.toNat - f → buf.read a = some 0) ∧
      holdsAt buf (n.toNat - f) (leBytes f (seed.getD 0)) ∧
      (∀ a, n.toNat ≤ a → buf.read a = none)

/-- R133: PKT.TOBYTES returns the N bytes of the buffer in offset order and changes nothing. -/
def Obligations.ToBytesReturnsTheImage : Prop :=
  coded .pktToBytes 0x0011 ∧
  ∀ s : State,
    (Inv s → s.p.valid = true → ∃ b : List Byte, b.length = s.p.n ∧ holdsAt s.p.buf 0 b ∧
      exec .pktToBytes s = answers s (okBytes b)) ∧
    (s.p.valid = false → exec .pktToBytes s = answers s (only .eNoObject))

/-- R134, R131: PKT.FROMBYTES copies the bytes into P with the layout it is given, whatever they are;
capacity, minimum and alignment are checked in that order and then nothing changes. -/
def Obligations.FromBytesCopiesTheImage : Prop :=
  ∀ (s : State) (lay : Layout) (raw : List Byte),
    (withinMax s.params raw.length → goodSize s.params lay raw.length →
      ∃ pol buf, exec (.pktFromBytes lay raw) s =
          answers { s with p := ⟨true, lay.kind, raw.length, lay.width, pol, buf⟩ } (only .ok) ∧
        (lay.kind = .framed → pol = lay.policy) ∧ ∀ a, buf.read a = raw[a]?) ∧
    (¬withinMax s.params raw.length → exec (.pktFromBytes lay raw) s = answers s (only .eCapacity)) ∧
    (withinMax s.params raw.length → raw.length < 5 + widthOf lay.width + fOf lay →
      exec (.pktFromBytes lay raw) s = answers s (only .eTooSmall)) ∧
    (withinMax s.params raw.length → 5 + widthOf lay.width + fOf lay ≤ raw.length →
      raw.length % s.params.wordUnit ≠ 0 →
      exec (.pktFromBytes lay raw) s = answers s (only .eNotAligned))

/-- R145, R147: PKT.TOBYTES followed by PKT.FROMBYTES with the same layout yields an equal packet, on
this or any other instance with the same parameters; and PKT.TOBYTES returns what PKT.FROMBYTES
accepted. -/
def Obligations.PacketRoundTrip : Prop :=
  (∀ s : State, Inv s → s.p.valid = true → ∃ b, exec .pktToBytes s = answers s (okBytes b) ∧
    ∀ (t : State) (lay : Layout), t.params = s.params → layoutOf lay s.p →
      ∃ q, exec (.pktFromBytes lay b) t = answers { t with p := q } (only .ok) ∧ SamePacket s.p q) ∧
  (∀ (s t : State) (lay : Layout) (raw : List Byte), exec (.pktFromBytes lay raw) s = .next t →
    t.response = some (only .ok) → exec .pktToBytes t = answers t (okBytes raw))

/-- R146: for every size and layout that the checks accept the payload field has exactly
N − 4 − 1 − W − F bytes; for every other, no packet comes into being and the status is a LayoutError.
For each of the three operations that make a packet: parsing, receiving, building. -/
def Obligations.SizeLaw : Prop :=
  (∀ (s : State) (lay : Layout) (raw : List Byte), withinMax s.params raw.length →
    (goodSize s.params lay raw.length → ∃ t, exec (.pktFromBytes lay raw) s = .next t ∧
      t.response = some (only .ok)) ∧
    (¬goodSize s.params lay raw.length → ∃ st, isLayoutError st = true ∧
      exec (.pktFromBytes lay raw) s = answers s (only st) ∧
      ∀ n : BitVec 32, n.toNat = raw.length →
        exec (.rxAccept lay n raw) s = answers s (only st))) ∧
  (∀ (s : State) (lay : Layout) (n : BitVec 32) (task : Word64) (st : Word16) (seed : Option Word64)
    (pay : List Byte), s.h.valid = true → withinMax s.params n.toNat →
    ¬goodSize s.params lay n.toNat → ∃ e, isLayoutError e = true ∧
      exec (.pktNew lay n task st seed pay) s = answers s (only e)) ∧
  ∀ (i : Instr) (s t : State), makesPacket i = true → exec i s = .next t →
    t.response = some (only .ok) → ∃ b, exec .pktGetPay t = answers t (okBytes b) ∧
      b.length + 4 + 1 + widthOf t.p.width + fOf t.p.layout = t.p.n

/-- R135: PKT.GETHDR loads H with the first four bytes of the buffer, byte-exact, and changes nothing
else. -/
def Obligations.GetHdrLoadsTheHeader : Prop :=
  coded .pktGetHdr 0x0013 ∧
  ∀ s : State,
    (Inv s → s.p.valid = true → ∃ sp : Word16, ∃ snd rcv : Byte,
      holdsAt s.p.buf 0 [sp.extractLsb' 0 8, sp.extractLsb' 8 8, snd, rcv] ∧
      exec .pktGetHdr s = answers { s with h := ⟨true, sp, snd, rcv⟩ } (only .ok)) ∧
    (s.p.valid = false → exec .pktGetHdr s = answers s (only .eNoObject))

/-- R136, R59: PKT.SETHDR stores the four bytes of H at offset 0 and touches no other byte, the checksum
field included. -/
def Obligations.SetHdrStoresTheHeader : Prop :=
  coded .pktSetHdr 0x0014 ∧
  ∀ s : State,
    (Inv s → s.h.valid = true → s.p.valid = true →
      stores .pktSetHdr s 0
        [s.h.space.extractLsb' 0 8, s.h.space.extractLsb' 8 8, s.h.sender, s.h.receiver]) ∧
    (s.h.valid = false ∨ s.p.valid = false →
      exec .pktSetHdr s = answers s (only .eNoObject))

/-- R137, R139: PKT.GETSTAT and PKT.GETTASK return the little-endian value of their windows and change
nothing. -/
def Obligations.GetStatAndTaskReturnTheFields : Prop :=
  coded .pktGetStat 0x0015 ∧ coded .pktGetTask 0x0017 ∧
  ∀ s : State,
    (Inv s → s.p.valid = true →
      (∃ v : Word64, v.toNat < 2 ^ 8 ∧ holdsAt s.p.buf 4 (leBytes 1 v) ∧
        exec .pktGetStat s = answers s (okRes v)) ∧
      (∃ v : Word64, v.toNat < 2 ^ (8 * widthOf s.p.width) ∧
        holdsAt s.p.buf 5 (leBytes (widthOf s.p.width) v) ∧
        exec .pktGetTask s = answers s (okRes v))) ∧
    (s.p.valid = false → exec .pktGetStat s = answers s (only .eNoObject) ∧
      exec .pktGetTask s = answers s (only .eNoObject))

/-- R138, R59: PKT.SETSTAT stores one byte at offset 4 and touches no other byte; a status above 255 is
refused. -/
def Obligations.SetStatStoresTheStatus : Prop :=
  ∀ (s : State) (st : Word16),
    coded (.pktSetStat st) 0x0016 ∧
    (s.p.valid = false → exec (.pktSetStat st) s = answers s (only .eNoObject)) ∧
    (s.p.valid = true → Inv s → st.toNat ≤ 255 →
      stores (.pktSetStat st) s 4 [st.extractLsb' 0 8]) ∧
    (s.p.valid = true → 255 < st.toNat →
      exec (.pktSetStat st) s = answers s (only .eStatusRange))

/-- R140, R59: PKT.SETTASK stores the W little-endian bytes of the task id at offset 5 and touches no
other byte; a task id that does not fit W bytes is refused. -/
def Obligations.SetTaskStoresTheTaskId : Prop :=
  ∀ (s : State) (task : Word64),
    coded (.pktSetTask task) 0x0018 ∧
    (s.p.valid = false → exec (.pktSetTask task) s = answers s (only .eNoObject)) ∧
    (s.p.valid = true → Inv s → task.toNat < 2 ^ (8 * widthOf s.p.width) →
      stores (.pktSetTask task) s 5 (leBytes (widthOf s.p.width) task)) ∧
    (s.p.valid = true → 2 ^ (8 * widthOf s.p.width) ≤ task.toNat →
      exec (.pktSetTask task) s = answers s (only .eTaskIdRange))

/-- R141, R142, R59: PKT.GETPAY returns the whole payload field, N − 5 − W − F bytes; PKT.SETPAY replaces
the whole field, zeros after what it was given, touches no other byte, and refuses a longer payload. -/
def Obligations.PayloadFieldReadAndWrite : Prop :=
  ∀ s : State,
    let off := 5 + widthOf s.p.width
    let cap := s.p.n - off - fOf s.p.layout
    coded .pktGetPay 0x0019 ∧ (∀ pay, coded (.pktSetPay pay) 0x001A) ∧
    (s.p.valid = false → exec .pktGetPay s = answers s (only .eNoObject) ∧
      ∀ pay, exec (.pktSetPay pay) s = answers s (only .eNoObject)) ∧
    (Inv s → s.p.valid = true →
      (∃ b : List Byte, b.length = cap ∧ holdsAt s.p.buf off b ∧
        exec .pktGetPay s = answers s (okBytes b)) ∧
      ∀ pay : List Byte,
        (pay.length ≤ cap →
          stores (.pktSetPay pay) s off (pay ++ List.replicate (cap - pay.length) 0)) ∧
        (cap < pay.length → exec (.pktSetPay pay) s = answers s (only .ePayloadTooLarge)))

/-- R143: PKT.GETFCS returns the last F bytes as a little-endian value, or says that the field is absent
when F = 0, and changes nothing. -/
def Obligations.GetFcsReturnsTheField : Prop :=
  coded .pktGetFcs 0x001B ∧
  ∀ s : State,
    (s.p.valid = false → exec .pktGetFcs s = answers s (only .eNoObject)) ∧
    (s.p.valid = true → fOf s.p.layout = 0 → exec .pktGetFcs s =
      answers s { status := .ok, res := 0, absent := true, dout := [] }) ∧
    (Inv s → s.p.valid = true → 0 < fOf s.p.layout →
      ∃ v : Word64, v.toNat < 2 ^ (8 * fOf s.p.layout) ∧
        holdsAt s.p.buf (s.p.n - fOf s.p.layout) (leBytes (fOf s.p.layout) v) ∧
        exec .pktGetFcs s = answers s (okRes v))

/-- R144, R233, R59: PKT.SETFCS stores F little-endian bytes at offset N − F and touches no other byte;
with F = 0 every value is `E_FCS_ABSENT`; a value that does not fit is `E_FCS_RANGE`. -/
def Obligations.SetFcsStoresTheChecksum : Prop :=
  ∀ (s : State) (v : Word64),
    coded (.pktSetFcs v) 0x001C ∧
    (s.p.valid = false → exec (.pktSetFcs v) s = answers s (only .eNoObject)) ∧
    (s.p.valid = true → fOf s.p.layout = 0 →
      exec (.pktSetFcs v) s = answers s (only .eFcsAbsent)) ∧
    (s.p.valid = true → 0 < fOf s.p.layout → 2 ^ (8 * fOf s.p.layout) ≤ v.toNat →
      exec (.pktSetFcs v) s = answers s (only .eFcsRange)) ∧
    (s.p.valid = true → Inv s → 0 < fOf s.p.layout → v.toNat < 2 ^ (8 * fOf s.p.layout) →
      stores (.pktSetFcs v) s (s.p.n - fOf s.p.layout) (leBytes (fOf s.p.layout) v))

/-! # Checksum engine -/

/-- R188, R189: the values of the empty string, all twelve, and the check values for "123456789", as
CK.COMPUTE returns them in every state. -/
def Obligations.KnownChecksumValues : Prop :=
  (∀ (s : State) (p : Policy), exec (.ckCompute p []) s =
    answers s (okRes (if p = .adler32 then 1 else if p = .internet16 then 0xFFFF else 0))) ∧
  ∀ s : State, ∀ e ∈ [(Policy.sum8, 0xDD), (.sum16, 0x01DD), (.sum32, 0x1DD), (.crc8, 0xF4),
      (.crc16, 0x31C3), (.crc32, 0xCBF43926), (.crc64, 0x6C40DF5F0B497347), (.fletcher16, 0x1EDE),
      (.fletcher32, 0x09DF09D5), (.adler32, 0x091E01DE), (.internet16, 0xF62A)],
    exec (.ckCompute e.1 digits) s = answers s (okRes e.2)

/-- R190, R187: CK.COMPUTE returns the checksum of its byte string, in every state, and changes nothing;
the value fits the policy's field; the selectors 12 to 15 are illegal. -/
def Obligations.ComputeReturnsAFittingChecksum : Prop :=
  (∀ sel, 12 ≤ sel → sel ≤ 15 → refusedWord (0x0020 + 256 * sel)) ∧
  ∀ (s : State) (p : Policy) (b : List Byte),
    coded (.ckCompute p b) (0x0020 + 256 * (policyCode p).toNat) ∧
    exec (.ckCompute p b) s = answers s (okRes (compute p b)) ∧
    (compute p b).toNat < 2 ^ (8 * policyWidth p)

/-- R175 to R178: `none` is always 0, and a sum is the sum of all bytes, one at a time, reduced modulo
2^8, 2^16, 2^32. -/
def Obligations.SumsAddTheBytes : Prop :=
  ∀ b : List Byte, (compute .none b).toNat = 0 ∧ (compute .sum8 b).toNat = byteSum b % 2 ^ 8 ∧
    (compute .sum16 b).toNat = byteSum b % 2 ^ 16 ∧ (compute .sum32 b).toNat = byteSum b % 2 ^ 32

/-- R183, R185: the two running sums of fletcher16 and adler32 in closed form: the second sum adds the
updated first sum, so it weighs each byte by how many bytes follow it, itself included. -/
def Obligations.RunningSumsInClosedForm : Prop :=
  ∀ b : List Byte,
    (compute .fletcher16 b).toNat = prefixSums b % 255 * 2 ^ 8 + byteSum b % 255 ∧
    (compute .adler32 b).toNat =
      (b.length + prefixSums b) % 65521 * 2 ^ 16 + (1 + byteSum b) % 65521

/-- R186: internet16 is the complement of the one's-complement sum of the big-endian words, which is 0
only if every word is 0 and is otherwise the residue of the plain sum in 1 to 0xFFFF: folding once at
the end gives what folding after every word gives. -/
def Obligations.InternetChecksumInClosedForm : Prop :=
  ∀ b : List Byte, (compute .internet16 b).toNat =
    65535 - (if wordSum b = 0 then 0 else (wordSum b - 1) % 65535 + 1)

/-- R181: crc32 in its external form: a running value that starts at 0 and is complemented on entry to
and on exit from each chunk gives the same value, however the string is cut. -/
def Obligations.Crc32ExternalForm : Prop :=
  ∀ chunks : List (List Byte),
    chunks.foldl (fun v c =>
      (c.foldl (crcStepLsb 0xEDB88320) (v ^^^ 0xFFFFFFFF)) ^^^ 0xFFFFFFFF) (0 : BitVec 32) =
      (compute .crc32 chunks.flatten).setWidth 32

/-- R191: CK.INIT starts a computation, whatever K held: the registers of the policy, nothing pending.
Nothing else changes.  The selectors 12 to 15 are illegal. -/
def Obligations.InitStartsTheStream : Prop :=
  (∀ sel, 12 ≤ sel → sel ≤ 15 → refusedWord (0x0021 + 256 * sel)) ∧
  ∀ (s : State) (p : Policy),
    coded (.ckInit p) (0x0021 + 256 * (policyCode p).toNat) ∧
    exec (.ckInit p) s =
      answers { s with k := ⟨true, p,
        ⟨if p = .crc32 then 0xFFFFFFFF else if p = .adler32 then 1 else 0, 0, false, 0⟩⟩ } (only .ok)

/-- R192: CK.UPDATE consumes the chunk byte by byte, first byte first, and changes K's accumulators
alone; an empty chunk changes nothing. -/
def Obligations.UpdateConsumesTheChunk : Prop :=
  ∀ (s : State) (c : List Byte),
    coded (.ckUpdate c) 0x0022 ∧
    (s.k.active = false → exec (.ckUpdate c) s = answers s (only .eNoObject)) ∧
    (s.k.active = true → exec (.ckUpdate c) s =
      answers { s with k := { s.k with acc := c.foldl (absorb s.k.policy) s.k.acc } } (only .ok)) ∧
    (s.k.active = true → exec (.ckUpdate []) s = answers s (only .ok))

/-- R192, R173: under a word-serial policy a chunk of odd length toggles `K.pv` and one of even length
does not, and when a byte is left pending it is the last of the chunk. -/
def Obligations.OddChunkTogglesPending : Prop :=
  ∀ (s : State) (c : List Byte), s.k.active = true → wordSerial s.k.policy = true →
    ∃ t, exec (.ckUpdate c) s = .next t ∧
      (c.length % 2 = 0 → t.k.acc.pv = s.k.acc.pv) ∧
      (c.length % 2 = 1 → t.k.acc.pv = !s.k.acc.pv) ∧
      (∀ x, c.getLast? = some x → t.k.acc.pv = true → t.k.acc.pend = x)

/-- R193, R173: CK.FINAL returns the value of the registers, an odd pending byte being flushed on a copy
as the high byte of a last word, ends the computation, and changes `K.active` alone; without a
computation, and so after another CK.FINAL, it is `E_NO_OBJECT`. -/
def Obligations.FinalEndsTheStream : Prop :=
  coded .ckFinal 0x0023 ∧
  ∀ s : State,
    (s.k.active = false → exec .ckFinal s = answers s (only .eNoObject)) ∧
    (s.k.active = true → ∃ v : Word64,
      exec .ckFinal s = answers { s with k := { s.k with active := false } } (okRes v) ∧
      (wordSerial s.k.policy = true → s.k.acc.pv = true →
        v = ckValue s.k.policy (absorb s.k.policy s.k.acc 0)) ∧
      ((wordSerial s.k.policy = false ∨ s.k.acc.pv = false) → v = ckValue s.k.policy s.k.acc))

/-- R172, R87: chunk invariance on the machine.  CK.INIT, a CK.UPDATE for each chunk of any cut of a
string, CK.FINAL end with the response that CK.COMPUTE gives for the string; only K differs after. -/
def Obligations.ChunkInvariance : Prop :=
  ∀ (s : State) (p : Policy) (chunks : List (List Byte)), ∃ (v : Word64) (k : Stream),
    exec (.ckCompute p chunks.flatten) s = answers s (okRes v) ∧
    execAll (expandPseudo (.ckStream p chunks)) s = answers { s with k := k } (okRes v) ∧
    k.active = false

/-- R194, R219: K belongs to CK.INIT, CK.UPDATE and CK.FINAL: every other operation does the same
whatever K holds, and leaves K as it was. -/
def Obligations.StreamContextIsPrivate : Prop :=
  ∀ (i : Instr) (s : State) (k : Stream), writesStream i = false →
    exec i { s with k := k } = mapNext (fun t => { t with k := k }) (exec i s)

/-! # Validator and pipeline -/

/-- R214, R212, R210: VAL.SEAL writes the checksum of the covered bytes, little-endian, into the last F
bytes and touches no other byte; with F = 0 it writes nothing. -/
def Obligations.SealWritesTheChecksum : Prop :=
  coded .valSeal 0x0030 ∧
  ∀ s : State,
    (s.p.valid = false → exec .valSeal s = answers s (only .eNoObject)) ∧
    (s.p.valid = true → fOf s.p.layout = 0 → exec .valSeal s = answers s (only .ok)) ∧
    ∀ c : List Byte, Inv s → s.p.valid = true → isCovered s.p c →
      stores .valSeal s (s.p.n - fOf s.p.layout)
        (leBytes (fOf s.p.layout) (compute s.p.policy c))

/-- R213, R211: VAL.ISVALID returns 1 exactly when there is no checksum field or the field holds the
checksum of the covered bytes, else 0, and changes nothing. -/
def Obligations.IsValidComparesTheChecksum : Prop :=
  coded .valIsValid 0x0031 ∧
  ∀ s : State,
    (s.p.valid = false → exec .valIsValid s = answers s (only .eNoObject)) ∧
    (s.p.valid = true → fOf s.p.layout = 0 → exec .valIsValid s = answers s (okRes 1)) ∧
    ∀ c : List Byte, Inv s → s.p.valid = true → isCovered s.p c → 0 < fOf s.p.layout →
      let stored := leBytes (fOf s.p.layout) (compute s.p.policy c)
      (holdsAt s.p.buf (s.p.n - fOf s.p.layout) stored →
        exec .valIsValid s = answers s (okRes 1)) ∧
      (¬holdsAt s.p.buf (s.p.n - fOf s.p.layout) stored →
        exec .valIsValid s = answers s (okRes 0))

/-- R215 items 1 and 3, R214: after VAL.SEAL, VAL.ISVALID returns 1, for every packet; and sealing again
changes nothing. -/
def Obligations.SealThenValid : Prop :=
  ∀ s : State, Inv s → s.p.valid = true → ∃ t, exec .valSeal s = .next t ∧
    exec .valIsValid t = answers t (okRes 1) ∧ exec .valSeal t = .next t

/-- R215 item 2: for a Framed packet that VAL.ISVALID finds valid, under each of the ten policies with a
checksum field other than fletcher16, changing one covered byte to any other value makes VAL.ISVALID
return 0. -/
def Obligations.SingleByteMutationDetected : Prop :=
  ∀ (s : State) (off : Nat) (x y : Byte), Inv s → s.p.valid = true → s.p.kind = .framed →
    s.p.policy ≠ .none → s.p.policy ≠ .fletcher16 →
    exec .valIsValid s = answers s (okRes 1) →
    off < s.p.n - fOf s.p.layout → s.p.buf.read off = some x → y ≠ x →
    let t := { s with p := { s.p with buf := s.p.buf.write off y } }
    exec .valIsValid t = answers t (okRes 0)

/-- R215 item 2, R183, conflict C3: under fletcher16 exactly the changes between 0x00 and 0xFF go
undetected. -/
def Obligations.Fletcher16MissesZeroAndOnes : Prop :=
  ∀ (s : State) (off : Nat) (x y : Byte), Inv s → s.p.valid = true → s.p.kind = .framed →
    s.p.policy = .fletcher16 → exec .valIsValid s = answers s (okRes 1) →
    off < s.p.n - 2 → s.p.buf.read off = some x → y ≠ x →
    let t := { s with p := { s.p with buf := s.p.buf.write off y } }
    exec .valIsValid t =
      answers t (okRes (if (x = 0 ∧ y = 0xFF) ∨ (x = 0xFF ∧ y = 0) then 1 else 0))

/-- R215 item 4: changing a byte of the checksum field of a packet that VAL.ISVALID finds valid makes it
invalid, for every policy with a checksum field. -/
def Obligations.ChecksumByteMutationDetected : Prop :=
  ∀ (s : State) (off : Nat) (x y : Byte), Inv s → s.p.valid = true →
    exec .valIsValid s = answers s (okRes 1) →
    s.p.n - fOf s.p.layout ≤ off → off < s.p.n → s.p.buf.read off = some x → y ≠ x →
    let t := { s with p := { s.p with buf := s.p.buf.write off y } }
    exec .valIsValid t = answers t (okRes 0)

/-- R216, R270: TX.PREP leaves what VAL.SEAL leaves and returns what PKT.TOBYTES then returns. -/
def Obligations.PrepIsSealThenImage : Prop :=
  coded .txPrep 0x0040 ∧
  ∀ s : State,
    (s.p.valid = false → exec .txPrep s = answers s (only .eNoObject)) ∧
    (Inv s → s.p.valid = true → ∃ t b, exec .valSeal s = .next t ∧
      exec .pktToBytes t = answers t (okBytes b) ∧ exec .txPrep s = answers t (okBytes b))

/-- R217, R237: the checks of RX.ACCEPT, in order: minimum size on n alone, length, capacity, alignment;
the first that applies is reported, and nothing changes. -/
def Obligations.AcceptReportsTheFirstError : Prop :=
  ∀ (s : State) (lay : Layout) (n : BitVec 32) (raw : List Byte),
    let e := exec (.rxAccept lay n raw) s
    let least := 5 + widthOf lay.width + fOf lay
    (n.toNat < least → e = answers s (only .eTooSmall)) ∧
    (least ≤ n.toNat → raw.length ≠ n.toNat → e = answers s (only .eOperandLength)) ∧
    (least ≤ n.toNat → raw.length = n.toNat → ¬withinMax s.params n.toNat →
      e = answers s (only .eCapacity)) ∧
    (least ≤ n.toNat → raw.length = n.toNat → withinMax s.params n.toNat →
      n.toNat % s.params.wordUnit ≠ 0 → e = answers s (only .eNotAligned))

/-- R217, R218, R211: a request that passes the checks is turned away, with nothing changed, when byte 3
is not the board id, whatever its checksum; otherwise it is accepted into P exactly when there is no
checksum field or the field holds the checksum of the other bytes, and else turned away. -/
def Obligations.AcceptFiltersThenValidates : Prop :=
  ∀ (s : State) (lay : Layout) (n : BitVec 32) (raw : List Byte),
    let e := exec (.rxAccept lay n raw) s
    let f := fOf lay
    let body := raw.take (raw.length - f)
    raw.length = n.toNat → withinMax s.params n.toNat → goodSize s.params lay n.toNat →
    (raw[3]? ≠ some s.cfg.boardId → e = answers s (only .noPacket)) ∧
    (raw[3]? = some s.cfg.boardId →
      (raw.drop (raw.length - f) = leBytes f (compute lay.policy body) →
        ∃ pol buf, e =
            answers { s with p := ⟨true, lay.kind, raw.length, lay.width, pol, buf⟩ } (only .ok) ∧
          (lay.kind = .framed → pol = lay.policy) ∧ ∀ a, buf.read a = raw[a]?) ∧
      (raw.drop (raw.length - f) ≠ leBytes f (compute lay.policy body) →
        e = answers s (only .noPacket)))

/-- R216, R217, R145, R263 item 3: what TX.PREP of one instance returns, the instance it is addressed to
accepts, when both were given the same parameters and the same layout, and it then holds an equal
packet; an instance with another board id turns it away.  For packets of fewer than 2^32 bytes, the sizes
that the 32-bit `n` port of RX.ACCEPT can carry (R80; assumption log 16). -/
def Obligations.PreparedPacketIsDelivered : Prop :=
  ∀ s : State, Inv s → s.p.valid = true → s.p.n < 2 ^ 32 →
    ∃ t b, exec .txPrep s = answers t (okBytes b) ∧
      ∀ (u : State) (lay : Layout), u.params = s.params → layoutOf lay s.p →
        (s.p.buf.read 3 = some u.cfg.boardId →
          ∃ q, exec (.rxAccept lay (BitVec.ofNat 32 s.p.n) b) u =
            answers { u with p := q } (only .ok) ∧ SamePacket t.p q) ∧
        (s.p.buf.read 3 ≠ some u.cfg.boardId →
          exec (.rxAccept lay (BitVec.ofNat 32 s.p.n) b) u = answers u (only .noPacket))
end

