-- ==== Sys2Proof/Laws/Bytes.lean ====
section
/-!
SUPPORT. Byte strings: the little-endian image and its inverse (R7), zero bytes, padding.
-/

namespace Sys2Proof.Laws

open Sys2Proof.Machine

@[simp] theorem length_le (n v : Nat) : (le n v).length = n := by
  induction n generalizing v with
  | zero => rfl
  | succ n ih => simp [le, ih]

@[simp] theorem length_zeros (n : Nat) : (zeros n).length = n := by simp [zeros]

@[simp] theorem unLE_nil : unLE [] = 0 := rfl

theorem unLE_cons (b : Byte) (s : List Byte) : unLE (b :: s) = b.toNat + 256 * unLE s := rfl

/-- A byte string of length n stands for a number below 2^(8n). -/
theorem unLE_lt (s : List Byte) : unLE s < 2 ^ (8 * s.length) := by
  induction s with
  | nil => simp [unLE]
  | cons b s ih =>
    have hb := b.isLt
    have hpow : 2 ^ (8 * (b :: s).length) = 256 * 2 ^ (8 * s.length) := by
      rw [List.length_cons, show 8 * (s.length + 1) = 8 + 8 * s.length by omega, Nat.pow_add]
    rw [hpow, unLE_cons]
    omega

/-- R7: `unLE` is the inverse of `LE` on the numbers that fit. -/
theorem unLE_le (n v : Nat) (h : v < 2 ^ (8 * n)) : unLE (le n v) = v := by
  induction n generalizing v with
  | zero => simp at h; simp [le, h]
  | succ n ih =>
    have hpow : 2 ^ (8 * (n + 1)) = 256 * 2 ^ (8 * n) := by
      rw [show 8 * (n + 1) = 8 + 8 * n by omega, Nat.pow_add]
    have hq : v / 256 < 2 ^ (8 * n) := by omega
    rw [le, unLE_cons, ih _ hq, BitVec.toNat_ofNat]
    omega

/-- R7: `LE` is the inverse of `unLE`. -/
theorem le_unLE (s : List Byte) : le s.length (unLE s) = s := by
  induction s with
  | nil => rfl
  | cons b s ih =>
    have hb := b.isLt
    rw [List.length_cons, le, unLE_cons]
    rw [show (b.toNat + 256 * unLE s) / 256 = unLE s by omega, ih]
    congr 1
    apply BitVec.eq_of_toNat_eq
    rw [BitVec.toNat_ofNat]
    omega

/-- Two byte strings of one length that stand for one number are equal. -/
theorem unLE_injective {s t : List Byte} (hl : s.length = t.length) (h : unLE s = unLE t) : s = t := by
  rw [← le_unLE s, ← le_unLE t, hl, h]

/-- A payload that fits, padded, fills the payload field (R82). -/
theorem length_padPayload {capacity : Nat} {payload : List Byte} (h : payload.length ≤ capacity) :
    (padPayload capacity payload).length = capacity := by
  simp [padPayload]; omega

@[simp] theorem fits_iff (v n : Nat) : fits v n = true ↔ v < 2 ^ (8 * n) := by simp [fits]

/-- What `seedCheck` lets through fits the checksum field (R132 (f)). -/
theorem seedValue_lt {f : Nat} {seed : Option Word64} (h : (seedCheck f seed).1 = false) :
    seedValue f seed < 2 ^ (8 * f) := by
  cases seed with
  | none => simp [seedValue]
  | some v =>
    by_cases hf : 0 < f
    · simpa [seedCheck, hf, seedValue, fits] using h
    · simp [seedValue, hf]

end Sys2Proof.Laws
end

