-- ==== Sys2Proof/Laws/Checksum.lean ====
section
/-!
SUPPORT. The shared steps of the checksum engine: consuming a string in pieces, and what one step of a
sum, of a pair of sums and of a fold can leave.
-/

namespace Sys2Proof.Laws

open Sys2Proof.Machine Sys2Proof.Safety

@[simp] theorem absorbAll_nil (policy : Policy) (k : Accum) : absorbAll policy k [] = k := rfl

@[simp] theorem absorbAll_cons (policy : Policy) (k : Accum) (x : Byte) (s : List Byte) :
    absorbAll policy k (x :: s) = absorbAll policy (absorb policy k x) s := rfl

/-- Consuming two strings one after the other is consuming their concatenation. -/
theorem absorbAll_append (policy : Policy) (k : Accum) (s t : List Byte) :
    absorbAll policy k (s ++ t) = absorbAll policy (absorbAll policy k s) t := by
  simp [absorbAll, List.foldl_append]

/-- The a of a sum step, as a number: the reduced sum, for a modulus of at most 64 bits. -/
theorem sumStep_a {m : Nat} (h0 : 0 < m) (hm : m ≤ 2 ^ 64) (k : Accum) (x : Nat) :
    (sumStep m k x).a.toNat = (k.a.toNat + x) % m := by
  have := Nat.mod_lt (k.a.toNat + x) h0
  simp [sumStep, BitVec.toNat_ofNat]
  omega

@[simp] theorem sumStep_b (m : Nat) (k : Accum) (x : Nat) : (sumStep m k x).b = k.b := rfl
@[simp] theorem sumStep_pv (m : Nat) (k : Accum) (x : Nat) : (sumStep m k x).pv = k.pv := rfl
@[simp] theorem sumStep_pend (m : Nat) (k : Accum) (x : Nat) : (sumStep m k x).pend = k.pend := rfl

/-- The a of a pair step, as a number, for a modulus of at most 16 bits. -/
theorem pairStep_a {m : Nat} (h0 : 0 < m) (hm : m ≤ 2 ^ 16) (k : Accum) (x : Nat) :
    (pairStep m k x).a.toNat = (k.a.toNat + x) % m := by
  have := Nat.mod_lt (k.a.toNat + x) h0
  simp [pairStep, BitVec.toNat_ofNat]
  omega

/-- The b of a pair step, as a number: it adds the new a. -/
theorem pairStep_b {m : Nat} (h0 : 0 < m) (hm : m ≤ 2 ^ 16) (k : Accum) (x : Nat) :
    (pairStep m k x).b.toNat = (k.b.toNat + (k.a.toNat + x) % m) % m := by
  have := Nat.mod_lt (k.b.toNat + (k.a.toNat + x) % m) h0
  simp only [pairStep, BitVec.toNat_ofNat]
  rw [Nat.mod_eq_of_lt (by omega)]

@[simp] theorem pairStep_pv (m : Nat) (k : Accum) (x : Nat) : (pairStep m k x).pv = k.pv := rfl
@[simp] theorem pairStep_pend (m : Nat) (k : Accum) (x : Nat) : (pairStep m k x).pend = k.pend := rfl

/-- On the sums that a 16-bit register and a 16-bit word can make, the fold of R186 is one carry. -/
theorem foldCarry_two_words {s : Nat} (turns : Nat) (h : s < 131072 - 1) :
    foldCarry (turns + 1) s = if 65535 < s then s - 65535 else s := by
  unfold foldCarry
  split
  · have hs : s % 65536 + s / 65536 = s - 65535 := by omega
    rw [hs]
    cases turns with
    | zero => rfl
    | succ t =>
      unfold foldCarry
      rw [if_neg (by omega)]
  · rfl

/-- The fold of R186 changes a sum by a multiple of 65535. -/
theorem foldCarry_mod (turns s : Nat) : foldCarry turns s % 65535 = s % 65535 := by
  induction turns generalizing s with
  | zero => rfl
  | succ t ih =>
    unfold foldCarry
    split
    · rw [ih]
      omega
    · rfl

/-- The a of a word step of internet16, as a number, while the register is a 16-bit one (R32). -/
theorem internetStep_a {k : Accum} {w : Nat} (ha : k.a.toNat < 65536) (hw : w < 65536) :
    (internetStep k w).a.toNat =
      if 65535 < k.a.toNat + w then k.a.toNat + w - 65535 else k.a.toNat + w := by
  simp only [internetStep, BitVec.toNat_ofNat]
  rw [foldCarry_two_words 7 (by omega)]
  split <;> omega

@[simp] theorem internetStep_b (k : Accum) (w : Nat) : (internetStep k w).b = k.b := rfl
@[simp] theorem internetStep_pv (k : Accum) (w : Nat) : (internetStep k w).pv = k.pv := rfl
@[simp] theorem internetStep_pend (k : Accum) (w : Nat) : (internetStep k w).pend = k.pend := rfl

/-- Everything a word-serial policy does with one byte (R173). -/
theorem absorbWord_cases (step : Accum → Nat → Accum) (k : Accum) (x : Byte) :
    (k.pv = false ∧ absorbWord step k x = { k with pv := true, pend := x }) ∨
      (k.pv = true ∧ absorbWord step k x =
        { step k (k.pend.toNat * 256 + x.toNat) with pv := false }) := by
  cases h : k.pv <;> simp [absorbWord, h]

end Sys2Proof.Laws
end

