-- ==== Sys2Proof/Laws/Decode.lean ====
section
/-!
SUPPORT. The fields of a command word that was put together, and the codes there and back.
-/

namespace Sys2Proof.Laws

/-- Putting two bit vectors side by side, as numbers. -/
theorem toNat_append_add {n m : Nat} (x : BitVec n) (y : BitVec m) :
    (x ++ y).toNat = x.toNat * 2 ^ m + y.toNat := by
  rw [BitVec.toNat_append, ← Nat.shiftLeft_add_eq_or_of_lt y.isLt, Nat.shiftLeft_eq]

/-- R78: the command word as a number. -/
theorem toNat_cmdWord (d k : BitVec 1) (w : BitVec 2) (s : BitVec 4) (op : BitVec 8) :
    (cmdWord d k w s op).toNat =
      d.toNat * 2 ^ 15 + k.toNat * 2 ^ 14 + w.toNat * 2 ^ 12 + s.toNat * 2 ^ 8 + op.toNat := by
  have h1 := toNat_append_add d k
  have h2 := toNat_append_add (d ++ k) w
  have h3 := toNat_append_add (d ++ k ++ w) s
  have h4 := toNat_append_add (d ++ k ++ w ++ s) op
  rw [h3, h2, h1] at h4
  refine h4.trans ?_
  ring

section
variable (d k : BitVec 1) (w : BitVec 2) (s : BitVec 4) (op : BitVec 8)

@[simp] theorem cmdOp_cmdWord : cmdOp (cmdWord d k w s op) = op := by
  apply BitVec.eq_of_toNat_eq
  have := op.isLt
  simp only [cmdOp, BitVec.extractLsb'_toNat, toNat_cmdWord, Nat.shiftRight_zero]
  omega

@[simp] theorem cmdSel_cmdWord : cmdSel (cmdWord d k w s op) = s := by
  apply BitVec.eq_of_toNat_eq
  have := op.isLt; have := s.isLt
  simp only [cmdSel, BitVec.extractLsb'_toNat, toNat_cmdWord, Nat.shiftRight_eq_div_pow]
  omega

@[simp] theorem cmdWc_cmdWord : cmdWc (cmdWord d k w s op) = w := by
  apply BitVec.eq_of_toNat_eq
  have := op.isLt; have := s.isLt; have := w.isLt
  simp only [cmdWc, BitVec.extractLsb'_toNat, toNat_cmdWord, Nat.shiftRight_eq_div_pow]
  omega

@[simp] theorem cmdKind_cmdWord : cmdKind (cmdWord d k w s op) = k := by
  apply BitVec.eq_of_toNat_eq
  have := op.isLt; have := s.isLt; have := w.isLt; have := k.isLt
  simp only [cmdKind, BitVec.extractLsb'_toNat, toNat_cmdWord, Nat.shiftRight_eq_div_pow]
  omega

@[simp] theorem cmdSeed_cmdWord : cmdSeed (cmdWord d k w s op) = d := by
  apply BitVec.eq_of_toNat_eq
  have := op.isLt; have := s.isLt; have := w.isLt; have := k.isLt; have := d.isLt
  simp only [cmdSeed, BitVec.extractLsb'_toNat, toNat_cmdWord, Nat.shiftRight_eq_div_pow]
  omega

end

/-! ## The words of the three formats (R78) -/

@[simp] theorem cmdOp_wordZ (op : BitVec 8) : cmdOp (wordZ op) = op := cmdOp_cmdWord ..
@[simp] theorem cmdOp_wordS (s : BitVec 4) (op : BitVec 8) : cmdOp (wordS s op) = op :=
  cmdOp_cmdWord ..
@[simp] theorem cmdOp_wordL (d : BitVec 1) (lay : Layout) (op : BitVec 8) :
    cmdOp (wordL d lay op) = op := cmdOp_cmdWord ..
@[simp] theorem cmdSel_wordS (s : BitVec 4) (op : BitVec 8) : cmdSel (wordS s op) = s :=
  cmdSel_cmdWord ..
@[simp] theorem cmdSel_wordL (d : BitVec 1) (lay : Layout) (op : BitVec 8) :
    cmdSel (wordL d lay op) = policyCode lay.policy := cmdSel_cmdWord ..
@[simp] theorem cmdWc_wordL (d : BitVec 1) (lay : Layout) (op : BitVec 8) :
    cmdWc (wordL d lay op) = widthCode lay.width := cmdWc_cmdWord ..
@[simp] theorem cmdKind_wordL (d : BitVec 1) (lay : Layout) (op : BitVec 8) :
    cmdKind (wordL d lay op) = kindCode lay.kind := cmdKind_cmdWord ..
@[simp] theorem cmdSeed_wordL (d : BitVec 1) (lay : Layout) (op : BitVec 8) :
    cmdSeed (wordL d lay op) = d := cmdSeed_cmdWord ..

/-- A format Z word has nothing but its opcode. -/
@[simp] theorem high_wordZ (op : BitVec 8) : (wordZ op).extractLsb' 8 8 = 0 := by
  apply BitVec.eq_of_toNat_eq
  have := op.isLt
  simp only [wordZ, BitVec.extractLsb'_toNat, toNat_cmdWord, Nat.shiftRight_eq_div_pow]
  simp
  omega

/-- A format S word has nothing above its selector. -/
@[simp] theorem high_wordS (s : BitVec 4) (op : BitVec 8) : (wordS s op).extractLsb' 12 4 = 0 := by
  apply BitVec.eq_of_toNat_eq
  have := op.isLt; have := s.isLt
  simp only [wordS, BitVec.extractLsb'_toNat, toNat_cmdWord, Nat.shiftRight_eq_div_pow]
  simp
  omega

/-- A format Z word is its opcode, as a number. -/
theorem toNat_wordZ (op : BitVec 8) : (wordZ op).toNat = op.toNat := by
  simp [wordZ, toNat_cmdWord]

/-- A format S word, as a number. -/
theorem toNat_wordS (s : BitVec 4) (op : BitVec 8) : (wordS s op).toNat = s.toNat * 256 + op.toNat := by
  simp [wordS, toNat_cmdWord]

/-! ## The codes there and back (R75, R76, R77, R88) -/

@[simp] theorem policyOfCode_code (p : Policy) : policyOfCode (policyCode p) = some p := by
  cases p <;> rfl
@[simp] theorem fieldOfCode_code (f : HdrField) : fieldOfCode (fieldCode f) = some f := by
  cases f <;> rfl
@[simp] theorem widthOfCode_code (w : TaskWidth) : widthOfCode (widthCode w) = w := by
  cases w <;> rfl
@[simp] theorem decodeZ_wordZ (op : BitVec 8) (i : Instr) : decodeZ (wordZ op) i = .ok i := by
  simp [decodeZ]
@[simp] theorem kindOfCode_code (k : Kind) : kindOfCode (kindCode k) = k := by
  cases k <;> rfl

end Sys2Proof.Laws
end

