-- ==== Sys2Proof/Laws/State.lean ====
section
/-!
SUPPORT. One lemma per field per update of the state, and what reset leaves, so that no proof unfolds a
record update.
-/

namespace Sys2Proof.Laws

open Sys2Proof.Machine

variable (s : State)

/-! ## `State.respond` -/

@[simp] theorem respond_cfg (r : Response) : (s.respond r).cfg = s.cfg := rfl
@[simp] theorem respond_h (r : Response) : (s.respond r).h = s.h := rfl
@[simp] theorem respond_p (r : Response) : (s.respond r).p = s.p := rfl
@[simp] theorem respond_k (r : Response) : (s.respond r).k = s.k := rfl
@[simp] theorem respond_params (r : Response) : (s.respond r).params = s.params := rfl
@[simp] theorem respond_events (r : Response) : (s.respond r).events = s.events := rfl
@[simp] theorem respond_response (r : Response) : (s.respond r).response = some r := rfl

/-! ## `State.loadHeader` -/

@[simp] theorem loadHeader_cfg (sp : Word16) (snd rcv : Byte) : (s.loadHeader sp snd rcv).cfg = s.cfg := rfl
@[simp] theorem loadHeader_h (sp : Word16) (snd rcv : Byte) : (s.loadHeader sp snd rcv).h = { valid := true, space := sp, sender := snd, receiver := rcv } := rfl
@[simp] theorem loadHeader_p (sp : Word16) (snd rcv : Byte) : (s.loadHeader sp snd rcv).p = s.p := rfl
@[simp] theorem loadHeader_k (sp : Word16) (snd rcv : Byte) : (s.loadHeader sp snd rcv).k = s.k := rfl
@[simp] theorem loadHeader_params (sp : Word16) (snd rcv : Byte) : (s.loadHeader sp snd rcv).params = s.params := rfl
@[simp] theorem loadHeader_events (sp : Word16) (snd rcv : Byte) : (s.loadHeader sp snd rcv).events = s.events := rfl
@[simp] theorem loadHeader_response (sp : Word16) (snd rcv : Byte) : (s.loadHeader sp snd rcv).response = s.response := rfl

/-! ## `State.setPacket` -/

@[simp] theorem setPacket_cfg (q : Packet) : (s.setPacket q).cfg = s.cfg := rfl
@[simp] theorem setPacket_h (q : Packet) : (s.setPacket q).h = s.h := rfl
@[simp] theorem setPacket_p (q : Packet) : (s.setPacket q).p = q := rfl
@[simp] theorem setPacket_k (q : Packet) : (s.setPacket q).k = s.k := rfl
@[simp] theorem setPacket_params (q : Packet) : (s.setPacket q).params = s.params := rfl
@[simp] theorem setPacket_events (q : Packet) : (s.setPacket q).events = s.events := rfl
@[simp] theorem setPacket_response (q : Packet) : (s.setPacket q).response = s.response := rfl

/-! ## `State.setStream` -/

@[simp] theorem setStream_cfg (q : Stream) : (s.setStream q).cfg = s.cfg := rfl
@[simp] theorem setStream_h (q : Stream) : (s.setStream q).h = s.h := rfl
@[simp] theorem setStream_p (q : Stream) : (s.setStream q).p = s.p := rfl
@[simp] theorem setStream_k (q : Stream) : (s.setStream q).k = q := rfl
@[simp] theorem setStream_params (q : Stream) : (s.setStream q).params = s.params := rfl
@[simp] theorem setStream_events (q : Stream) : (s.setStream q).events = s.events := rfl
@[simp] theorem setStream_response (q : Stream) : (s.setStream q).response = s.response := rfl

/-! ## `State.push` -/

@[simp] theorem push_cfg (r : Request) : (s.push r).cfg = s.cfg := rfl
@[simp] theorem push_h (r : Request) : (s.push r).h = s.h := rfl
@[simp] theorem push_p (r : Request) : (s.push r).p = s.p := rfl
@[simp] theorem push_k (r : Request) : (s.push r).k = s.k := rfl
@[simp] theorem push_params (r : Request) : (s.push r).params = s.params := rfl
@[simp] theorem push_events (r : Request) : (s.push r).events = .request r :: s.events := rfl
@[simp] theorem push_response (r : Request) : (s.push r).response = s.response := rfl

/-! ## `State.pop` -/

@[simp] theorem pop_cfg : s.pop.cfg = s.cfg := rfl
@[simp] theorem pop_h : s.pop.h = s.h := rfl
@[simp] theorem pop_p : s.pop.p = s.p := rfl
@[simp] theorem pop_k : s.pop.k = s.k := rfl
@[simp] theorem pop_params : s.pop.params = s.params := rfl
@[simp] theorem pop_events : s.pop.events = s.events.tail := rfl
@[simp] theorem pop_response : s.pop.response = s.response := rfl

/-! ## `State.resetNow` -/

@[simp] theorem resetNow_cfg (v : BitVec 2) (b : Byte) :
    (s.resetNow v b).cfg = { version := v, boardId := b } := rfl
@[simp] theorem resetNow_h_valid (v : BitVec 2) (b : Byte) : (s.resetNow v b).h.valid = false := rfl
@[simp] theorem resetNow_p_valid (v : BitVec 2) (b : Byte) : (s.resetNow v b).p.valid = false := rfl
@[simp] theorem resetNow_p_buf (v : BitVec 2) (b : Byte) : (s.resetNow v b).p.buf = [] := rfl
@[simp] theorem resetNow_k_active (v : BitVec 2) (b : Byte) : (s.resetNow v b).k.active = false := rfl
@[simp] theorem resetNow_params (v : BitVec 2) (b : Byte) : (s.resetNow v b).params = s.params := rfl
@[simp] theorem resetNow_events (v : BitVec 2) (b : Byte) : (s.resetNow v b).events = s.events := rfl
@[simp] theorem resetNow_response (v : BitVec 2) (b : Byte) : (s.resetNow v b).response = none := rfl

/-! ## `State.resetWith` -/

@[simp] theorem resetWith_cfg (c : Params) (v : BitVec 2) (b : Byte) :
    (State.resetWith c v b).cfg = { version := v, boardId := b } := rfl
@[simp] theorem resetWith_h_valid (c : Params) (v : BitVec 2) (b : Byte) :
    (State.resetWith c v b).h.valid = false := rfl
@[simp] theorem resetWith_p_valid (c : Params) (v : BitVec 2) (b : Byte) :
    (State.resetWith c v b).p.valid = false := rfl
@[simp] theorem resetWith_p_buf (c : Params) (v : BitVec 2) (b : Byte) :
    (State.resetWith c v b).p.buf = [] := rfl
@[simp] theorem resetWith_k_active (c : Params) (v : BitVec 2) (b : Byte) :
    (State.resetWith c v b).k.active = false := rfl
@[simp] theorem resetWith_params (c : Params) (v : BitVec 2) (b : Byte) :
    (State.resetWith c v b).params = c := rfl
@[simp] theorem resetWith_events (c : Params) (v : BitVec 2) (b : Byte) :
    (State.resetWith c v b).events = [] := rfl

/-! ## The packet a layout and an image make -/

section
variable (old : Packet) (lay : Layout) (n : Nat) (image : List Byte)

@[simp] theorem buildPacket_valid : (buildPacket old lay n image).valid = true := rfl
@[simp] theorem buildPacket_kind : (buildPacket old lay n image).kind = lay.kind := rfl
@[simp] theorem buildPacket_n : (buildPacket old lay n image).n = n := rfl
@[simp] theorem buildPacket_width : (buildPacket old lay n image).width = lay.width := rfl
@[simp] theorem buildPacket_buf : (buildPacket old lay n image).buf = Memory.ofBytes 0 image := rfl

theorem buildPacket_policy_framed (h : lay.kind = .framed) :
    (buildPacket old lay n image).policy = lay.policy := by simp [buildPacket, h]

theorem buildPacket_policy_basic (h : lay.kind = .basic) :
    (buildPacket old lay n image).policy = old.policy := by simp [buildPacket, h]

@[simp] theorem buildPacket_fcsBytes :
    (buildPacket old lay n image).fcsBytes = layoutFcsBytes lay := by
  unfold Packet.fcsBytes layoutFcsBytes fcsBytes
  cases h : lay.kind <;> simp [buildPacket, h]

end

end Sys2Proof.Laws
end

