-- ==== Sys2Proof/Laws/Memory.lean ====
section
/-!
SUPPORT. The packet buffer: reading after writing, the canonical form, and the two memory primitives
of R51 on the buffer of a byte string.
-/

namespace Sys2Proof.Laws

open Sys2Proof.Machine Sys2Proof.Safety

/-! ## Reading after writing -/

theorem read_write (m : Memory) (a c : Nat) (b : Byte) :
    (m.write a b).read c = if c = a then some b else m.read c := by
  induction m with
  | nil => simp [Memory.write, Memory.read, eq_comm]
  | cons e m ih =>
    obtain ⟨k, v⟩ := e
    simp only [Memory.write]
    split
    · rename_i h
      by_cases hc : c = a
      · simp [Memory.read, hc]
      · simp [Memory.read, hc, Ne.symm hc]
    · split
      · rename_i h1 h2
        subst h2
        by_cases hc : c = a
        · simp [Memory.read, hc]
        · simp [Memory.read, hc, Ne.symm hc]
      · rename_i h1 h2
        by_cases hk : k = c
        · subst hk
          simp [Memory.read, Ne.symm h2]
        · simp [Memory.read, hk, ih]

theorem read_store (m : Memory) (off c : Nat) (bs : List Byte) :
    (m.store off bs).read c =
      if h : off ≤ c ∧ c - off < bs.length then some (bs[c - off]'h.2) else m.read c := by
  induction bs generalizing m off with
  | nil => simp [Memory.store]
  | cons b bs ih =>
    rw [Memory.store, ih, read_write]
    by_cases h1 : c = off
    · subst h1; simp
    · by_cases h2 : off + 1 ≤ c ∧ c - (off + 1) < bs.length
      · have h3 : off ≤ c ∧ c - off < (b :: bs).length := by simp; omega
        simp only [h2, h3, and_self, dite_true]
        have : c - off = (c - (off + 1)) + 1 := by omega
        simp [this]
      · have h3 : ¬(off ≤ c ∧ c - off < (b :: bs).length) := by simp; omega
        rw [dif_neg h2, dif_neg h3, if_neg h1]

/-- Bytes outside the stored window read as before. -/
theorem read_store_outside (m : Memory) (off c : Nat) (bs : List Byte)
    (h : c < off ∨ off + bs.length ≤ c) : (m.store off bs).read c = m.read c := by
  rw [read_store, dif_neg (by omega)]

/-! ## The canonical form is kept -/

/-- The canonical form, said with the library's ordering of lists. -/
theorem wf_iff_pairwise (m : Memory) : m.wf = true ↔ m.Pairwise (fun x y => x.1 < y.1) := by
  induction m with
  | nil => simp [Memory.wf]
  | cons c m ih =>
    cases m with
    | nil => simp [Memory.wf]
    | cons d m =>
      simp only [Memory.wf, Bool.and_eq_true, decide_eq_true_eq, ih]
      constructor
      · rintro ⟨h1, h2⟩
        refine List.pairwise_cons.2 ⟨fun x hx => ?_, h2⟩
        rcases List.mem_cons.1 hx with rfl | hx
        · exact h1
        · exact Nat.lt_trans h1 ((List.pairwise_cons.1 h2).1 x hx)
      · intro h
        exact ⟨(List.pairwise_cons.1 h).1 d (by simp), (List.pairwise_cons.1 h).2⟩

theorem mem_write {m : Memory} {a : Nat} {b : Byte} {x : Host.Cell} (h : x ∈ m.write a b) :
    x = (a, b) ∨ x ∈ m := by
  induction m with
  | nil => simpa [Memory.write] using h
  | cons e m ih =>
    obtain ⟨k, v⟩ := e
    simp only [Memory.write] at h
    split at h
    · simpa using h
    · split at h
      · rcases List.mem_cons.1 h with h | h
        · exact .inl h
        · exact .inr (List.mem_cons_of_mem _ h)
      · rcases List.mem_cons.1 h with h | h
        · exact .inr (by simp [h])
        · rcases ih h with h | h
          · exact .inl h
          · exact .inr (List.mem_cons_of_mem _ h)

theorem wf_write {m : Memory} (h : m.wf = true) (a : Nat) (b : Byte) : (m.write a b).wf = true := by
  rw [wf_iff_pairwise] at *
  induction m with
  | nil => simp [Memory.write]
  | cons e m ih =>
    obtain ⟨k, v⟩ := e
    obtain ⟨h1, h2⟩ := List.pairwise_cons.1 h
    simp only [Memory.write]
    split
    · rename_i hlt
      refine List.pairwise_cons.2 ⟨fun x hx => ?_, h⟩
      rcases List.mem_cons.1 hx with rfl | hx
      · exact hlt
      · exact Nat.lt_trans hlt (h1 x hx)
    · split
      · rename_i heq
        subst heq
        exact List.pairwise_cons.2 ⟨h1, h2⟩
      · refine List.pairwise_cons.2 ⟨fun x hx => ?_, ih h2⟩
        rcases mem_write hx with rfl | hx
        · show k < a
          omega
        · exact h1 x hx

theorem wf_store {m : Memory} (h : m.wf = true) (off : Nat) (bs : List Byte) :
    (m.store off bs).wf = true := by
  induction bs generalizing m off with
  | nil => exact h
  | cons b bs ih => exact ih (wf_write h off b) (off + 1)

/-! ## Writing where a byte stands changes no address -/

theorem addresses_write {m : Memory} (hm : m.wf = true) {a : Nat} (b : Byte)
    (h : a ∈ m.map Prod.fst) : (m.write a b).map Prod.fst = m.map Prod.fst := by
  rw [wf_iff_pairwise] at hm
  induction m with
  | nil => simp at h
  | cons e m ih =>
    obtain ⟨k, v⟩ := e
    obtain ⟨h1, h2⟩ := List.pairwise_cons.1 hm
    rcases (by simpa using h : a = k ∨ ∃ x, (a, x) ∈ m) with rfl | ⟨x, hx⟩
    · simp [Memory.write]
    · have hka : k < a := h1 (a, x) hx
      have hmem : a ∈ m.map Prod.fst := List.mem_map.2 ⟨(a, x), hx, rfl⟩
      simp [Memory.write, Nat.not_lt.2 hka.le, hka.ne', ih h2 hmem]

theorem addresses_store {m : Memory} (hm : m.wf = true) {off : Nat} {bs : List Byte}
    (h : ∀ i < bs.length, off + i ∈ m.map Prod.fst) :
    (m.store off bs).map Prod.fst = m.map Prod.fst := by
  induction bs generalizing m off with
  | nil => rfl
  | cons b bs ih =>
    have h0 : off ∈ m.map Prod.fst := by simpa using h 0 (by simp)
    have hw := addresses_write hm b h0
    rw [Memory.store, ih (wf_write hm off b), hw]
    intro i hi
    rw [hw]
    have := h (i + 1) (by simpa using hi)
    rwa [show off + 1 + i = off + (i + 1) by omega]

/-! ## The buffer of a byte string -/

theorem addresses_ofBytes (a : Nat) (bs : List Byte) :
    (Memory.ofBytes a bs).map Prod.fst = List.range' a bs.length := by
  induction bs generalizing a with
  | nil => rfl
  | cons b bs ih => simp [Memory.ofBytes, ih, List.range'_succ]

@[simp] theorem bytes_ofBytes (a : Nat) (bs : List Byte) :
    (Memory.ofBytes a bs).map Prod.snd = bs := by
  induction bs generalizing a with
  | nil => rfl
  | cons b bs ih => simp [Memory.ofBytes, ih]

@[simp] theorem length_ofBytes (a : Nat) (bs : List Byte) : (Memory.ofBytes a bs).length = bs.length := by
  induction bs generalizing a with
  | nil => rfl
  | cons b bs ih => simp [Memory.ofBytes, ih]

theorem wf_ofBytes (a : Nat) (bs : List Byte) : (Memory.ofBytes a bs).wf = true := by
  rw [wf_iff_pairwise]
  have h : ((Memory.ofBytes a bs).map Prod.fst).Pairwise (· < ·) := by
    rw [addresses_ofBytes]
    exact List.pairwise_lt_range'
  exact List.pairwise_map.1 h

theorem read_ofBytes (a c : Nat) (bs : List Byte) :
    (Memory.ofBytes a bs).read c = if a ≤ c then bs[c - a]? else none := by
  induction bs generalizing a with
  | nil => simp [Memory.ofBytes, Memory.read]
  | cons b bs ih =>
    simp only [Memory.ofBytes, Memory.read, ih]
    by_cases h1 : a = c
    · subst h1; simp
    · by_cases h2 : a + 1 ≤ c
      · have h3 : a ≤ c := by omega
        have h4 : c - a = (c - (a + 1)) + 1 := by omega
        simp [h1, h2, h3, h4]
      · have h3 : ¬a ≤ c := by omega
        simp [h1, h2, h3]

/-- A buffer that lists exactly the addresses 0 to N − 1 is the buffer of its bytes. -/
theorem eq_ofBytes (m : Memory) (a : Nat) (h : m.map Prod.fst = List.range' a m.length) :
    m = Memory.ofBytes a (m.map Prod.snd) := by
  induction m generalizing a with
  | nil => rfl
  | cons e m ih =>
    obtain ⟨k, v⟩ := e
    simp only [List.map_cons, List.length_cons, List.range'_succ, List.cons.injEq] at h
    obtain ⟨rfl, h⟩ := h
    simp only [List.map_cons, Memory.ofBytes]
    rw [← ih _ h]

/-- R30: the buffer of a packet context that holds a packet is the buffer of an image of N bytes. -/
theorem packetOk_image {c : Params} {p : Packet} (h : packetOk c p) :
    ∃ image : List Byte, image.length = p.n ∧ p.buf = Memory.ofBytes 0 image := by
  obtain ⟨-, -, -, h⟩ := h
  have hl : p.buf.length = p.n := by simpa using congrArg List.length h
  refine ⟨p.buf.map Prod.snd, by simpa using hl, eq_ofBytes _ 0 ?_⟩
  rw [h, hl, List.range_eq_range']

theorem wf_of_packetOk {c : Params} {p : Packet} (h : packetOk c p) : p.buf.wf = true := by
  obtain ⟨image, -, hb⟩ := packetOk_image h
  rw [hb]; exact wf_ofBytes 0 image

/-- Storing into the buffer of an image gives the buffer of the image with the window replaced. -/
theorem store_ofBytes (image bs : List Byte) (off : Nat) (h : off + bs.length ≤ image.length) :
    (Memory.ofBytes 0 image).store off bs =
      Memory.ofBytes 0 (image.take off ++ bs ++ image.drop (off + bs.length)) := by
  have haddr : ((Memory.ofBytes 0 image).store off bs).map Prod.fst =
      List.range' 0 image.length := by
    rw [addresses_store (wf_ofBytes 0 image), addresses_ofBytes]
    intro i hi
    rw [addresses_ofBytes, List.mem_range']
    exact ⟨off + i, by omega, by omega⟩
  have hlen : ((Memory.ofBytes 0 image).store off bs).length = image.length := by
    simpa using congrArg List.length haddr
  have hself := eq_ofBytes _ 0 (haddr.trans (by rw [hlen]))
  have hr : ∀ j, (((Memory.ofBytes 0 image).store off bs).map Prod.snd)[j]? =
      ((Memory.ofBytes 0 image).store off bs).read j := by
    intro j
    conv_rhs => rw [hself]
    rw [read_ofBytes]; simp
  rw [hself]
  congr 1
  apply List.ext_getElem?
  intro i
  rw [hr, read_store]
  by_cases h1 : i < off
  · rw [dif_neg (by omega), read_ofBytes, List.append_assoc,
      List.getElem?_append_left (by simp; omega)]
    simp [h1]
  · by_cases h2 : i - off < bs.length
    · rw [dif_pos ⟨by omega, h2⟩, List.append_assoc, List.getElem?_append_right (by simp; omega),
        List.getElem?_append_left (by simp; omega)]
      simp only [List.length_take]
      rw [show min off image.length = off by omega, List.getElem?_eq_getElem h2]
    · rw [dif_neg (by omega), read_ofBytes, List.getElem?_append_right (by simp; omega)]
      simp only [Nat.zero_le, if_true, Nat.sub_zero, List.length_append, List.length_take,
        List.getElem?_drop]
      congr 1
      omega

/-! ## The memory primitives (R51) -/

theorem readCells_ofBytes (image : List Byte) (off n : Nat) (h : off + n ≤ image.length) :
    readCells (Memory.ofBytes 0 image) off n = .ok ((image.drop off).take n) := by
  induction n generalizing off with
  | zero => simp [readCells]
  | succ n ih =>
    have hlt : off < image.length := by omega
    rw [readCells, read_ofBytes]
    simp only [Nat.zero_le, if_true, Nat.sub_zero, List.getElem?_eq_getElem hlt]
    rw [ih (off + 1) (by omega), List.drop_eq_getElem_cons hlt, List.take_succ_cons]

/-- Everything `P.buf[off .. off+n)` can answer on a packet whose buffer is an image. -/
theorem bytesAt_image {p : Packet} {image : List Byte} (hn : image.length = p.n)
    (hb : p.buf = Memory.ofBytes 0 image) (off n : Nat) :
    p.bytesAt off n =
      if off + n ≤ p.n then .ok ((image.drop off).take n) else .error .outsideBuffer := by
  unfold Packet.bytesAt
  split
  · rw [hb, readCells_ofBytes _ _ _ (by omega)]
  · rfl

/-- Everything `MemRead` can answer on a packet whose buffer is an image. -/
theorem memRead_image {p : Packet} {image : List Byte} (hn : image.length = p.n)
    (hb : p.buf = Memory.ofBytes 0 image) (off n : Nat) :
    p.memRead off n =
      if off + n ≤ p.n then .ok (unLE ((image.drop off).take n)) else .error .outsideBuffer := by
  unfold Packet.memRead
  rw [bytesAt_image hn hb]
  by_cases h : off + n ≤ p.n <;> simp [h]

/-- Everything a store can answer: the buffer alone changes. -/
theorem storeBytes_cases {p q : Packet} {off : Nat} {bs : List Byte}
    (h : p.storeBytes off bs = .ok q) :
    off + bs.length ≤ p.n ∧ q = { p with buf := p.buf.store off bs } := by
  unfold Packet.storeBytes at h
  split at h
  · exact ⟨‹_›, by simpa using h.symm⟩
  · cases h

theorem storeBytes_ok {p : Packet} {off : Nat} {bs : List Byte} (h : off + bs.length ≤ p.n) :
    p.storeBytes off bs = .ok { p with buf := p.buf.store off bs } := by
  simp [Packet.storeBytes, h]

/-- A store inside a good packet leaves a good packet (R30). -/
theorem packetOk_store {c : Params} {p : Packet} (h : packetOk c p) {off : Nat} {bs : List Byte}
    (hw : off + bs.length ≤ p.n) : packetOk c { p with buf := p.buf.store off bs } := by
  obtain ⟨image, hl, hb⟩ := packetOk_image h
  obtain ⟨h1, h2, h3, -⟩ := h
  refine ⟨h1, h2, h3, ?_⟩
  show (p.buf.store off bs).map Prod.fst = List.range p.n
  rw [hb, store_ofBytes _ _ _ (by omega), addresses_ofBytes, List.range_eq_range']
  congr 1
  simp
  omega

/-- Reset's buffer has the canonical form. -/
theorem reset_buf_wf : State.reset.p.buf.wf = true := rfl

end Sys2Proof.Laws
end

