-- ==== Sys2Proof/Laws/Ops.lean ====
section
/-!
SUPPORT. What each shared operation can do, said once: ending an operation, the ordered checks, going on
with a value, updating the packet, sealing and validating a packet whose buffer is an image.
-/

namespace Sys2Proof.Laws

open Sys2Proof.Machine Sys2Proof.Safety

/-! ## Ending an operation -/

@[simp] theorem finish_eq (r : Response) (s : State) : finish r s = .next (s.respond r) := rfl

theorem raise_eq (st : Status) (s : State) : raise st s = .next (s.respond (Response.bare st)) := rfl

@[simp] theorem bare_status (st : Status) : (Response.bare st).status = st := rfl
@[simp] theorem done_status : Response.done.status = .ok := rfl
@[simp] theorem value_status (v : Word64) : (Response.value v).status = .ok := rfl
@[simp] theorem bytes_status (b : List Byte) : (Response.bytes b).status = .ok := rfl
@[simp] theorem missing_status : Response.missing.status = .ok := rfl
@[simp] theorem value_res (v : Word64) : (Response.value v).res = v := rfl
@[simp] theorem bytes_dout (b : List Byte) : (Response.bytes b).dout = b := rfl
@[simp] theorem missing_absent : Response.missing.absent = true := rfl

/-! ## The ordered checks -/

@[simp] theorem firstError_nil : firstError [] = none := rfl

@[simp] theorem firstError_cons (c : Bool) (st : Status) (cs : List Check) :
    firstError ((c, st) :: cs) = if c then some st else firstError cs := rfl

theorem firstError_append (cs ds : List Check) :
    firstError (cs ++ ds) = (firstError cs).or (firstError ds) := by
  induction cs with
  | nil => simp
  | cons c cs ih =>
    obtain ⟨c, st⟩ := c
    cases c <;> simp [ih]

/-- No check applies exactly when every condition is false. -/
theorem firstError_eq_none {cs : List Check} : firstError cs = none ↔ ∀ c ∈ cs, c.1 = false := by
  induction cs with
  | nil => simp
  | cons c cs ih =>
    obtain ⟨c, st⟩ := c
    cases c <;> simp [ih]

/-- A reported status is that of a check whose condition holds. -/
theorem mem_of_firstError {cs : List Check} {st : Status} (h : firstError cs = some st) :
    (true, st) ∈ cs := by
  induction cs with
  | nil => simp at h
  | cons c cs ih =>
    obtain ⟨c, st'⟩ := c
    cases c with
    | true => simp at h; simp [h]
    | false => simp at h; exact List.mem_cons_of_mem _ (ih h)

theorem guarded_pass {cs : List Check} (s : State) (k : State → Out) (h : firstError cs = none) :
    guarded cs s k = k s := by simp [guarded, h]

theorem guarded_stop {cs : List Check} {st : Status} (s : State) (k : State → Out)
    (h : firstError cs = some st) : guarded cs s k = .next (s.respond (Response.bare st)) := by
  simp [guarded, h, raise_eq]

/-- Everything a guarded operation can do: end with the first check that applies, or go on. -/
theorem guarded_cases {cs : List Check} {s t : State} {k : State → Out}
    (h : guarded cs s k = .next t) :
    (∃ st, firstError cs = some st ∧ t = s.respond (Response.bare st)) ∨
      (firstError cs = none ∧ k s = .next t) := by
  unfold guarded at h
  split at h
  · rename_i st hst
    rw [raise_eq] at h
    exact .inl ⟨st, hst, by cases h; rfl⟩
  · exact .inr ⟨‹_›, h⟩

/-! ## Going on with a value -/

@[simp] theorem orFault_ok {α : Type} (a : α) (k : α → Out) : orFault (.ok a) k = k a := rfl
@[simp] theorem orFault_error {α : Type} (e : Fault) (k : α → Out) :
    orFault (.error e) k = .fault e := rfl

theorem orFault_cases {α : Type} {x : Except Fault α} {k : α → Out} {t : State}
    (h : orFault x k = .next t) : ∃ a, x = .ok a ∧ k a = .next t := by
  cases x with
  | ok a => exact ⟨a, rfl, h⟩
  | error e => cases h

/-- Everything an update of the packet can do: write P and end with OK. -/
theorem updatePacket_cases {x : Except Fault Packet} {s t : State}
    (h : updatePacket x s = .next t) :
    ∃ p, x = .ok p ∧ t = (s.setPacket p).respond Response.done := by
  obtain ⟨p, hp, hk⟩ := orFault_cases h
  exact ⟨p, hp, by simpa using hk.symm⟩

@[simp] theorem updatePacket_ok (p : Packet) (s : State) :
    updatePacket (.ok p) s = .next ((s.setPacket p).respond Response.done) := rfl

/-! ## Sealing and validating -/

@[simp] theorem fcsBytes_basic {p : Packet} (h : p.kind = .basic) : p.fcsBytes = 0 := by
  simp [Packet.fcsBytes, fcsBytes, h]

theorem layoutFcsBytes_layout (p : Packet) : layoutFcsBytes p.layout = p.fcsBytes := rfl

theorem fcsBytes_le_minSize (p : Packet) : 5 + widthBytes p.width + p.fcsBytes = minSize p.layout := rfl

/-- Everything `Seal` can do to a packet whose buffer is an image at least F bytes long: nothing when
there is no checksum field, and otherwise the last F bytes become the checksum of the others. -/
theorem sealed_image {p : Packet} {image : List Byte} (hn : image.length = p.n)
    (hb : p.buf = Memory.ofBytes 0 image) (hf : p.fcsBytes ≤ p.n) :
    p.sealed = .ok (if p.fcsBytes = 0 then p else
      { p with buf := Memory.ofBytes 0 (image.take p.fcsOffset ++
          le p.fcsBytes (compute p.policy (image.take p.fcsOffset)).toNat) }) := by
  unfold Packet.sealed
  cases hk : p.kind with
  | basic => simp [hk]
  | framed =>
    by_cases h0 : p.fcsBytes = 0
    · simp [h0]
    · have hoff : p.fcsOffset + p.fcsBytes = p.n := by unfold Packet.fcsOffset; omega
      simp only [h0, if_false, Packet.covered, bytesAt_image hn hb]
      rw [if_pos (by omega)]
      simp only [List.drop_zero, Packet.memWrite]
      rw [storeBytes_ok (by simp; omega), hb, store_ofBytes _ _ _ (by simp; omega)]
      rw [List.drop_eq_nil_of_le (by simp; omega), List.append_nil, hk]

/-- Everything `IsValid` can answer on a packet whose buffer is an image at least F bytes long. -/
theorem isValid_image {p : Packet} {image : List Byte} (hn : image.length = p.n)
    (hb : p.buf = Memory.ofBytes 0 image) (hf : p.fcsBytes ≤ p.n) :
    p.isValid = .ok (decide (p.fcsBytes = 0 ∨
      (compute p.policy (image.take p.fcsOffset)).toNat = unLE (image.drop p.fcsOffset))) := by
  unfold Packet.isValid
  cases hk : p.kind with
  | basic => simp [hk]
  | framed =>
    by_cases h0 : p.fcsBytes = 0
    · simp [h0]
    · have hoff : p.fcsOffset + p.fcsBytes = p.n := by unfold Packet.fcsOffset; omega
      simp only [h0, if_false, Packet.covered, bytesAt_image hn hb, memRead_image hn hb]
      rw [if_pos (by omega), if_pos (by omega),
        List.take_of_length_le (l := image.drop p.fcsOffset) (by simp; omega)]
      simp

end Sys2Proof.Laws
end

