-- ==== Sys2Proof/Laws/PerInstr.lean ====
section
/-!
SUPPORT. A law of every instruction as syntax, one lemma per constructor: the command word of its
encoding carries its opcode in bits 7:0 (R78, R79).
-/

namespace Sys2Proof.Laws.EncodedOpcode

/-- Bits 7:0 of the encoded command word are the opcode. -/
def Statement (i : Instr) : Prop := cmdOp (encode i).cmd = opcode i

theorem hdrDecode (din : List Byte) : Statement (.hdrDecode din) := cmdOp_cmdWord ..
theorem hdrEncode : Statement .hdrEncode := cmdOp_cmdWord ..
theorem hdrRaw (raw16 receiverId : Word16) : Statement (.hdrRaw raw16 receiverId) := cmdOp_cmdWord ..
theorem hdrFields (type : BitVec 4) (encrypted fragmented : BitVec 1) (priority flags : BitVec 8)
    (validated reserved : BitVec 1) (receiverId : Word16) :
    Statement (.hdrFields type encrypted fragmented priority flags validated reserved receiverId) :=
  cmdOp_cmdWord ..
theorem hdrSetRcv (receiverId : Word16) : Statement (.hdrSetRcv receiverId) := cmdOp_cmdWord ..
theorem hdrGet (field : HdrField) : Statement (.hdrGet field) := cmdOp_cmdWord ..
theorem pktNew (lay : Layout) (n : BitVec 32) (taskId : Word64) (status : Word16)
    (seed : Option Word64) (payload : List Byte) :
    Statement (.pktNew lay n taskId status seed payload) := by
  cases seed <;> exact cmdOp_cmdWord ..
theorem pktToBytes : Statement .pktToBytes := cmdOp_cmdWord ..
theorem pktFromBytes (lay : Layout) (raw : List Byte) : Statement (.pktFromBytes lay raw) :=
  cmdOp_cmdWord ..
theorem pktGetHdr : Statement .pktGetHdr := cmdOp_cmdWord ..
theorem pktSetHdr : Statement .pktSetHdr := cmdOp_cmdWord ..
theorem pktGetStat : Statement .pktGetStat := cmdOp_cmdWord ..
theorem pktSetStat (status : Word16) : Statement (.pktSetStat status) := cmdOp_cmdWord ..
theorem pktGetTask : Statement .pktGetTask := cmdOp_cmdWord ..
theorem pktSetTask (taskId : Word64) : Statement (.pktSetTask taskId) := cmdOp_cmdWord ..
theorem pktGetPay : Statement .pktGetPay := cmdOp_cmdWord ..
theorem pktSetPay (payload : List Byte) : Statement (.pktSetPay payload) := cmdOp_cmdWord ..
theorem pktGetFcs : Statement .pktGetFcs := cmdOp_cmdWord ..
theorem pktSetFcs (value : Word64) : Statement (.pktSetFcs value) := cmdOp_cmdWord ..
theorem ckCompute (policy : Policy) (bytes : List Byte) : Statement (.ckCompute policy bytes) :=
  cmdOp_cmdWord ..
theorem ckInit (policy : Policy) : Statement (.ckInit policy) := cmdOp_cmdWord ..
theorem ckUpdate (chunk : List Byte) : Statement (.ckUpdate chunk) := cmdOp_cmdWord ..
theorem ckFinal : Statement .ckFinal := cmdOp_cmdWord ..
theorem valSeal : Statement .valSeal := cmdOp_cmdWord ..
theorem valIsValid : Statement .valIsValid := cmdOp_cmdWord ..
theorem txPrep : Statement .txPrep := cmdOp_cmdWord ..
theorem rxAccept (lay : Layout) (n : BitVec 32) (raw : List Byte) :
    Statement (.rxAccept lay n raw) := cmdOp_cmdWord ..

end Sys2Proof.Laws.EncodedOpcode
end

