-- ==== Sys2Proof/Tests/Slice0.lean ====
section
/-!
SUPPORT. The model's own tests.  Every expected value is the spec's: 30_encoding.md for the command
words, 95_test_vectors.md for the vectors (its section is named at each test).  The last part shows, for each
obligation that has hypotheses, states and operands that meet them, at the boundary of each clause.
-/

namespace Sys2Proof.Tests

open Sys2Proof.Machine Sys2Proof.Safety

/-! ## Helpers -/

/-- The response a step left on the response port. -/
def respOf (o : Out) : Option Response :=
  match o with
  | .next s => s.response
  | _ => none

/-- A component of the next state. -/
def fieldOf {α : Type} (o : Out) (f : State → α) : Option α :=
  match o with
  | .next s => some (f s)
  | _ => none

/-- The bytes of the packet buffer after a step. -/
def imageOf (o : Out) : Option (List Byte) := fieldOf o fun s => s.p.buf.map Prod.snd

/-- Board A of 95_test_vectors.md, just reset. -/
def boardA : State := State.resetWith { wordUnit := 4, pktMax := none } 1 0x2A

/-- Board B of 95_test_vectors.md, just reset. -/
def boardB : State := State.resetWith { wordUnit := 4, pktMax := none } 1 0x07

/-- The header `AE A5 2A 07` in H. -/
def hdrA (s : State) : State := s.loadHeader 0xA5AE 0x2A 0x07

/-- Framed, W = 2, crc16. -/
def layA : Layout := { kind := .framed, width := .w2, policy := .crc16 }

/-- Basic, W = 2. -/
def layBasic : Layout := { kind := .basic, width := .w2, policy := .none }

/-- The 16-byte packet of program 1 before sealing. -/
def imgRaw : List Byte :=
  [0xAE, 0xA5, 0x2A, 0x07, 0x00, 0x34, 0x12, 0xDE, 0xAD, 0xBE, 0xEF, 0, 0, 0, 0, 0]

/-- The 16-byte packet of program 1 after sealing. -/
def img : List Byte :=
  [0xAE, 0xA5, 0x2A, 0x07, 0x00, 0x34, 0x12, 0xDE, 0xAD, 0xBE, 0xEF, 0, 0, 0, 0x04, 0x1F]

/-- A state that holds a packet with a given layout and image, and the header `AE A5 2A 07`. -/
def holding (lay : Layout) (image : List Byte) : State :=
  (hdrA boardA).setPacket (buildPacket boardA.p lay image.length image)

/-- The nine bytes "123456789". -/
def digits : List Byte := [0x31, 0x32, 0x33, 0x34, 0x35, 0x36, 0x37, 0x38, 0x39]

/-- A stream computation under fletcher32 that has consumed `31 32 33` (95_test_vectors.md 4.3). -/
def streaming : State :=
  boardA.setStream
    { active := true, policy := .fletcher32, acc := { a := 0x3132, b := 0x3132, pv := true, pend := 0x33 } }

/-! ## Well-formedness: an ill-formed term for each check -/

theorem test_wf_refuses_new_basic_with_policy :
    (Instr.pktNew { layA with kind := .basic } 8 0 0 none []).wf = false := by decide
theorem test_wf_refuses_new_basic_with_seed :
    (Instr.pktNew layBasic 8 0 0 (some 1) []).wf = false := by decide
theorem test_wf_refuses_frombytes_basic_with_policy :
    (Instr.pktFromBytes { layA with kind := .basic } []).wf = false := by decide
theorem test_wf_refuses_accept_basic_with_policy :
    (Instr.rxAccept { layA with kind := .basic } 8 []).wf = false := by decide
theorem test_wf_accepts_framed_seed :
    (Instr.pktNew layA 8 0 0 (some 1) []).wf = true := by decide

/-! ## Decoding: one word per constructor, written from R79 and the command words of
95_test_vectors.md -/

theorem test_decode_hdrDecode : decodeTableWord 16 0x0001 = some (.hdrDecode []) := by decide
theorem test_decode_hdrEncode : decodeTableWord 16 0x0002 = some .hdrEncode := by decide
theorem test_decode_hdrRaw : decodeTableWord 16 0x0003 = some (.hdrRaw 0 0) := by decide
theorem test_decode_hdrFields :
    decodeTableWord 16 0x0004 = some (.hdrFields 0 0 0 0 0 0 0 0) := by decide
theorem test_decode_hdrSetRcv : decodeTableWord 16 0x0005 = some (.hdrSetRcv 0) := by decide
theorem test_decode_hdrGet : decodeTableWord 16 0x0A06 = some (.hdrGet .receiverId) := by decide
theorem test_decode_pktNew : decodeTableWord 16 0x5510 = some (.pktNew layA 0 0 0 none []) := by
  decide
theorem test_decode_pktNew_seed :
    decodeTableWord 16 0xC510 = some (.pktNew { layA with width := .w1 } 0 0 0 (some 0) []) := by
  decide
theorem test_decode_pktToBytes : decodeTableWord 16 0x0011 = some .pktToBytes := by decide
theorem test_decode_pktFromBytes :
    decodeTableWord 16 0x6112 = some (.pktFromBytes ⟨.framed, .w4, .sum8⟩ []) := by decide
theorem test_decode_pktGetHdr : decodeTableWord 16 0x0013 = some .pktGetHdr := by decide
theorem test_decode_pktSetHdr : decodeTableWord 16 0x0014 = some .pktSetHdr := by decide
theorem test_decode_pktGetStat : decodeTableWord 16 0x0015 = some .pktGetStat := by decide
theorem test_decode_pktSetStat : decodeTableWord 16 0x0016 = some (.pktSetStat 0) := by decide
theorem test_decode_pktGetTask : decodeTableWord 16 0x0017 = some .pktGetTask := by decide
theorem test_decode_pktSetTask : decodeTableWord 16 0x0018 = some (.pktSetTask 0) := by decide
theorem test_decode_pktGetPay : decodeTableWord 16 0x0019 = some .pktGetPay := by decide
theorem test_decode_pktSetPay : decodeTableWord 16 0x001A = some (.pktSetPay []) := by decide
theorem test_decode_pktGetFcs : decodeTableWord 16 0x001B = some .pktGetFcs := by decide
theorem test_decode_pktSetFcs : decodeTableWord 16 0x001C = some (.pktSetFcs 0) := by decide
theorem test_decode_ckCompute : decodeTableWord 16 0x0520 = some (.ckCompute .crc16 []) := by decide
theorem test_decode_ckInit : decodeTableWord 16 0x0B21 = some (.ckInit .internet16) := by decide
theorem test_decode_ckUpdate : decodeTableWord 16 0x0022 = some (.ckUpdate []) := by decide
theorem test_decode_ckFinal : decodeTableWord 16 0x0023 = some .ckFinal := by decide
theorem test_decode_valSeal : decodeTableWord 16 0x0030 = some .valSeal := by decide
theorem test_decode_valIsValid : decodeTableWord 16 0x0031 = some .valIsValid := by decide
theorem test_decode_txPrep : decodeTableWord 16 0x0040 = some .txPrep := by decide
theorem test_decode_rxAccept : decodeTableWord 16 0x3041 = some (.rxAccept ⟨.basic, .w8, .none⟩ 0 []) := by
  decide

/-- 95_test_vectors.md section 8: every illegal command word it lists. -/
theorem test_decode_refuses :
    ([0x0000, 0x0007, 0x00FF, 0x0102, 0x0B06, 0x1006, 0x0C20, 0x4520, 0x1510, 0x9010, 0x5F10, 0xD512,
      0xD541, 0x4030].map fun w => decodeTableWord 16 w) = List.replicate 14 none := by decide

/-- The names of the refusals, one word of section 8 for each. -/
theorem test_decode_refuses_by_name :
    ([0x0007, 0x0102, 0x5F10, 0x0B06, 0x1510, 0x9010].map fun w => (decode { cmd := w }).toOption) =
      List.replicate 6 none ∧
    (match decode { cmd := 0x1510 } with | .error e => some e | .ok _ => none) =
      some DecodeError.basicWithPolicy ∧
    (match decode { cmd := 0x9010 } with | .error e => some e | .ok _ => none) =
      some DecodeError.basicWithSeed := by decide

/-! ## The header codec (95_test_vectors.md section 2) -/

theorem test_hdrFields_space :
    fieldOf (exec (.hdrFields 0xA 0 1 13 0x0B 1 0 0x07) boardA) (·.h) =
      some { valid := true, space := 0xA5AE, sender := 0x2A, receiver := 0x07 } := by decide
theorem test_hdrFields_range :
    respOf (exec (.hdrFields 0 0 0 0 0 0 0 256) boardA) = some (Response.bare .eReceiverRange) := by
  decide
theorem test_hdrRaw_space :
    fieldOf (exec (.hdrRaw 0xFFFF 0xFF) boardA) (·.h) =
      some { valid := true, space := 0xF7FF, sender := 0x2A, receiver := 0xFF } := by decide
theorem test_hdrDecode_bytes :
    fieldOf (exec (.hdrDecode [0x34, 0x12, 0x56, 0x78]) boardA) (·.h) =
      some { valid := true, space := 0x1234, sender := 0x56, receiver := 0x78 } := by decide
theorem test_hdrDecode_length :
    respOf (exec (.hdrDecode [0x34, 0x12, 0x56]) boardA) = some (Response.bare .eOperandLength) := by
  decide
theorem test_hdrEncode_bytes :
    respOf (exec .hdrEncode (hdrA boardA)) = some (Response.bytes [0xAE, 0xA5, 0x2A, 0x07]) := by
  decide
theorem test_hdrEncode_empty :
    respOf (exec .hdrEncode boardA) = some (Response.bare .eNoObject) := by decide
theorem test_hdrSetRcv_accepts :
    fieldOf (exec (.hdrSetRcv 0x10) (hdrA boardA)) (·.h) =
      some { valid := true, space := 0xA5AE, sender := 0x2A, receiver := 0x10 } := by decide
theorem test_hdrSetRcv_range :
    respOf (exec (.hdrSetRcv 0x100) (hdrA boardA)) = some (Response.bare .eReceiverRange) := by decide
/-- R109's example, and 2.3's first decode. -/
theorem test_hdrGet_fields :
    ([HdrField.space, .type, .version, .encrypted, .fragmented, .priority, .flags, .validated,
      .reserved, .senderId, .receiverId].map (hdrField (boardA.loadHeader 0x1234 0x56 0x78).h)) =
      [0x1234, 1, 0, 1, 0, 1, 5, 0, 0, 0x56, 0x78] := by decide

/-! ## The packet layout engine (section 3, program 1) -/

theorem test_pktNew_image :
    imageOf (exec (.pktNew layA 16 0x1234 0 none [0xDE, 0xAD, 0xBE, 0xEF]) (hdrA boardA)) =
      some imgRaw := by decide
/-- Section 3.3: the check order, and the seed. -/
theorem test_pktNew_checks :
    ([Instr.pktNew layBasic 6 0 0 none [], .pktNew layBasic 7 0 0 none [],
      .pktNew layBasic 8 0x10000 256 none [0x31, 0x32], .pktNew layBasic 8 0xFFFF 256 none [0x31, 0x32],
      .pktNew layBasic 8 0xFFFF 255 none [0x31, 0x32],
      .pktNew { layA with width := .w1 } 8 0xFF 0 (some 0x10000) []].map
        fun i => (respOf (exec i (hdrA boardA))).map (·.status)) =
      [some .eTooSmall, some .eNotAligned, some .eTaskIdRange, some .eStatusRange,
        some .ePayloadTooLarge, some .eFcsRange] := by decide
theorem test_pktToBytes_image :
    respOf (exec .pktToBytes (holding layA img)) = some (Response.bytes img) := by decide
theorem test_pktFromBytes_image :
    fieldOf (exec (.pktFromBytes layA img) boardA) (·.p) = some (holding layA img).p := by decide
theorem test_pktFromBytes_unaligned :
    respOf (exec (.pktFromBytes layA (img.take 15)) boardA) = some (Response.bare .eNotAligned) := by
  decide
theorem test_pktGetHdr_header :
    fieldOf (exec .pktGetHdr ((holding layA img).loadHeader 0 0 0)) (·.h) =
      some (hdrA boardA).h := by decide
theorem test_pktSetHdr_bytes :
    imageOf (exec .pktSetHdr ((holding layA img).loadHeader 0xA5AE 0x2A 0x10)) =
      some (img.set 3 0x10) := by decide
theorem test_pktGetStat_value :
    respOf (exec .pktGetStat (holding layA (img.set 4 0x7F))) = some (Response.value 127) := by decide
theorem test_pktSetStat_byte :
    imageOf (exec (.pktSetStat 200) (holding layA img)) = some (img.set 4 0xC8) := by decide
theorem test_pktSetStat_range :
    respOf (exec (.pktSetStat 256) (holding layA img)) = some (Response.bare .eStatusRange) := by decide
/-- Section 3.4: one image under W = 8. -/
theorem test_pktGetTask_value :
    respOf (exec .pktGetTask (holding ⟨.basic, .w8, .none⟩ img)) =
      some (Response.value 0x0000EFBEADDE1234) := by decide
theorem test_pktSetTask_bytes :
    imageOf (exec (.pktSetTask 0xBEEF) (holding layA img)) =
      some ((img.set 5 0xEF).set 6 0xBE) := by decide
theorem test_pktSetTask_range :
    respOf (exec (.pktSetTask 0x10000) (holding layA img)) = some (Response.bare .eTaskIdRange) := by
  decide
theorem test_pktGetPay_bytes :
    respOf (exec .pktGetPay (holding layA img)) =
      some (Response.bytes [0xDE, 0xAD, 0xBE, 0xEF, 0, 0, 0]) := by decide
theorem test_pktSetPay_zeroes_tail :
    imageOf (exec (.pktSetPay [1, 2]) (holding layA img)) =
      some (img.take 7 ++ [1, 2, 0, 0, 0, 0, 0] ++ img.drop 14) := by decide
theorem test_pktSetPay_too_large :
    respOf (exec (.pktSetPay (digits.take 8)) (holding layA img)) =
      some (Response.bare .ePayloadTooLarge) := by decide
theorem test_pktGetFcs_value :
    respOf (exec .pktGetFcs (holding layA img)) = some (Response.value 0x1F04) := by decide
theorem test_pktGetFcs_absent :
    respOf (exec .pktGetFcs (holding layBasic img)) =
      some { status := .ok, res := 0, absent := true, dout := [] } := by decide
theorem test_pktSetFcs_bytes :
    imageOf (exec (.pktSetFcs 0xABCD) (holding layA img)) = some ((img.set 14 0xCD).set 15 0xAB) := by
  decide
theorem test_pktSetFcs_absent_first :
    respOf (exec (.pktSetFcs (2 ^ 63)) (holding { layA with policy := .none } img)) =
      some (Response.bare .eFcsAbsent) := by decide

/-! ## The checksum engine (sections 1.1, 1.2, 4.1, 4.3) -/

/-- Section 1.1, and `none`. -/
theorem test_compute_check_values :
    ([Policy.none, .sum8, .sum16, .sum32, .crc8, .crc16, .crc32, .crc64, .fletcher16, .fletcher32,
      .adler32, .internet16].map fun p => compute p digits) =
      [0, 0xDD, 0x01DD, 0x1DD, 0xF4, 0x31C3, 0xCBF43926, 0x6C40DF5F0B497347, 0x1EDE, 0x09DF09D5,
        0x091E01DE, 0xF62A] := by decide +kernel
/-- Section 1.2. -/
theorem test_compute_empty :
    ([Policy.none, .sum8, .sum16, .sum32, .crc8, .crc16, .crc32, .crc64, .fletcher16, .fletcher32,
      .adler32, .internet16].map fun p => compute p []) =
      [0, 0, 0, 0, 0, 0, 0, 0, 0, 0, 1, 0xFFFF] := by decide +kernel
/-- Section 4.1, row `FF FF`. -/
theorem test_compute_ff_ff :
    ([Policy.sum8, .sum16, .sum32, .crc8, .crc16, .crc32, .crc64, .fletcher16, .fletcher32,
      .adler32, .internet16].map fun p => compute p [0xFF, 0xFF]) =
      [0xFE, 0x1FE, 0x1FE, 0x24, 0x1D0F, 0xFFFF0000, 0xE15A528AE9B2F7BD, 0, 0, 0x02FF01FF, 0] := by
  decide +kernel
theorem test_ckCompute_value :
    respOf (exec (.ckCompute .crc16 digits) boardA) = some (Response.value 0x31C3) := by
  decide +kernel
theorem test_ckInit_adler :
    fieldOf (exec (.ckInit .adler32) boardA) (·.k) =
      some { active := true, policy := .adler32, acc := { a := 1, b := 0, pv := false, pend := 0 } } := by
  decide
theorem test_ckUpdate_odd_chunk :
    fieldOf (exec (.ckUpdate [0x34, 0x35, 0x36, 0x37]) streaming) (·.k.acc) =
      some { a := 0x999C, b := 0x2F35, pv := true, pend := 0x37 } := by decide
theorem test_ckUpdate_inactive :
    respOf (exec (.ckUpdate [0x31]) boardA) = some (Response.bare .eNoObject) := by decide
/-- Section 4.3's last row: the flush of `39`. -/
theorem test_ckFinal_flush :
    respOf (exec .ckFinal (boardA.setStream { streaming.k with
      acc := { a := 0xD0D4, b := 0x000A, pv := true, pend := 0x39 } })) =
      some (Response.value 0x09DF09D5) := by decide

/-! ## Validator and pipeline (sections 5 and 7) -/

theorem test_valSeal_crc16 :
    imageOf (exec .valSeal (holding layA imgRaw)) = some img := by decide +kernel
/-- Section 5.1, the crc64 image. -/
theorem test_valSeal_crc64 :
    imageOf (exec .valSeal (holding ⟨.framed, .w2, .crc64⟩ (img.take 14 ++ zeros 6))) =
      some (img.take 12 ++ [0x22, 0x5E, 0xEF, 0x6D, 0x3F, 0xF9, 0xEB, 0x1A]) := by decide +kernel
theorem test_valIsValid_sealed :
    respOf (exec .valIsValid (holding layA img)) = some (Response.value 1) := by decide +kernel
theorem test_valIsValid_modified :
    respOf (exec .valIsValid (holding layA (img.set 8 0xAC))) = some (Response.value 0) := by
  decide +kernel
theorem test_txPrep_image :
    respOf (exec .txPrep (holding layA imgRaw)) = some (Response.bytes img) := by decide +kernel
theorem test_txPrep_basic :
    respOf (exec .txPrep (holding layBasic imgRaw)) = some (Response.bytes imgRaw) := by
  decide +kernel
/-- Program 2, row 1. -/
theorem test_rxAccept_accepts :
    fieldOf (exec (.rxAccept layA 16 img) boardB) (·.p) = some (holding layA img).p := by
  decide +kernel
/-- Program 2, rows 3, 5 and 6, and a board with another id (row 2). -/
theorem test_rxAccept_turns_away :
    ([respOf (exec (.rxAccept layA 16 (img.set 8 0xAC)) boardB),
      respOf (exec (.rxAccept layA 8 (img.take 8)) boardB),
      respOf (exec (.rxAccept layA 16 (img.take 12)) boardB),
      respOf (exec (.rxAccept layA 16 img) boardA)].map fun r => r.map (·.status)) =
      [some .noPacket, some .eTooSmall, some .eOperandLength, some .noPacket] := by decide +kernel

/-! ## The step -/

/-- R83, R237: 0x1510 with no header loaded is `E_ILLEGAL_OP`, not `E_NO_OBJECT`. -/
theorem test_step_illegal :
    respOf (step (boardA.withFetchWord 16 0x1510)) = some (Response.bare .eIllegalOp) := by decide
theorem test_step_runs_request :
    fieldOf (step (boardA.push (encode (.hdrRaw 0x1234 7)))) (·.h.space) = some 0x1634 := by decide
theorem test_step_reset :
    fieldOf (step { hdrA boardA with events := [.reset 3 9] }) id =
      some (State.resetWith boardA.params 3 9) := by decide

/-! ## Witnesses: each obligation's hypotheses are met, clause by clause, at the boundary values -/

open Sys2Proof.Claims

/-- `WORD_UNIT` = 4 and `PKT_MAX` = 16. -/
def bounded : Params := { wordUnit := 4, pktMax := some 16 }

/-- Board A with a header loaded and a bounded buffer. -/
def boundedA : State := { hdrA boardA with params := bounded }

/-- A state whose next event is a request. -/
def asked (s : State) (r : Request) : State := { s with events := [.request r] }

theorem witness_wf : (Instr.pktNew layA 16 0x1234 0 (some 0xFFFF) img).wf = true ∧
    (Instr.rxAccept layBasic 16 img).wf = true := by (repeat' apply And.intro) <;> decide

theorem witness_decoded : decode { cmd := 0x5510, n := 16, taskId := 0x1234, din := img } =
    .ok (.pktNew layA 16 0x1234 0 none img) := by rfl

/-- A legal request and, for each disjunct of `illegal`, a word at its boundary, as next event. -/
theorem witness_illegal :
    (asked boardA { cmd := 0x5510 }).events = [.request { cmd := 0x5510 }] ∧ ¬illegal 0x5510 ∧
    illegal 0x0000 ∧ illegal 0x0007 ∧ illegal 0x000F ∧ illegal 0x001D ∧ illegal 0x0024 ∧
    illegal 0x0042 ∧ illegal 0x00FF ∧ illegal 0x0102 ∧ illegal 0x1006 ∧ illegal 0x0B06 ∧
    illegal 0x0C20 ∧ illegal 0x4C10 ∧ illegal 0xC012 ∧ illegal 0x0110 ∧ illegal 0x8010 := by (repeat' apply And.intro) <;> decide

theorem witness_not_illegal : ¬illegal 0x0A06 ∧ ¬illegal 0x0B21 ∧ ¬illegal 0xFB10 ∧ ¬illegal 0x7B41 ∧
    ¬illegal 0x3012 ∧ ¬illegal 0x0001 := by (repeat' apply And.intro) <;> decide

theorem witness_step_runs :
    (asked boardA { cmd := 0x0031 }).events = .request { cmd := 0x0031 } :: [] ∧
      decode { cmd := 0x0031 } = .ok .valIsValid := ⟨rfl, rfl⟩

theorem witness_reset_and_idle :
    ({ hdrA boardA with events := [.reset 3 0xFF] } : State).events = .reset 3 0xFF :: [] ∧
      boardA.events = [] := by (repeat' apply And.intro) <;> decide

/-- A step of each kind: a reset event, a request, nothing; and an operation. -/
theorem witness_next_states :
    (∃ t, step { holding layA img with events := [.reset 3 0xFF] } = .next t) ∧
    (∃ t, step (asked (holding layA img) { cmd := 0x0031 }) = .next t) ∧
    (∃ t, step (holding layA img) = .next t) ∧
    ∃ t, exec .pktGetHdr (holding layA img) = .next t := ⟨⟨_, rfl⟩, ⟨_, rfl⟩, ⟨_, rfl⟩, ⟨_, rfl⟩⟩

/-- The invariant is met by states that hold packets of both kinds, at the least size too, and by one
with an active stream; the first one's step is a request's. -/
theorem witness_invariant :
    Inv (asked (holding layA img) { cmd := 0x0016, status := 0xFF }) ∧ Inv (holding layBasic img) ∧
    Inv (holding ⟨.framed, .w1, .crc16⟩ (img.take 8)) ∧ Inv streaming ∧ bounded.wf = true := by (repeat' apply And.intro) <;> decide

/-- The statuses that are not OK: an illegal word, an error, NO_PACKET. -/
theorem witness_errors :
    (fieldOf (step (asked (holding layA img) { cmd := 0x0000 })) (·.response)) =
      some (some (only .eIllegalOp)) ∧
    (fieldOf (step (asked (holding layA img) { cmd := 0x0016, status := 256 })) (·.response)) =
      some (some (only .eStatusRange)) ∧
    (fieldOf (step (asked boardA { cmd := 0x5541, n := 16, din := img })) (·.response)) =
      some (some (only .noPacket)) ∧
    Status.eIllegalOp ≠ .ok ∧ Status.eStatusRange ≠ .ok ∧ Status.noPacket ≠ .ok := by (repeat' apply And.intro) <;> decide +kernel

/-- Two states that differ in the content of every empty context, and two that differ in a Basic
packet's policy. -/
theorem witness_same_observable :
    let s : State := { boardA with h := ⟨false, 7, 8, 9⟩, p := { boardA.p with n := 3 } }
    let t := holding layBasic img
    let u : State := { t with p := { t.p with policy := .crc64 } }
    SameObservable boardA s ∧ boardA ≠ s ∧ SameObservable t u ∧ t ≠ u := by
  unfold SameObservable SamePacket
  (repeat' apply And.intro) <;> decide

theorem witness_empty_context :
    readsHeader .hdrEncode = true ∧ readsPacket .pktSetHdr = true ∧ readsStream .ckFinal = true ∧
    boardA.h.valid = false ∧ (hdrA boardA).p.valid = false ∧ boardA.k.active = false := by (repeat' apply And.intro) <;> decide

/-- Header operations: byte strings that are not four bytes, a header that is there and one that is
not, receivers 255 and 256. -/
theorem witness_header_operations :
    ([] : List Byte).length ≠ 4 ∧ (img.take 3).length ≠ 4 ∧ (img.take 5).length ≠ 4 ∧
    (hdrA boardA).h.valid = true ∧ boardA.h.valid = false ∧
    (0xFF : Word16).toNat ≤ 255 ∧ 255 < (0x100 : Word16).toNat := by (repeat' apply And.intro) <;> decide

/-- The first-error statement of PKT.NEW: for each clause, operands that meet every hypothesis on its
way, at the boundary (sizes 17, 16, 8, 9, 12 under `PKT_MAX` = 16 and `WORD_UNIT` = 4; W = 2, F = 2). -/
theorem witness_new_errors :
    boardA.h.valid = false ∧ boundedA.h.valid = true ∧
    ¬withinMax bounded 17 ∧ withinMax bounded 16 ∧ withinMax bounded 8 ∧ withinMax bounded 9 ∧
    8 < 5 + widthOf layA.width + fOf layA ∧ 5 + widthOf layA.width + fOf layA ≤ 9 ∧ 9 % 4 ≠ 0 ∧
    goodSize bounded layA 12 ∧ goodSize bounded layA 16 ∧
    2 ^ (8 * widthOf layA.width) ≤ (0x10000 : Word64).toNat ∧
    (0xFFFF : Word64).toNat < 2 ^ (8 * widthOf layA.width) ∧
    255 < (0x100 : Word16).toNat ∧ (0xFF : Word16).toNat ≤ 255 ∧
    16 - (5 + widthOf layA.width + fOf layA) < (digits.take 8).length ∧
    (digits.take 7).length ≤ 16 - (5 + widthOf layA.width + fOf layA) ∧
    0 < fOf layA ∧ 2 ^ (8 * fOf layA) ≤ (0x10000 : Word64).toNat ∧
    (0xFFFF : Word64).toNat < 2 ^ (8 * fOf layA) := by
  simp only [withinMax, goodSize, bounded, Option.some.injEq, forall_eq']
  (repeat' apply And.intro) <;> decide

/-- PKT.NEW's success, with the payload field filled exactly and a seed of the full width. -/
theorem witness_new_builds :
    boundedA.h.valid = true ∧ withinMax bounded (16 : BitVec 32).toNat ∧
    goodSize bounded layA (16 : BitVec 32).toNat ∧ (0xFFFF : Word64).toNat < 2 ^ (8 * widthOf layA.width) ∧
    (0xFF : Word16).toNat ≤ 255 ∧
    (digits.take 7).length ≤ (16 : BitVec 32).toNat - (5 + widthOf layA.width + fOf layA) ∧
    ∀ v, some (0xFFFF : Word64) = some v → 0 < fOf layA → v.toNat < 2 ^ (8 * fOf layA) := by
  simp only [withinMax, goodSize, bounded, Option.some.injEq, forall_eq']
  (repeat' apply And.intro) <;> decide

/-- Parsing (PKT.FROMBYTES, the size law): each clause, under `PKT_MAX` = 16 and `WORD_UNIT` = 4. -/
theorem witness_parse :
    withinMax bounded img.length ∧ goodSize bounded layA img.length ∧
    ¬withinMax bounded (img ++ [0]).length ∧
    withinMax bounded (img.take 8).length ∧ ¬goodSize bounded layA (img.take 8).length ∧
    (img.take 8).length < 5 + widthOf layA.width + fOf layA ∧
    5 + widthOf layA.width + fOf layA ≤ (img.take 9).length ∧ (img.take 9).length % 4 ≠ 0 ∧
    withinMax bounded (img.take 9).length := by
  simp only [withinMax, goodSize, bounded, Option.some.injEq, forall_eq']
  (repeat' apply And.intro) <;> decide

/-- The round trip: a packet, another instance with the same parameters, the packet's layout; and a
successful parse. -/
theorem witness_round_trip :
    Inv (holding layA img) ∧ (holding layA img).p.valid = true ∧
    boardB.params = (holding layA img).params ∧ layoutOf layA (holding layA img).p ∧
    fieldOf (exec (.pktFromBytes layA img) boardB) (·.response) = some (some (only .ok)) := by
  unfold layoutOf
  (repeat' apply And.intro) <;> decide

/-- Accessors: a packet that is there, a packet and a header, neither; operands at the last value that
fits and the first that does not (W = 2, F = 2, Pcap = 7); a packet without a checksum field. -/
theorem witness_accessors :
    let s := holding layA img
    Inv s ∧ s.p.valid = true ∧ s.h.valid = true ∧ boardA.h.valid = false ∧ boardA.p.valid = false ∧
    (0xFF : Word16).toNat ≤ 255 ∧ 255 < (0x100 : Word16).toNat ∧
    (0xFFFF : Word64).toNat < 2 ^ (8 * widthOf s.p.width) ∧
    2 ^ (8 * widthOf s.p.width) ≤ (0x10000 : Word64).toNat ∧
    s.p.n - (5 + widthOf s.p.width) - fOf s.p.layout = 7 ∧ (digits.take 7).length ≤ 7 ∧
    7 < (digits.take 8).length ∧ 0 < fOf s.p.layout ∧
    (0xFFFF : Word64).toNat < 2 ^ (8 * fOf s.p.layout) ∧
    2 ^ (8 * fOf s.p.layout) ≤ (0x10000 : Word64).toNat ∧
    (holding layBasic img).p.valid = true ∧ fOf (holding layBasic img).p.layout = 0 := by (repeat' apply And.intro) <;> decide

/-- Streams: inactive, active, word-serial with and without a pending byte, a byte-serial one; chunks
of odd and even length whose last byte is there. -/
theorem witness_streams :
    boardA.k.active = false ∧ streaming.k.active = true ∧ wordSerial streaming.k.policy = true ∧
    streaming.k.acc.pv = true ∧
    (boardA.setStream ⟨true, .internet16, ckStart .internet16⟩).k.acc.pv = false ∧
    wordSerial .internet16 = true ∧ wordSerial .crc16 = false ∧
    digits.length % 2 = 1 ∧ ([] : List Byte).length % 2 = 0 ∧ (digits.take 2).length % 2 = 0 ∧
    digits.getLast? = some 0x39 ∧
    fieldOf (exec (.ckUpdate [0x34, 0x35]) streaming) (·.k.acc.pv) = some true := by (repeat' apply And.intro) <;> decide

/-- The reserved selectors of HDR.GET, CK.COMPUTE and CK.INIT, and a request that carries one. -/
theorem witness_reserved_selectors :
    (11 ≤ 11 ∧ 15 ≤ 15) ∧ (asked boardA { cmd := 0x0B06 }).events = .request { cmd := 0x0B06 } :: [] ∧
    (0x0B06 : Word16).toNat = 0x0006 + 256 * 11 ∧ (0x0F06 : Word16).toNat = 0x0006 + 256 * 15 ∧
    (0x0C20 : Word16).toNat = 0x0020 + 256 * 12 ∧ (0x0F21 : Word16).toNat = 0x0021 + 256 * 15 := by
  (repeat' apply And.intro) <;> decide

/-- The size law: an image of a size that is refused and the 32-bit operand of that size; an operation
that makes a packet and succeeds. -/
theorem witness_size_law :
    (8 : BitVec 32).toNat = (img.take 8).length ∧ ¬goodSize bounded layA (img.take 8).length ∧
    withinMax bounded (8 : BitVec 32).toNat ∧ boundedA.h.valid = true ∧
    ¬goodSize bounded layA (8 : BitVec 32).toNat ∧
    makesPacket (.pktNew layA 16 0 0 none []) = true ∧
    fieldOf (exec (.pktNew layA 16 0 0 none []) boundedA) (·.response) = some (some (only .ok)) := by
  simp only [withinMax, goodSize, bounded, Option.some.injEq, forall_eq']
  (repeat' apply And.intro) <;> decide

theorem witness_stream_private : writesStream (.ckCompute .fletcher32 digits) = false ∧
    writesStream .valSeal = false := by (repeat' apply And.intro) <;> decide

/-- Sealing and validating: the covered bytes of a packet, a checksum field that holds the checksum
and one that does not, packets without one. -/
theorem witness_seal :
    Inv (holding layA img) ∧ (holding layA img).p.valid = true ∧ boardA.p.valid = false ∧
    isCovered (holding layA img).p (img.take 14) ∧ 0 < fOf layA ∧
    (leBytes 2 (compute .crc16 (img.take 14)) = img.drop 14) ∧
    (leBytes 2 (compute .crc16 (img.take 14)) ≠ imgRaw.drop 14) ∧
    isCovered (holding layA imgRaw).p (img.take 14) ∧ Inv (holding layA imgRaw) ∧
    (holding layBasic img).p.valid = true ∧ fOf (holding layBasic img).p.layout = 0 := by
  unfold isCovered holdsAt
  (repeat' apply And.intro) <;> decide +kernel

/-- Mutations of program 1's sealed packet: of a covered byte at the first and the last offset, and of
the first and the last byte of the checksum field; under crc16. -/
theorem witness_mutation :
    let s := holding layA img
    Inv s ∧ s.p.valid = true ∧ s.p.kind = .framed ∧ s.p.policy ≠ .none ∧ s.p.policy ≠ .fletcher16 ∧
    respOf (exec .valIsValid s) = some (okRes 1) ∧
    0 < s.p.n - fOf s.p.layout ∧ 13 < s.p.n - fOf s.p.layout ∧ s.p.n - fOf s.p.layout ≤ 14 ∧
    15 < s.p.n ∧ s.p.buf.read 0 = some 0xAE ∧ s.p.buf.read 13 = some 0 ∧ s.p.buf.read 14 = some 0x04 ∧
    s.p.buf.read 15 = some 0x1F := by (repeat' apply And.intro) <;> decide +kernel

/-- A valid packet under fletcher16 whose last covered bytes are 0x00 (95_test_vectors.md section 6). -/
theorem witness_fletcher_mutation :
    let s := holding { layA with policy := .fletcher16 } (img.take 14 ++ [0x07, 0x48])
    Inv s ∧ s.p.valid = true ∧ s.p.kind = .framed ∧ s.p.policy = .fletcher16 ∧
    respOf (exec .valIsValid s) = some (okRes 1) ∧ 13 < s.p.n - 2 ∧ s.p.buf.read 13 = some 0 ∧
    s.p.buf.read 0 = some 0xAE := by (repeat' apply And.intro) <;> decide +kernel

/-- RX.ACCEPT: each clause of the first-error statement under `PKT_MAX` = 16 and `WORD_UNIT` = 4, at the
boundary. -/
theorem witness_accept_errors :
    (8 : BitVec 32).toNat < 5 + widthOf layA.width + fOf layA ∧
    5 + widthOf layA.width + fOf layA ≤ (9 : BitVec 32).toNat ∧
    (img.take 8).length ≠ (9 : BitVec 32).toNat ∧
    (img ++ [0]).length = (17 : BitVec 32).toNat ∧ ¬withinMax bounded (17 : BitVec 32).toNat ∧
    (img.take 9).length = (9 : BitVec 32).toNat ∧ withinMax bounded (9 : BitVec 32).toNat ∧
    (9 : BitVec 32).toNat % 4 ≠ 0 := by
  simp only [withinMax, bounded, Option.some.injEq, forall_eq']
  (repeat' apply And.intro) <;> decide

/-- RX.ACCEPT: an image that passes the checks; a board it is and one it is not addressed to; a good
and a bad checksum. -/
theorem witness_accept :
    img.length = (16 : BitVec 32).toNat ∧ withinMax bounded (16 : BitVec 32).toNat ∧
    goodSize bounded layA (16 : BitVec 32).toNat ∧
    img[3]? = some boardB.cfg.boardId ∧ img[3]? ≠ some boardA.cfg.boardId ∧
    img.drop 14 = leBytes 2 (compute .crc16 (img.take 14)) ∧
    imgRaw.drop 14 ≠ leBytes 2 (compute .crc16 (imgRaw.take 14)) := by
  simp only [withinMax, goodSize, bounded, Option.some.injEq, forall_eq']
  (repeat' apply And.intro) <;> decide +kernel

/-- Delivery: a packet addressed to board B and not to board A, both with the sender's parameters. -/
theorem witness_delivery :
    let s := holding layA imgRaw
    Inv s ∧ s.p.valid = true ∧ s.p.n < 2 ^ 32 ∧ boardB.params = s.params ∧ boardA.params = s.params ∧
    layoutOf layA s.p ∧ s.p.buf.read 3 = some boardB.cfg.boardId ∧
    s.p.buf.read 3 ≠ some boardA.cfg.boardId := by
  unfold layoutOf
  (repeat' apply And.intro) <;> decide

end Sys2Proof.Tests
end

/-!
PROOFS. The command words that the decoder refuses are those of R83, and a refused word changes nothing.

The illegal words are first put into the terms of the decoder, format by format (R78); then each of the
decoder's helpers is shown to refuse exactly them, and the opcode map of R79 puts the formats together.
-/

namespace Sys2Proof.Proofs

open Sys2Proof.Machine Sys2Proof.Claims

/-! ## The fields of a command word, as numbers (R78) -/

theorem eq_zero_iff_toNat {n : Nat} (x : BitVec n) : x = 0 ↔ x.toNat = 0 := by
  simp [← BitVec.toNat_inj]

section
variable (c : Word16)

theorem toNat_cmdOp : (cmdOp c).toNat = c.toNat % 256 := by
  simp [cmdOp]

theorem toNat_cmdSel : (cmdSel c).toNat = c.toNat / 256 % 16 := by
  simp [cmdSel, Nat.shiftRight_eq_div_pow]

theorem toNat_cmdWc : (cmdWc c).toNat = c.toNat / 4096 % 4 := by
  simp [cmdWc, Nat.shiftRight_eq_div_pow]

theorem toNat_cmdKind : (cmdKind c).toNat = c.toNat / 16384 % 2 := by
  simp [cmdKind, Nat.shiftRight_eq_div_pow]

theorem toNat_cmdSeed : (cmdSeed c).toNat = c.toNat / 32768 := by
  have := c.isLt
  simp only [cmdSeed, BitVec.extractLsb'_toNat, Nat.shiftRight_eq_div_pow]
  omega

/-- The illegal words of R83, on the fields that the decoder reads. -/
theorem illegal_iff_fields : illegal c ↔ illegalFields (cmdOp c).toNat (cmdSel c).toNat
    (cmdWc c).toNat (cmdKind c).toNat (cmdSeed c).toNat := by
  rw [toNat_cmdOp, toNat_cmdSel, toNat_cmdWc, toNat_cmdKind, toNat_cmdSeed]

/-- What must be 0 in format S. -/
theorem top_eq_zero_iff : c.extractLsb' 12 4 = 0 ↔
    (cmdWc c).toNat = 0 ∧ (cmdKind c).toNat = 0 ∧ (cmdSeed c).toNat = 0 := by
  have hc := c.isLt
  rw [eq_zero_iff_toNat, BitVec.extractLsb'_toNat, Nat.shiftRight_eq_div_pow, toNat_cmdWc,
    toNat_cmdKind, toNat_cmdSeed]
  omega

/-- What must be 0 in format Z. -/
theorem high_eq_zero_iff : c.extractLsb' 8 8 = 0 ↔
    (cmdSel c).toNat = 0 ∧ c.extractLsb' 12 4 = 0 := by
  have hc := c.isLt
  rw [top_eq_zero_iff, eq_zero_iff_toNat, BitVec.extractLsb'_toNat, Nat.shiftRight_eq_div_pow,
    toNat_cmdSel, toNat_cmdWc, toNat_cmdKind, toNat_cmdSeed]
  omega

end

/-! ## The reserved codes (R77, R88) -/

theorem policyOfCode_eq_none_iff (c : BitVec 4) : policyOfCode c = none ↔ 12 ≤ c.toNat := by
  revert c; decide

theorem fieldOfCode_eq_none_iff (c : BitVec 4) : fieldOfCode c = none ↔ 11 ≤ c.toNat := by
  revert c; decide

/-! ## The illegal words of each format (R78, R83) -/

/-- R79: the opcodes of format Z. -/
abbrev formatZ (op : Nat) : Prop := ¬unassigned op ∧ ¬formatS op ∧ ¬formatL op

/-- R78, R83: the format L words that name no layout: Basic with a policy, or Framed with a reserved
policy code. -/
def noLayout (c : Word16) : Prop :=
  (cmdKind c = 0 ∧ cmdSel c ≠ 0) ∨ (cmdKind c ≠ 0 ∧ policyOfCode (cmdSel c) = none)

theorem noLayout_iff (c : Word16) : noLayout c ↔
    12 ≤ (cmdSel c).toNat ∨ ((cmdKind c).toNat = 0 ∧ (cmdSel c).toNat ≠ 0) := by
  simp only [noLayout, policyOfCode_eq_none_iff, ne_eq, eq_zero_iff_toNat]
  omega

section
variable {c : Word16}

theorem illegal_of_unassigned (h : unassigned (cmdOp c).toNat) : illegal c := by
  rw [illegal_iff_fields]
  exact .inl h

theorem illegal_iff_of_formatZ (h : formatZ (cmdOp c).toNat) :
    illegal c ↔ c.extractLsb' 8 8 ≠ 0 := by
  rw [illegal_iff_fields, ne_eq, high_eq_zero_iff, top_eq_zero_iff]
  omega

theorem illegal_iff_of_policy (h : (cmdOp c).toNat = 0x20 ∨ (cmdOp c).toNat = 0x21) :
    illegal c ↔ c.extractLsb' 12 4 ≠ 0 ∨ policyOfCode (cmdSel c) = none := by
  rw [illegal_iff_fields, ne_eq, top_eq_zero_iff, policyOfCode_eq_none_iff]
  omega

theorem illegal_iff_of_hdrGet (h : (cmdOp c).toNat = 0x06) :
    illegal c ↔ c.extractLsb' 12 4 ≠ 0 ∨ fieldOfCode (cmdSel c) = none := by
  rw [illegal_iff_fields, ne_eq, top_eq_zero_iff, fieldOfCode_eq_none_iff]
  omega

theorem illegal_iff_of_unseeded (h : (cmdOp c).toNat = 0x12 ∨ (cmdOp c).toNat = 0x41) :
    illegal c ↔ cmdSeed c ≠ 0 ∨ noLayout c := by
  rw [illegal_iff_fields, noLayout_iff, ne_eq, eq_zero_iff_toNat]
  omega

theorem illegal_iff_of_pktNew (h : (cmdOp c).toNat = 0x10) :
    illegal c ↔ noLayout c ∨ (cmdKind c = 0 ∧ cmdSeed c ≠ 0) := by
  simp only [illegal_iff_fields, noLayout_iff, ne_eq, eq_zero_iff_toNat]
  omega

end

/-! ## The decoder refuses exactly the illegal words -/

/-- A part of the decoder refuses when the word is bad, and gives a good value when it is not. -/
def RefusesExactly {α : Type} (bad : Prop) (good : α → Prop) (x : Except DecodeError α) : Prop :=
  (bad ∧ ∃ e, x = .error e) ∨ (¬bad ∧ ∃ a, good a ∧ x = .ok a)

section
variable {α : Type} {bad : Prop} {good : α → Prop}

theorem refusesExactly_error (h : bad) (e : DecodeError) : RefusesExactly bad good (.error e) :=
  .inl ⟨h, e, rfl⟩

theorem refusesExactly_ok (h : ¬bad) {a : α} (ha : good a) : RefusesExactly bad good (.ok a) :=
  .inr ⟨h, a, ha, rfl⟩

end

/-- An operation that a request can carry (R78). -/
abbrev WellFormed (i : Instr) : Prop := i.wf = true

section
variable {c : Word16}

theorem decodeZ_refusesExactly (h : formatZ (cmdOp c).toNat) {i : Instr} (hi : WellFormed i) :
    RefusesExactly (illegal c) WellFormed (decodeZ c i) := by
  rw [illegal_iff_of_formatZ h, decodeZ]
  split
  · next hz => exact refusesExactly_ok (not_not_intro hz) hi
  · next hz => exact refusesExactly_error hz _

/-- Format S, whatever its selector stands for: bits 15:12 must be 0 and the selector assigned. -/
def decodeSelected {α : Type} (c : Word16) (sel : Option α) (e : DecodeError) (f : α → Instr) :
    Except DecodeError Instr :=
  if c.extractLsb' 12 4 = 0 then sel.elim (.error e) (fun a => .ok (f a)) else .error .mustBeZero

theorem decodePolicy_eq (f : Policy → Instr) :
    decodePolicy c f = decodeSelected c (policyOfCode (cmdSel c)) .reservedPolicy f := by
  rw [decodePolicy, decodeSelected]
  cases policyOfCode (cmdSel c) <;> rfl

theorem decodeField_eq (f : HdrField → Instr) :
    decodeField c f = decodeSelected c (fieldOfCode (cmdSel c)) .reservedSelector f := by
  rw [decodeField, decodeSelected]
  cases fieldOfCode (cmdSel c) <;> rfl

theorem decodeSelected_refusesExactly {α : Type} (sel : Option α) (e : DecodeError) {f : α → Instr}
    (hf : ∀ a, WellFormed (f a)) :
    RefusesExactly (c.extractLsb' 12 4 ≠ 0 ∨ sel = none) WellFormed (decodeSelected c sel e f) := by
  rw [decodeSelected]
  split
  · next hz =>
    cases sel with
    | none => exact refusesExactly_error (.inr rfl) e
    | some a => exact refusesExactly_ok (by simp [hz]) (hf a)
  · next hz => exact refusesExactly_error (.inl hz) _

theorem decodePolicy_refusesExactly (h : (cmdOp c).toNat = 0x20 ∨ (cmdOp c).toNat = 0x21)
    {f : Policy → Instr} (hf : ∀ p, WellFormed (f p)) :
    RefusesExactly (illegal c) WellFormed (decodePolicy c f) := by
  rw [illegal_iff_of_policy h, decodePolicy_eq]
  exact decodeSelected_refusesExactly _ _ hf

theorem decodeField_refusesExactly (h : (cmdOp c).toNat = 0x06)
    {f : HdrField → Instr} (hf : ∀ p, WellFormed (f p)) :
    RefusesExactly (illegal c) WellFormed (decodeField c f) := by
  rw [illegal_iff_of_hdrGet h, decodeField_eq]
  exact decodeSelected_refusesExactly _ _ hf

/-- The layouts that a format L word can name, with the variant that it names (R76, R78). -/
def LayoutOfWord (c : Word16) (lay : Layout) : Prop :=
  lay.wf = true ∧ (lay.kind = .basic ↔ cmdKind c = 0)

theorem kindOfCode_eq_basic_iff (k : BitVec 1) : kindOfCode k = .basic ↔ k = 0 := by
  simp [kindOfCode]

theorem kindOfCode_eq_framed_iff (k : BitVec 1) : kindOfCode k = .framed ↔ k ≠ 0 := by
  simp [kindOfCode]

theorem decodeLayout_refusesExactly :
    RefusesExactly (noLayout c) (LayoutOfWord c) (decodeLayout c) := by
  rw [decodeLayout]
  split
  · next hk =>
    rw [kindOfCode_eq_basic_iff] at hk
    split
    · next hs => exact refusesExactly_ok (by simp [noLayout, hk, hs]) ⟨rfl, iff_of_true rfl hk⟩
    · next hs => exact refusesExactly_error (.inl ⟨hk, hs⟩) _
  · next hk =>
    rw [kindOfCode_eq_framed_iff] at hk
    split
    · next p hp =>
      have hlay : ¬noLayout c := by
        rintro (⟨hb, -⟩ | ⟨-, hn⟩)
        · exact hk hb
        · exact nomatch hp.symm.trans hn
      exact refusesExactly_ok hlay ⟨rfl, iff_of_false nofun hk⟩
    · next hp => exact refusesExactly_error (.inr ⟨hk, hp⟩) _

theorem decodeL_refusesExactly (h : (cmdOp c).toNat = 0x12 ∨ (cmdOp c).toNat = 0x41)
    {f : Layout → Instr} (hf : ∀ lay, lay.wf = true → WellFormed (f lay)) :
    RefusesExactly (illegal c) WellFormed (decodeL c f) := by
  rw [illegal_iff_of_unseeded h, decodeL]
  split
  · next hd =>
    obtain ⟨hbad, e, he⟩ | ⟨hgood, lay, ⟨hwf, -⟩, he⟩ := decodeLayout_refusesExactly (c := c)
    · rw [he]; exact refusesExactly_error (.inr hbad) e
    · rw [he]; exact refusesExactly_ok (by simp [hd, hgood]) (hf lay hwf)
  · next hd => exact refusesExactly_error (.inl hd) _

theorem decodeSeeded_refusesExactly (h : (cmdOp c).toNat = 0x10) (v : Word64)
    {f : Layout → Option Word64 → Instr}
    (hf : ∀ lay seed, lay.wf = true → lay.seedWf seed = true → WellFormed (f lay seed)) :
    RefusesExactly (illegal c) WellFormed (decodeSeeded c v f) := by
  rw [illegal_iff_of_pktNew h, decodeSeeded]
  obtain ⟨hbad, e, he⟩ | ⟨hgood, lay, ⟨hwf, hkind⟩, he⟩ := decodeLayout_refusesExactly (c := c)
  · rw [he]; exact refusesExactly_error (.inl hbad) e
  · rw [he, ← hkind]
    dsimp only
    split
    · next hd =>
      have hseed : lay.seedWf none = true := by simp [Layout.seedWf]
      exact refusesExactly_ok (by simp [hgood, hd]) (hf lay none hwf hseed)
    · next hd =>
      split
      · next hb => exact refusesExactly_error (.inr ⟨hb, hd⟩) _
      · next hb =>
        have hseed : lay.seedWf (some v) = true := by
          cases hk : lay.kind with
          | basic => exact absurd hk hb
          | framed => simp [Layout.seedWf, hk]
        exact refusesExactly_ok (by simp [hgood, hb]) (hf lay (some v) hwf hseed)

end

/-- The rows of the opcode map (R79), each by its format's lemma; the last row is every other opcode. -/
theorem decode_refusesExactly (r : Request) :
    RefusesExactly (illegal r.cmd) WellFormed (decode r) := by
  have hlt : (cmdOp r.cmd).toNat < 256 := (cmdOp r.cmd).isLt
  rw [decode]
  split
  -- HDR.GET
  case h_6 h => exact decodeField_refusesExactly h fun _ => rfl
  -- PKT.NEW
  case h_7 h =>
    exact decodeSeeded_refusesExactly h _ fun _ _ hlay hseed => Bool.and_eq_true_iff.2 ⟨hlay, hseed⟩
  -- PKT.FROMBYTES and RX.ACCEPT
  case h_9 h => exact decodeL_refusesExactly (.inl h) fun _ hlay => hlay
  case h_27 h => exact decodeL_refusesExactly (.inr h) fun _ hlay => hlay
  -- CK.COMPUTE and CK.INIT
  case h_20 h => exact decodePolicy_refusesExactly (.inl h) fun _ => rfl
  case h_21 h => exact decodePolicy_refusesExactly (.inr h) fun _ => rfl
  case h_28 =>
    have hop : unassigned (cmdOp r.cmd).toNat := by
      simp only [imp_false] at *
      omega
    exact refusesExactly_error (illegal_of_unassigned hop) _
  -- format Z
  all_goals next h => exact decodeZ_refusesExactly (h ▸ by decide) rfl

/-! ## The step on an illegal word -/

/-- R83, R238: a request that the decoder refuses is answered, and nothing else happens. -/
theorem step_of_decode_error {s : State} {r : Request} {rest : List HostEvent} {e : DecodeError}
    (hs : s.events = .request r :: rest) (hd : decode r = .error e) :
    step s = answers { s with events := rest } (only .eIllegalOp) := by
  simp [step, hs, hd, State.pop, Laws.raise_eq, State.respond, Response.bare, answers, only]

/-- Settles O4: the decoder refuses exactly the illegal words, and a refused request is only answered. -/
theorem illegalWordsAreRefused : Obligations.IllegalWordsAreRefused := by
  intro s r rest hs
  obtain ⟨hill, e, he⟩ | ⟨hleg, hi⟩ := decode_refusesExactly r
  · exact ⟨fun _ => step_of_decode_error hs he, fun hleg => absurd hill hleg⟩
  · exact ⟨fun hill => absurd hill hleg, fun _ => hi⟩

end Sys2Proof.Proofs

/-!
PROOFS. The header codec (40_header_codec.md).

First the windows of the header's words and bytes; then one equation for each way an HDR operation can
end; then the obligations but for the lock, which has a part of its own below.
-/

namespace Sys2Proof.Proofs

open Sys2Proof.Machine Sys2Proof.Claims Sys2Proof.Laws

/-! ## Parts placed in a 16-bit word -/

theorem toNat_window {n : Nat} (x : BitVec n) (k w : Nat) :
    (x.extractLsb' k w).toNat = x.toNat / 2 ^ k % 2 ^ w := by
  rw [BitVec.extractLsb'_toNat, Nat.shiftRight_eq_div_pow]

/-- A part of a word, moved up to where its field begins. -/
def placed {w : Nat} (k : Nat) (x : BitVec w) : Word16 := x.setWidth 16 <<< k

section
variable {w : Nat} (x : BitVec w)

theorem getLsbD_placed (k : Nat) {j : Nat} (hj : j < 16) :
    (placed k x).getLsbD j = (decide (k ≤ j) && x.getLsbD (j - k)) := by
  by_cases h : k ≤ j
  · simp [placed, hj, h, Nat.not_lt.2 h]
  · simp [placed, h, Nat.lt_of_not_le h]

theorem window_placed_self {k : Nat} (h : k + w ≤ 16) : (placed k x).extractLsb' k w = x := by
  apply BitVec.eq_of_getLsbD_eq
  intro i hi
  rw [BitVec.getLsbD_extractLsb', getLsbD_placed _ _ (by omega)]
  simp [hi]

theorem window_placed_of_disjoint {k l v : Nat} (hl : l + v ≤ 16) (h : l + v ≤ k ∨ k + w ≤ l) :
    (placed k x).extractLsb' l v = 0#v := by
  apply BitVec.eq_of_getLsbD_eq
  intro i hi
  rw [BitVec.getLsbD_extractLsb', getLsbD_placed _ _ (by omega), BitVec.getLsbD_zero]
  obtain h | h := h
  · simp [show ¬k ≤ l + i by omega]
  · simp [BitVec.getLsbD_of_ge x (l + i - k) (by omega)]

end

/-! ## The space word (R71, R100, R102, R106) -/

theorem hdrSpace_eq_placed (b0 b1 : Byte) : hdrSpace b0 b1 = placed 0 b0 ||| placed 8 b1 := by
  simp [hdrSpace, placed]

theorem hdrSpace_low (b0 b1 : Byte) : (hdrSpace b0 b1).extractLsb' 0 8 = b0 := by
  simp [hdrSpace_eq_placed, BitVec.extractLsb'_or, window_placed_self, window_placed_of_disjoint]

theorem hdrSpace_high (b0 b1 : Byte) : (hdrSpace b0 b1).extractLsb' 8 8 = b1 := by
  simp [hdrSpace_eq_placed, BitVec.extractLsb'_or, window_placed_self, window_placed_of_disjoint]

/-- R103: the bytes of a space word that was put together from two bytes. -/
theorem hdrBytes_hdrSpace (b0 b1 b2 b3 : Byte) :
    hdrBytes (hdrSpace b0 b1) b2 b3 = [b0, b1, b2, b3] := by
  rw [hdrBytes, hdrSpace_low, hdrSpace_high]

/-- A 16-bit word is its low byte and 256 times its high byte. -/
theorem toNat_eq_bytes (sp : Word16) :
    sp.toNat = (sp.extractLsb' 0 8).toNat + 256 * (sp.extractLsb' 8 8).toNat := by
  have := sp.isLt
  rw [toNat_window, toNat_window]
  omega

/-- R102. -/
theorem toNat_hdrSpace (b0 b1 : Byte) : (hdrSpace b0 b1).toNat = b0.toNat + 256 * b1.toNat := by
  rw [toNat_eq_bytes, hdrSpace_low, hdrSpace_high]

/-- R103: the space word put together from its own two bytes. -/
theorem hdrSpace_bytes (sp : Word16) : hdrSpace (sp.extractLsb' 0 8) (sp.extractLsb' 8 8) = sp :=
  BitVec.eq_of_toNat_eq (by rw [toNat_hdrSpace, ← toNat_eq_bytes])

/-- R106: the mask of HDR.RAW drops the two version bits only. -/
theorem getLsbD_rawMask : ∀ j < 16, (0xF3FF#16).getLsbD j = decide (j ≠ 10 ∧ j ≠ 11) := by decide

theorem getLsbD_rawSpace (raw16 : Word16) (v : BitVec 2) {j : Nat} (hj : j < 16) (h10 : j ≠ 10)
    (h11 : j ≠ 11) : (rawSpace raw16 v).getLsbD j = raw16.getLsbD j := by
  have hplaced : (placed 10 v).getLsbD j = false := by
    rw [getLsbD_placed _ _ hj]
    by_cases h : 10 ≤ j
    · simp [BitVec.getLsbD_of_ge v (j - 10) (by omega)]
    · simp [h]
  change ((raw16 &&& 0xF3FF#16) ||| placed 10 v).getLsbD j = _
  rw [BitVec.getLsbD_or, BitVec.getLsbD_and, getLsbD_rawMask j hj, hplaced]
  simp [h10, h11]

theorem rawSpace_version (raw16 : Word16) (v : BitVec 2) :
    (rawSpace raw16 v).extractLsb' 10 2 = v := by
  have hmask : (0xF3FF#16).extractLsb' 10 2 = 0#2 := by decide
  change ((raw16 &&& 0xF3FF#16) ||| placed 10 v).extractLsb' 10 2 = v
  rw [BitVec.extractLsb'_or, BitVec.extractLsb'_and, hmask, window_placed_self v (by decide)]
  simp

section
variable (type : BitVec 4) (version : BitVec 2) (enc frag : BitVec 1) (prio flags : BitVec 8)
  (val res : BitVec 1)

/-- R100: priority and flags are cut to their low 3 bits. -/
theorem placed_and_seven (k : Nat) (x : BitVec 8) :
    placed k (x &&& 7) = placed k (x.extractLsb' 0 3) := by
  have hlow : (x &&& 7).setWidth 16 = (x.extractLsb' 0 3).setWidth 16 := by
    apply BitVec.eq_of_toNat_eq
    rw [BitVec.toNat_setWidth, BitVec.toNat_setWidth, BitVec.toNat_and, toNat_window]
    exact congrArg (· % 2 ^ 16) (by simpa using Nat.and_two_pow_sub_one_eq_mod x.toNat 3)
  rw [placed, hlow, placed]

/-- R100: each part of the space word at the place of its field. -/
theorem spaceOf_eq_placed : spaceOf type version enc frag prio flags val res =
    placed 12 type ||| placed 10 version ||| placed 9 enc ||| placed 8 frag |||
      placed 5 (prio.extractLsb' 0 3) ||| placed 2 (flags.extractLsb' 0 3) ||| placed 1 val |||
      placed 0 res := by
  rw [← placed_and_seven, ← placed_and_seven]
  simp [spaceOf, placed]

/-- R100, R71: every field of the space word reads as the part that was put there. -/
theorem spaceOf_fields :
    let sp := spaceOf type version enc frag prio flags val res
    sp.extractLsb' 12 4 = type ∧ sp.extractLsb' 10 2 = version ∧ sp.extractLsb' 9 1 = enc ∧
      sp.extractLsb' 8 1 = frag ∧ sp.extractLsb' 5 3 = prio.extractLsb' 0 3 ∧
      sp.extractLsb' 2 3 = flags.extractLsb' 0 3 ∧ sp.extractLsb' 1 1 = val ∧
      sp.extractLsb' 0 1 = res := by
  simp [spaceOf_eq_placed, BitVec.extractLsb'_or, window_placed_self, window_placed_of_disjoint]

end

/-! ## The 32-bit header (R27, R101) -/

theorem unLE_bytes (h : HeaderReg) : unLE h.bytes = word32 h := by
  have := toNat_eq_bytes h.space
  simp only [HeaderReg.bytes, hdrBytes, unLE_cons, unLE_nil, word32]
  omega

/-- R27: the low 16 bits of the 32-bit header are the space word. -/
theorem word32_window (h : HeaderReg) {k w : Nat} (hw : k + w ≤ 16) :
    word32 h / 2 ^ k % 2 ^ w = (h.space.extractLsb' k w).toNat := by
  have hsplit : word32 h =
      h.space.toNat + 2 ^ 16 * (h.sender.toNat + 2 ^ 8 * h.receiver.toNat) := by
    simp only [word32]
    ring
  have hdvd : 2 ^ (k + w) ∣ 2 ^ 16 := Nat.pow_dvd_pow 2 hw
  rw [toNat_window, ← Nat.mod_mul_right_div_self, ← Nat.mod_mul_right_div_self, ← Nat.pow_add,
    hsplit, Nat.add_mod, Nat.mod_eq_zero_of_dvd (hdvd.mul_right _), Nat.add_zero, Nat.mod_mod]

theorem toNat_hdrField (h : HeaderReg) (f : HdrField) :
    (hdrField h f).toNat = word32 h / 2 ^ (fieldBits f).1 % 2 ^ (fieldBits f).2 := by
  have hspace := h.space.isLt
  have hsender := h.sender.isLt
  have hreceiver := h.receiver.isLt
  cases f
  case space | senderId | receiverId =>
    simp only [hdrField, fieldBits, word32, BitVec.toNat_setWidth]
    omega
  all_goals
    rw [fieldBits, word32_window h (by decide)]
    exact BitVec.toNat_setWidth_of_le (by decide)

/-! ## The ordered checks, one at a time (R237) -/

section
variable {c : Check} {cs : List Check} {s : State} {k : State → Out}

theorem guarded_nil : guarded [] s k = k s := rfl

theorem guarded_cons_pass (h : c.1 = false) : guarded (c :: cs) s k = guarded cs s k := by
  obtain ⟨b, st⟩ := c
  obtain rfl : b = false := h
  rfl

theorem guarded_cons_stop (h : c.1 = true) : guarded (c :: cs) s k = answers s (only c.2) := by
  obtain ⟨b, st⟩ := c
  obtain rfl : b = true := h
  rfl

theorem guarded_header_loaded (h : s.h.valid = true) :
    guarded (headerCheck s :: cs) s k = guarded cs s k :=
  guarded_cons_pass (by simp [headerCheck, h])

theorem guarded_header_empty (h : s.h.valid = false) :
    guarded (headerCheck s :: cs) s k = answers s (only .eNoObject) :=
  guarded_cons_stop (by simp [headerCheck, h])

theorem guarded_receiver_inRange {rcv : Word16} (h : rcv.toNat ≤ 255) :
    guarded (receiverCheck rcv :: cs) s k = guarded cs s k :=
  guarded_cons_pass (decide_eq_false (Nat.not_lt.2 h))

theorem guarded_receiver_tooLarge {rcv : Word16} (h : 255 < rcv.toNat) :
    guarded (receiverCheck rcv :: cs) s k = answers s (only .eReceiverRange) :=
  guarded_cons_stop (decide_eq_true h)

theorem guarded_packet_held (h : s.p.valid = true) :
    guarded (packetCheck s :: cs) s k = guarded cs s k :=
  guarded_cons_pass (by simp [packetCheck, h])

theorem guarded_packet_empty (h : s.p.valid = false) :
    guarded (packetCheck s :: cs) s k = answers s (only .eNoObject) :=
  guarded_cons_stop (by simp [packetCheck, h])

end

/-! ## How each HDR operation ends (R104 to R109) -/

section
variable {s : State}

theorem exec_hdrDecode_four (b0 b1 b2 b3 : Byte) : exec (.hdrDecode [b0, b1, b2, b3]) s =
    answers (s.loadHeader (hdrSpace b0 b1) b2 b3) (only .ok) := rfl

theorem exec_hdrDecode_of_length_ne {din : List Byte} (h : din.length ≠ 4) :
    exec (.hdrDecode din) s = answers s (only .eOperandLength) := by
  change execHdrDecode din s = _
  unfold execHdrDecode
  split
  · exact absurd rfl h
  · rfl

theorem exec_hdrEncode_loaded (h : s.h.valid = true) :
    exec .hdrEncode s = answers s (okBytes s.h.bytes) := guarded_header_loaded h

theorem exec_hdrEncode_empty (h : s.h.valid = false) :
    exec .hdrEncode s = answers s (only .eNoObject) := guarded_header_empty h

theorem exec_hdrRaw_inRange (raw16 : Word16) {rcv : Word16} (h : rcv.toNat ≤ 255) :
    exec (.hdrRaw raw16 rcv) s =
      answers (s.loadHeader (rawSpace raw16 s.cfg.version) s.cfg.boardId (rcv.setWidth 8))
        (only .ok) := by
  rw [exec, execHdrRaw]
  exact guarded_receiver_inRange h

theorem exec_hdrRaw_tooLarge (raw16 : Word16) {rcv : Word16} (h : 255 < rcv.toNat) :
    exec (.hdrRaw raw16 rcv) s = answers s (only .eReceiverRange) := by
  rw [exec, execHdrRaw]
  exact guarded_receiver_tooLarge h

section
variable (type : BitVec 4) (enc frag : BitVec 1) (prio flags : BitVec 8) (val res : BitVec 1)
  {rcv : Word16}

theorem exec_hdrFields_inRange (h : rcv.toNat ≤ 255) :
    exec (.hdrFields type enc frag prio flags val res rcv) s =
      answers (s.loadHeader (spaceOf type s.cfg.version enc frag prio flags val res) s.cfg.boardId
        (rcv.setWidth 8)) (only .ok) := by
  rw [exec, execHdrFields]
  exact guarded_receiver_inRange h

theorem exec_hdrFields_tooLarge (h : 255 < rcv.toNat) :
    exec (.hdrFields type enc frag prio flags val res rcv) s = answers s (only .eReceiverRange) := by
  rw [exec, execHdrFields]
  exact guarded_receiver_tooLarge h

end

theorem exec_hdrSetRcv_empty (rcv : Word16) (h : s.h.valid = false) :
    exec (.hdrSetRcv rcv) s = answers s (only .eNoObject) := by
  rw [exec, execHdrSetRcv]
  exact guarded_header_empty h

theorem exec_hdrSetRcv_inRange {rcv : Word16} (h : s.h.valid = true) (hr : rcv.toNat ≤ 255) :
    exec (.hdrSetRcv rcv) s =
      answers (s.loadHeader s.h.space s.h.sender (rcv.setWidth 8)) (only .ok) := by
  rw [exec, execHdrSetRcv, guarded_header_loaded h]
  exact guarded_receiver_inRange hr

theorem exec_hdrSetRcv_tooLarge {rcv : Word16} (h : s.h.valid = true) (hr : 255 < rcv.toNat) :
    exec (.hdrSetRcv rcv) s = answers s (only .eReceiverRange) := by
  rw [exec, execHdrSetRcv, guarded_header_loaded h]
  exact guarded_receiver_tooLarge hr

theorem exec_hdrGet_loaded (f : HdrField) (h : s.h.valid = true) :
    exec (.hdrGet f) s = answers s (okRes (hdrField s.h f)) := guarded_header_loaded h

theorem exec_hdrGet_empty (f : HdrField) (h : s.h.valid = false) :
    exec (.hdrGet f) s = answers s (only .eNoObject) := guarded_header_empty h

/-- Loading a loaded header with its own space word and sender replaces the receiver alone. -/
theorem loadHeader_receiver (h : s.h.valid = true) (rcv : Byte) :
    s.loadHeader s.h.space s.h.sender rcv = { s with h := { s.h with receiver := rcv } } := by
  rw [State.loadHeader, ← h]

/-- The low byte of an operand port. -/
theorem setWidth_eq_window (rcv : Word16) : rcv.setWidth 8 = rcv.extractLsb' 0 8 :=
  BitVec.setWidth_eq_extractLsb' (by decide)

end

/-! ## The command words of the header operations (R78, R79, R88) -/

/-- A format Z operation, which the opcode map finds by its opcode. -/
theorem coded_of_formatZ {i : Instr} (op : BitVec 8) (hcmd : (encode i).cmd = wordZ op)
    (hdec : decode (encode i) = decodeZ (wordZ op) i) : coded i op.toNat :=
  ⟨by rw [hcmd, toNat_wordZ], by rw [hdec, decodeZ_wordZ]⟩

theorem coded_hdrDecode (din : List Byte) : coded (.hdrDecode din) 0x0001 :=
  coded_of_formatZ 0x01 rfl (by simp [decode, encode, opcode])

theorem coded_hdrEncode : coded .hdrEncode 0x0002 :=
  coded_of_formatZ 0x02 rfl (by simp [decode, encode, opcode])

theorem coded_hdrRaw (raw16 rcv : Word16) : coded (.hdrRaw raw16 rcv) 0x0003 :=
  coded_of_formatZ 0x03 rfl (by simp [decode, encode, opcode])

theorem coded_hdrFields (type : BitVec 4) (enc frag : BitVec 1) (prio flags : BitVec 8)
    (val res : BitVec 1) (rcv : Word16) :
    coded (.hdrFields type enc frag prio flags val res rcv) 0x0004 :=
  coded_of_formatZ 0x04 rfl (by simp [decode, encode, opcode])

theorem coded_hdrSetRcv (rcv : Word16) : coded (.hdrSetRcv rcv) 0x0005 :=
  coded_of_formatZ 0x05 rfl (by simp [decode, encode, opcode])

theorem coded_hdrGet (f : HdrField) : coded (.hdrGet f) (0x0006 + 256 * (fieldCode f).toNat) := by
  have hcmd : (encode (.hdrGet f)).cmd = wordS (fieldCode f) 0x06 := rfl
  have hdec : decode (encode (.hdrGet f)) = decodeField (wordS (fieldCode f) 0x06) .hdrGet := by
    simp [decode, encode, opcode]
  refine ⟨?_, ?_⟩
  · rw [hcmd, toNat_wordS]
    simp
    omega
  · rw [hdec, decodeField, if_pos (high_wordS ..), cmdSel_wordS, fieldOfCode_code]

/-- R88: the words of HDR.GET with a reserved selector. -/
theorem refusedWord_hdrGet {sel : Nat} (hlo : 11 ≤ sel) (hhi : sel ≤ 15) :
    refusedWord (0x0006 + 256 * sel) := by
  intro s r rest hs hcmd
  have hill : illegal r.cmd := by
    unfold illegal
    rw [hcmd]
    omega
  exact (illegalWordsAreRefused s r rest hs).1 hill

/-! ## Header codec: the obligations but for the lock -/

/-- Settles O18: both orders come from the two inverse equations of the space word and its bytes. -/
theorem headerRoundTrip : Obligations.HeaderRoundTrip := by
  refine ⟨fun s b0 b1 b2 b3 => ⟨_, exec_hdrDecode_four b0 b1 b2 b3, ?_⟩,
    fun s h => ⟨s.h.bytes, ?_, ?_⟩⟩
  · rw [exec_hdrEncode_loaded rfl]
    exact congrArg (fun b => answers _ (okBytes b)) (hdrBytes_hdrSpace b0 b1 b2 b3)
  · exact exec_hdrEncode_loaded h
  · rw [HeaderReg.bytes, hdrBytes, exec_hdrDecode_four, hdrSpace_bytes, loadHeader_receiver h]

/-- Settles O19, by the bits of the mask and the window of the version. -/
theorem hdrRawStampsTheLock : Obligations.HdrRawStampsTheLock := by
  intro s raw16 rcv
  refine ⟨coded_hdrRaw raw16 rcv, fun h => ⟨rawSpace raw16 s.cfg.version, ?_, ?_, ?_⟩,
    exec_hdrRaw_tooLarge raw16⟩
  · exact fun j hj h10 h11 => getLsbD_rawSpace raw16 _ hj h10 h11
  · exact rawSpace_version raw16 _
  · rw [exec_hdrRaw_inRange raw16 h, setWidth_eq_window, State.loadHeader]

/-- Settles O20: the fields of the space word are the operands. -/
theorem hdrFieldsBuildsTheHeader : Obligations.HdrFieldsBuildsTheHeader := by
  intro s type enc frag prio flags val res rcv
  refine ⟨coded_hdrFields .., fun h => ?_, exec_hdrFields_tooLarge type enc frag prio flags val res⟩
  obtain ⟨htype, hversion, henc, hfrag, hprio, hflags, hval, hres⟩ :=
    spaceOf_fields type s.cfg.version enc frag prio flags val res
  refine ⟨_, htype, hversion, henc, hfrag, hprio, hflags, hval, hres, ?_⟩
  rw [exec_hdrFields_inRange type enc frag prio flags val res h, setWidth_eq_window,
    State.loadHeader]

/-- Settles O22: the field's value by its place in the 32-bit header, the reserved selectors by O4. -/
theorem hdrGetReturnsTheField : Obligations.HdrGetReturnsTheField :=
  ⟨fun _ hlo hhi => refusedWord_hdrGet hlo hhi, fun s f => ⟨coded_hdrGet f,
    fun h => ⟨hdrField s.h f, toNat_hdrField s.h f, exec_hdrGet_loaded f h⟩, exec_hdrGet_empty f⟩⟩

/-- Settles O16, by the two ends of HDR.DECODE and the number of the space word. -/
theorem hdrDecodeLoadsTheBytes : Obligations.HdrDecodeLoadsTheBytes := fun _ =>
  ⟨coded_hdrDecode,
    fun b0 b1 b2 b3 => ⟨hdrSpace b0 b1, toNat_hdrSpace b0 b1, exec_hdrDecode_four b0 b1 b2 b3⟩,
    fun _ => exec_hdrDecode_of_length_ne⟩

/-- Settles O17: the four bytes stand for the 32-bit header. -/
theorem hdrEncodeReturnsTheImage : Obligations.HdrEncodeReturnsTheImage :=
  ⟨coded_hdrEncode, fun s =>
    ⟨fun h => ⟨s.h.bytes, rfl, unLE_bytes s.h, exec_hdrEncode_loaded h⟩, exec_hdrEncode_empty⟩⟩

/-- Settles O21, by the three ends of HDR.SETRCV. -/
theorem hdrSetRcvReplacesTheReceiver : Obligations.HdrSetRcvReplacesTheReceiver := by
  intro s rcv
  refine ⟨coded_hdrSetRcv rcv, exec_hdrSetRcv_empty rcv, fun h hr => ?_, exec_hdrSetRcv_tooLarge⟩
  rw [exec_hdrSetRcv_inRange h hr, loadHeader_receiver h, setWidth_eq_window]

end Sys2Proof.Proofs

/-!
PROOFS. The lock (40_header_codec.md R110, R111): which operations write H, and with what.

A rule for each shared operation says what every next state of an outcome has; by these rules 22
operations keep H, and the five others are treated one by one.
-/

namespace Sys2Proof.Proofs

open Sys2Proof.Machine Sys2Proof.Claims Sys2Proof.Laws

/-! ## Postconditions of an outcome -/

/-- Every next state of the outcome has the property. -/
def Yields (Q : State → Prop) (o : Out) : Prop := ∀ t, o = .next t → Q t

section
variable {Q : State → Prop} {s : State}

theorem yields_next (h : Q s) : Yields Q (.next s) := by
  intro t ht
  cases ht
  exact h

theorem yields_guarded {cs : List Check} {k : State → Out}
    (hstop : ∀ st, firstError cs = some st → Q (s.respond (Response.bare st)))
    (hpass : firstError cs = none → Yields Q (k s)) : Yields Q (guarded cs s k) := by
  intro t ht
  obtain ⟨st, hst, rfl⟩ | ⟨hnone, hk⟩ := guarded_cases ht
  · exact hstop st hst
  · exact hpass hnone t hk

theorem yields_orFault {α : Type} {x : Except Fault α} {k : α → Out}
    (h : ∀ a, x = .ok a → Yields Q (k a)) : Yields Q (orFault x k) := by
  intro t ht
  obtain ⟨a, ha, hk⟩ := orFault_cases ht
  exact h a ha t hk

end

/-! ## The operations that keep H -/

/-- The outcome has the header register of the state. -/
abbrev KeepsHeader (s : State) : Out → Prop := Yields fun t => t.h = s.h

section
variable {s : State}

theorem keepsHeader_finish {u : State} (r : Response) (h : u.h = s.h) :
    KeepsHeader s (finish r u) := yields_next h

theorem keepsHeader_guarded {cs : List Check} {k : State → Out} (h : KeepsHeader s (k s)) :
    KeepsHeader s (guarded cs s k) := yields_guarded (fun _ _ => rfl) fun _ => h

theorem keepsHeader_orFault {α : Type} {x : Except Fault α} {k : α → Out}
    (h : ∀ a, KeepsHeader s (k a)) : KeepsHeader s (orFault x k) := yields_orFault fun a _ => h a

theorem keepsHeader_updatePacket (x : Except Fault Packet) : KeepsHeader s (updatePacket x s) :=
  keepsHeader_orFault fun _ => keepsHeader_finish _ rfl

end

/-- The operations that can write H (R20). -/
def writesHeader : Instr → Bool
  | .hdrDecode _ | .hdrRaw _ _ | .hdrFields _ _ _ _ _ _ _ _ | .hdrSetRcv _ | .pktGetHdr => true
  | _ => false

/-- R110: every other operation leaves H as it was. -/
theorem exec_keepsHeader {i : Instr} (hi : writesHeader i = false) (s : State) :
    KeepsHeader s (exec i s) := by
  cases i
  -- the operations that write H
  case hdrDecode | hdrRaw | hdrFields | hdrSetRcv | pktGetHdr => exact nomatch hi
  -- no check, and a response
  case ckCompute | ckInit => exact keepsHeader_finish _ rfl
  -- checks, and a response
  case hdrEncode | hdrGet | pktNew | pktFromBytes | ckUpdate | ckFinal =>
    simp only [exec, execHdrEncode, execHdrGet, execPktNew, execPktFromBytes, execCkUpdate,
      execCkFinal]
    exact keepsHeader_guarded (keepsHeader_finish _ rfl)
  -- checks, and a response with what is read from the packet
  case pktToBytes | pktGetStat | pktGetTask | pktGetPay | valIsValid =>
    simp only [exec, execPktToBytes, execPktGetStat, execPktGetTask, execPktGetPay, execValIsValid]
    exact keepsHeader_guarded (keepsHeader_orFault fun _ => keepsHeader_finish _ rfl)
  -- checks, and an update of the packet
  case pktSetHdr | pktSetStat | pktSetTask | pktSetPay | pktSetFcs | valSeal =>
    exact keepsHeader_guarded (keepsHeader_updatePacket _)
  case pktGetFcs =>
    rw [exec, execPktGetFcs]
    refine keepsHeader_guarded ?_
    split
    · exact keepsHeader_finish _ rfl
    · exact keepsHeader_orFault fun _ => keepsHeader_finish _ rfl
  case txPrep =>
    rw [exec, execTxPrep]
    exact keepsHeader_guarded (keepsHeader_orFault fun _ =>
      keepsHeader_orFault fun _ => keepsHeader_finish _ rfl)
  case rxAccept =>
    rw [exec, execRxAccept]
    refine keepsHeader_guarded (keepsHeader_orFault fun receiver => ?_)
    split
    · exact keepsHeader_finish _ rfl
    · refine keepsHeader_orFault fun v => ?_
      split <;> exact keepsHeader_finish _ rfl

/-! ## The whole header that PKT.GETHDR loads (R135) -/

theorem holdsAt_append {m : Memory} {off : Nat} {bs cs : List Byte} (hb : holdsAt m off bs)
    (hc : holdsAt m (off + bs.length) cs) : holdsAt m off (bs ++ cs) := by
  intro i hi
  rw [List.length_append] at hi
  by_cases h : i < bs.length
  · rw [hb i h, List.getElem?_append_left h]
  · rw [List.getElem?_append_right (by omega), ← hc (i - bs.length) (by omega)]
    congr 1
    omega

/-- What a run of cells answers is what the buffer holds there. -/
theorem readCells_ok {m : Memory} {off n : Nat} {bs : List Byte} (h : readCells m off n = .ok bs) :
    bs.length = n ∧ holdsAt m off bs := by
  induction n generalizing off bs with
  | zero =>
    cases h
    exact ⟨rfl, fun i hi => absurd hi (Nat.not_lt_zero i)⟩
  | succ n ih =>
    rw [readCells] at h
    split at h
    · cases h
    · next b hb =>
      split at h
      · next rest hrest =>
        cases h
        obtain ⟨hlen, hheld⟩ := ih hrest
        have hfirst : holdsAt m off [b] := by
          intro i hi
          obtain rfl : i = 0 := by simpa using hi
          exact hb
        exact ⟨congrArg (· + 1) hlen, holdsAt_append hfirst hheld⟩
      · cases h

theorem memRead_ok {p : Packet} {off n v : Nat} (h : p.memRead off n = .ok v) :
    ∃ bs, bs.length = n ∧ holdsAt p.buf off bs ∧ v = unLE bs := by
  unfold Packet.memRead Packet.bytesAt at h
  split at h
  · next bs hbs =>
    cases h
    split at hbs
    · obtain ⟨hlen, hheld⟩ := readCells_ok hbs
      exact ⟨bs, hlen, hheld, rfl⟩
    · cases hbs
  · cases h

/-- R101: the wire header is three little-endian images. -/
theorem hdrBytes_eq_le (sp : Word16) (snd rcv : Byte) :
    hdrBytes sp snd rcv = le 2 sp.toNat ++ le 1 snd.toNat ++ le 1 rcv.toNat := by
  have hlow : sp.extractLsb' 0 8 = BitVec.ofNat 8 sp.toNat :=
    BitVec.eq_of_toNat_eq (by rw [toNat_window, BitVec.toNat_ofNat, Nat.pow_zero, Nat.div_one])
  have hhigh : sp.extractLsb' 8 8 = BitVec.ofNat 8 (sp.toNat / 256) :=
    BitVec.eq_of_toNat_eq ((toNat_window sp 8 8).trans (BitVec.toNat_ofNat ..).symm)
  simp [hdrBytes, le, hlow, hhigh]

/-- The image of the number that a byte string of length n stands for is the string. -/
theorem le_ofNat_unLE {n : Nat} {bs : List Byte} (h : bs.length = n) :
    le n (BitVec.ofNat (8 * n) (unLE bs)).toNat = bs := by
  subst h
  rw [BitVec.toNat_ofNat, Nat.mod_eq_of_lt (unLE_lt bs), le_unLE]

/-! ## The operations that write H -/

/-- An operation that loads H when it succeeds, and otherwise leaves it as it was. -/
def LoadsOrKeeps (loaded : State → Prop) (s t : State) : Prop :=
  if t.response = some (only .ok) then loaded t else t.h = s.h

section
variable {loaded : State → Prop} {s : State}

theorem loadsOrKeeps_done {u : State} (h : loaded (u.respond (only .ok))) :
    Yields (LoadsOrKeeps loaded s) (answers u (only .ok)) :=
  yields_next (by rw [LoadsOrKeeps, if_pos rfl]; exact h)

theorem loadsOrKeeps_refused {st : Status} (h : st ≠ .ok) :
    Yields (LoadsOrKeeps loaded s) (answers s (only st)) :=
  yields_next (by rw [LoadsOrKeeps, if_neg (by simpa [only] using h)])

end

/-- The header register holds exactly these bytes, and is loaded. -/
def HoldsHeaderBytes (din : List Byte) (t : State) : Prop :=
  din = hdrBytes t.h.space t.h.sender t.h.receiver ∧ t.h.valid = true

theorem exec_hdrDecode_loads (din : List Byte) (s : State) :
    Yields (LoadsOrKeeps (HoldsHeaderBytes din) s) (exec (.hdrDecode din) s) := by
  by_cases hlen : din.length = 4
  · obtain ⟨b0, b1, b2, b3, rfl⟩ := List.length_eq_four.1 hlen
    rw [exec_hdrDecode_four]
    exact loadsOrKeeps_done ⟨(hdrBytes_hdrSpace b0 b1 b2 b3).symm, rfl⟩
  · rw [exec_hdrDecode_of_length_ne hlen]
    exact loadsOrKeeps_refused (by decide)

/-- The header register holds the four bytes at the start of a packet buffer, and is loaded. -/
def HoldsHeaderOf (p : Packet) (t : State) : Prop :=
  holdsAt p.buf 0 (hdrBytes t.h.space t.h.sender t.h.receiver) ∧ t.h.valid = true

theorem exec_pktGetHdr_loads (s : State) :
    Yields (LoadsOrKeeps (HoldsHeaderOf s.p) s) (exec .pktGetHdr s) := by
  rw [exec, execPktGetHdr]
  cases hv : s.p.valid with
  | false =>
    rw [guarded_packet_empty hv]
    exact loadsOrKeeps_refused (by decide)
  | true =>
    rw [guarded_packet_held hv, guarded_nil]
    refine yields_orFault fun _ hspace => yields_orFault fun _ hsender => yields_orFault fun _ hrcv =>
      loadsOrKeeps_done ⟨?_, rfl⟩
    obtain ⟨b01, hl01, hb01, rfl⟩ := memRead_ok hspace
    obtain ⟨b2, hl2, hb2, rfl⟩ := memRead_ok hsender
    obtain ⟨b3, hl3, hb3, rfl⟩ := memRead_ok hrcv
    have himage : hdrBytes (BitVec.ofNat 16 (unLE b01)) (BitVec.ofNat 8 (unLE b2))
        (BitVec.ofNat 8 (unLE b3)) = b01 ++ b2 ++ b3 := by
      rw [hdrBytes_eq_le, le_ofNat_unLE hl01, le_ofNat_unLE hl2, le_ofNat_unLE hl3]
    simp only [respond_h, loadHeader_h, himage]
    refine holdsAt_append (holdsAt_append hb01 ?_) ?_
    · simpa [hl01] using hb2
    · simpa [hl01, hl2] using hb3

/-- H holds the locked version and sender, and is loaded. -/
def HoldsLock (c : LockedConfig) (t : State) : Prop :=
  t.h.space.extractLsb' 10 2 = c.version ∧ t.h.sender = c.boardId ∧ t.h.valid = true

theorem exec_hdrRaw_stamps (raw16 rcv : Word16) (s : State) :
    Yields (LoadsOrKeeps (HoldsLock s.cfg) s) (exec (.hdrRaw raw16 rcv) s) := by
  obtain h | h := le_or_gt rcv.toNat 255
  · rw [exec_hdrRaw_inRange raw16 h]
    exact loadsOrKeeps_done ⟨rawSpace_version raw16 _, rfl, rfl⟩
  · rw [exec_hdrRaw_tooLarge raw16 h]
    exact loadsOrKeeps_refused (by decide)

theorem exec_hdrFields_stamps (type : BitVec 4) (enc frag : BitVec 1) (prio flags : BitVec 8)
    (val res : BitVec 1) (rcv : Word16) (s : State) : Yields (LoadsOrKeeps (HoldsLock s.cfg) s)
    (exec (.hdrFields type enc frag prio flags val res rcv) s) := by
  obtain h | h := le_or_gt rcv.toNat 255
  · obtain ⟨-, hversion, -⟩ := spaceOf_fields type s.cfg.version enc frag prio flags val res
    rw [exec_hdrFields_inRange type enc frag prio flags val res h]
    exact loadsOrKeeps_done ⟨hversion, rfl, rfl⟩
  · rw [exec_hdrFields_tooLarge type enc frag prio flags val res h]
    exact loadsOrKeeps_refused (by decide)

theorem exec_hdrSetRcv_keeps (rcv : Word16) (s : State) : Yields (fun t =>
    t.h.space = s.h.space ∧ t.h.sender = s.h.sender ∧ t.h.valid = s.h.valid)
    (exec (.hdrSetRcv rcv) s) := by
  cases hv : s.h.valid with
  | false =>
    rw [exec_hdrSetRcv_empty rcv hv]
    exact yields_next ⟨rfl, rfl, hv⟩
  | true =>
    obtain h | h := le_or_gt rcv.toNat 255
    · rw [exec_hdrSetRcv_inRange hv h]
      exact yields_next ⟨rfl, rfl, rfl⟩
    · rw [exec_hdrSetRcv_tooLarge hv h]
      exact yields_next ⟨rfl, rfl, hv⟩

/-- Settles O23: one lemma for each operation that writes H, and one for all the others. -/
theorem onlyWholeLoadsWriteTheLock : Obligations.OnlyWholeLoadsWriteTheLock := by
  intro i s t ht
  cases i
  case hdrDecode din => exact exec_hdrDecode_loads din s t ht
  case pktGetHdr => exact exec_pktGetHdr_loads s t ht
  case hdrRaw raw16 rcv => exact exec_hdrRaw_stamps raw16 rcv s t ht
  case hdrFields type enc frag prio flags val res rcv =>
    exact exec_hdrFields_stamps type enc frag prio flags val res rcv s t ht
  case hdrSetRcv rcv => exact exec_hdrSetRcv_keeps rcv s t ht
  all_goals exact exec_keepsHeader rfl s t ht

end Sys2Proof.Proofs

/-!
PROOFS. The packet layout engine, its layer of facts (41_packet_layout.md R130, R131;
20_memory.md R51).

First the numbers of a layout and the checks on a size; then a packet with its byte image, from which
every window can be read and into which every window can be stored; then which operations make one.
-/

namespace Sys2Proof.Proofs

open Sys2Proof.Machine Sys2Proof.Safety Sys2Proof.Claims Sys2Proof.Laws

/-! ## The numbers of a layout (R130) -/

/-- R75: the model's widths are the ones the claims speak of. -/
theorem widthBytes_eq_widthOf (w : TaskWidth) : widthBytes w = widthOf w := by cases w <;> rfl

theorem widthOf_le_eight (w : TaskWidth) : widthOf w ≤ 8 := by cases w <;> decide

theorem policyBytes_eq_policyWidth (p : Policy) : policyBytes p = policyWidth p := by cases p <;> rfl

theorem layoutFcsBytes_eq_fOf (lay : Layout) : layoutFcsBytes lay = fOf lay := by
  rw [layoutFcsBytes, fOf, ← policyBytes_eq_policyWidth]
  cases lay.kind <;> rfl

theorem fcsBytes_eq_fOf (p : Packet) : p.fcsBytes = fOf p.layout := by
  rw [← layoutFcsBytes_layout, layoutFcsBytes_eq_fOf]

theorem fOf_le_eight (lay : Layout) : fOf lay ≤ 8 := by
  unfold fOf
  split
  · cases lay.policy <;> decide
  · decide

theorem minSize_eq (lay : Layout) : minSize lay = 5 + widthOf lay.width + fOf lay := by
  rw [minSize, widthBytes_eq_widthOf, layoutFcsBytes_eq_fOf]

theorem payloadOffset_eq (p : Packet) : p.payloadOffset = 5 + widthOf p.width := by
  rw [Packet.payloadOffset, widthBytes_eq_widthOf]

theorem pcap_eq (p : Packet) : p.pcap = p.n - p.payloadOffset - fOf p.layout := by
  rw [Packet.pcap, pcap, minSize_eq, payloadOffset_eq, Nat.sub_sub]
  rfl

theorem fcsOffset_eq (p : Packet) : p.fcsOffset = p.n - fOf p.layout := by
  rw [Packet.fcsOffset, fcsBytes_eq_fOf]

/-- A layout that asks for a packet's layout has its checksum field. -/
theorem fOf_of_layoutOf {lay : Layout} {p : Packet} (h : layoutOf lay p) :
    fOf lay = fOf p.layout := by
  obtain ⟨hkind, -, hpolicy⟩ := h
  cases hk : p.kind with
  | basic => simp [fOf, Packet.layout, hkind, hk]
  | framed => simp [fOf, Packet.layout, hkind, hk, hpolicy hk]

/-! ## The checks on a size (R131, R134) -/

section
variable {c : Params} {lay : Layout} {n : Nat}

theorem exceedsMax_eq_false_iff : exceedsMax c n = false ↔ withinMax c n := by
  unfold exceedsMax withinMax
  cases c.pktMax <;> simp

theorem sizeChecks_pass_iff : firstError (sizeChecks c lay n) = none ↔ goodSize c lay n := by
  rw [firstError_eq_none]
  simp [sizeChecks, goodSize, minSize_eq]

/-- `CheckSize` refuses with a LayoutError (R131, R232). -/
theorem sizeChecks_stop (h : ¬goodSize c lay n) :
    ∃ st, isLayoutError st = true ∧ firstError (sizeChecks c lay n) = some st := by
  by_cases hmin : n < minSize lay
  · exact ⟨.eTooSmall, rfl, by simp [sizeChecks, hmin]⟩
  · have halign : n % c.wordUnit ≠ 0 := fun h0 => h ⟨by rw [← minSize_eq]; omega, h0⟩
    exact ⟨.eNotAligned, rfl, by simp [sizeChecks, hmin, halign]⟩

theorem parseChecks_of_withinMax (h : withinMax c n) :
    firstError (parseChecks c lay n) = firstError (sizeChecks c lay n) := by
  simp [parseChecks, exceedsMax_eq_false_iff.2 h]

theorem goodSize_of_parseChecks_pass (h : firstError (parseChecks c lay n) = none) :
    goodSize c lay n := by
  rw [← sizeChecks_pass_iff]
  exact firstError_eq_none.2 fun e he => firstError_eq_none.1 h e (List.mem_cons_of_mem _ he)

/-- When the host has read as many bytes as it asked for, RX.ACCEPT checks the size as PKT.FROMBYTES
does: its own minimum check (R217 (1)) is the one of `CheckSize`. -/
theorem acceptChecks_of_withinMax {s : State} {raw : List Byte} (h : withinMax s.params raw.length) :
    firstError (acceptChecks lay raw.length raw s) =
      firstError (sizeChecks s.params lay raw.length) := by
  rw [acceptChecks, firstError_append, parseChecks_of_withinMax h]
  by_cases hmin : raw.length < minSize lay <;> simp [sizeChecks, hmin]

/-- Once a header is loaded and the capacity is enough, PKT.NEW reports what `CheckSize` refuses. -/
theorem newChecks_of_sizeChecks_stop {s : State} {st : Status} (hh : s.h.valid = true)
    (hmax : withinMax s.params n) (hst : firstError (sizeChecks s.params lay n) = some st)
    (task : Word64) (status : Word16) (seed : Option Word64) (pay : List Byte) :
    firstError (newChecks lay n task status seed pay s) = some st := by
  simp [newChecks, firstError_append, headerCheck, hh, exceedsMax_eq_false_iff.2 hmax, hst]

end

/-! ## Little-endian images (R7) -/

theorem le_eq_map (n v : Nat) :
    le n v = (List.range n).map fun i => BitVec.ofNat 8 (v / 2 ^ (8 * i)) := by
  induction n generalizing v with
  | zero => rfl
  | succ n ih =>
    have hshift : ∀ i, v / 256 / 2 ^ (8 * i) = v / 2 ^ (8 * (i + 1)) := fun i => by
      rw [Nat.div_div_eq_div_mul, Nat.mul_succ, Nat.pow_add, Nat.mul_comm]
    simp [le, ih, List.range_succ_eq_map, hshift]

/-- The model's image of a value is the one the claims speak of. -/
theorem le_toNat (n : Nat) (v : Word64) : le n v.toNat = leBytes n v := by
  simp only [le_eq_map, leBytes, BitVec.extractLsb', Nat.shiftRight_eq_div_pow]

@[simp] theorem length_leBytes (n : Nat) (v : Word64) : (leBytes n v).length = n := by simp [leBytes]

/-- A byte string of at most 8 bytes is the image of one 64-bit value. -/
theorem exists_value_of_bytes {bs : List Byte} (h : bs.length ≤ 8) :
    ∃ v : Word64, v.toNat = unLE bs ∧ v.toNat < 2 ^ (8 * bs.length) ∧ leBytes bs.length v = bs := by
  have hlt := unLE_lt bs
  have hv : (BitVec.ofNat 64 (unLE bs)).toNat = unLE bs := by
    rw [BitVec.toNat_ofNat]
    exact Nat.mod_eq_of_lt (hlt.trans_le (Nat.pow_le_pow_right (by decide) (by omega)))
  exact ⟨_, hv, hv.trans_lt hlt, by rw [← le_toNat, hv, le_unLE]⟩

/-! ## A packet and its image (R28, R30) -/

/-- A packet is held, its buffer is that of an image of N bytes, and N is at least the minimum of its
layout: what the operations on a packet need of it. -/
structure HasImage (p : Packet) (image : List Byte) : Prop where
  valid : p.valid = true
  length : image.length = p.n
  buf : p.buf = Memory.ofBytes 0 image
  size : 5 + widthOf p.width + fOf p.layout ≤ p.n

theorem exists_hasImage {s : State} (hi : Inv s) (hv : s.p.valid = true) :
    ∃ image, HasImage s.p image := by
  obtain ⟨-, -, hp, -⟩ := hi
  obtain ⟨image, hlen, hbuf⟩ := packetOk_image (hp hv)
  obtain ⟨hmin, -⟩ := hp hv
  exact ⟨image, hv, hlen, hbuf, (minSize_eq _).ge.trans hmin⟩

theorem hasImage_buildPacket {c : Params} {lay : Layout} {n : Nat} {image : List Byte}
    (old : Packet) (hsize : goodSize c lay n) (hlen : image.length = n) :
    HasImage (buildPacket old lay n image) image where
  valid := rfl
  length := hlen
  buf := rfl
  size := by
    rw [← fcsBytes_eq_fOf, buildPacket_fcsBytes, layoutFcsBytes_eq_fOf]
    exact hsize.1

theorem holdsAt_ofBytes (image : List Byte) : holdsAt (Memory.ofBytes 0 image) 0 image := fun i _ => by
  simp [read_ofBytes]

theorem HasImage.toBytes {p : Packet} {image : List Byte} (h : HasImage p image) :
    p.bytesAt 0 p.n = .ok image := by
  rw [bytesAt_image h.length h.buf, if_pos (by omega), List.drop_zero,
    List.take_of_length_le h.length.le]

section
variable {p : Packet} {image : List Byte} {off n : Nat}

/-- R51: every window inside the packet can be read, and what is read is what the buffer holds. -/
theorem HasImage.bytesAt_ok (h : HasImage p image) (hw : off + n ≤ p.n) :
    ∃ b, b.length = n ∧ holdsAt p.buf off b ∧ p.bytesAt off n = .ok b := by
  have hcells : readCells p.buf off n = .ok ((image.drop off).take n) := by
    rw [h.buf]
    exact readCells_ofBytes image off n (by rw [h.length]; exact hw)
  obtain ⟨hlen, hheld⟩ := readCells_ok hcells
  exact ⟨_, hlen, hheld, by rw [Packet.bytesAt, if_pos hw, hcells]⟩

/-- R51: every window of at most 8 bytes inside the packet can be read as a number. -/
theorem HasImage.memRead_ok (h : HasImage p image) (hw : off + n ≤ p.n) (hn : n ≤ 8) :
    ∃ v : Word64, v.toNat < 2 ^ (8 * n) ∧ holdsAt p.buf off (leBytes n v) ∧
      p.memRead off n = .ok v.toNat := by
  obtain ⟨b, rfl, hheld, hread⟩ := h.bytesAt_ok hw
  obtain ⟨v, hv, hlt, himage⟩ := exists_value_of_bytes hn
  exact ⟨v, hlt, himage.symm ▸ hheld, by rw [Packet.memRead, hread, hv]⟩

end

/-! ## The ends that operations share -/

section
variable {s : State}

/-- R30: an operation that reads P ends with `E_NO_OBJECT` when no packet is held. -/
theorem exec_packet_empty {i : Instr} (hi : readsPacket i = true) (h : s.p.valid = false) :
    exec i s = answers s (only .eNoObject) := by
  cases i
  -- the header is looked at before the packet
  case pktSetHdr =>
    rw [exec, execPktSetHdr]
    cases hh : s.h.valid with
    | false => exact guarded_header_empty hh
    | true =>
      rw [guarded_header_loaded hh]
      exact guarded_packet_empty h
  -- the packet is looked at first
  case pktToBytes | pktGetHdr | pktGetStat | pktSetStat | pktGetTask | pktSetTask | pktGetPay |
      pktSetPay | pktGetFcs | pktSetFcs | valSeal | valIsValid | txPrep =>
    simp only [exec, execPktToBytes, execPktGetHdr, execPktGetStat, execPktSetStat, execPktGetTask,
      execPktSetTask, execPktGetPay, execPktSetPay, execPktGetFcs, execPktSetFcs, execValSeal,
      execValIsValid, execTxPrep]
    exact guarded_packet_empty h
  -- the operations that do not read P
  all_goals exact nomatch hi

/-- Ending with the number that was read from a window. -/
theorem orFault_value {x : Except Fault Nat} {v : Word64} (h : x = .ok v.toNat) :
    (orFault x fun a => finish (Response.value (BitVec.ofNat 64 a)) s) = answers s (okRes v) := by
  rw [h, orFault_ok, BitVec.ofNat_toNat, BitVec.setWidth_eq]
  rfl

/-- R51: an operation that ends by storing inside the packet changes that window of the buffer alone. -/
theorem stores_of_exec {i : Instr} {off : Nat} {bs : List Byte}
    (hexec : exec i s = updatePacket (s.p.storeBytes off bs) s) (hw : off + bs.length ≤ s.p.n) :
    stores i s off bs := by
  refine ⟨s.p.buf.store off bs, by rw [hexec, storeBytes_ok hw]; rfl, fun i hi => ?_, fun a ha =>
    read_store_outside _ _ _ _ ha⟩
  rw [read_store, dif_pos ⟨by omega, by omega⟩, List.getElem?_eq_getElem hi]
  simp

end

/-! ## The operations that make a packet (R132, R134, R217) -/

/-- The outcome is an error or NO_PACKET, or the packet in P has the image. -/
def Makes (image : List Byte) : Out → Prop :=
  Yields fun t => t.response = some (only .ok) → HasImage t.p image

section
variable {image : List Byte} {s : State}

theorem makes_finish {u : State} (r : Response) (h : HasImage u.p image) : Makes image (finish r u) :=
  yields_next fun _ => h

theorem makes_raise {st : Status} (h : st ≠ .ok) : Makes image (raise st s) :=
  yields_next fun hr => absurd (congrArg (Option.map Response.status) hr) (by simpa [only] using h)

theorem makes_guarded {cs : List Check} {k : State → Out} (hst : ∀ c ∈ cs, c.2 ≠ .ok)
    (h : firstError cs = none → Makes image (k s)) : Makes image (guarded cs s k) :=
  yields_guarded
    (fun _ he => makes_raise (s := s) (hst _ (mem_of_firstError he)) _ rfl) h

theorem exec_pktFromBytes_makes (lay : Layout) (raw : List Byte) :
    Makes raw (exec (.pktFromBytes lay raw) s) := by
  rw [exec, execPktFromBytes]
  exact makes_guarded (by simp [parseChecks, sizeChecks]) fun hpass =>
    makes_finish _ (hasImage_buildPacket _ (goodSize_of_parseChecks_pass hpass) rfl)

theorem exec_rxAccept_makes (lay : Layout) (n : BitVec 32) (raw : List Byte) :
    Makes raw (exec (.rxAccept lay n raw) s) := by
  rw [exec, execRxAccept]
  refine makes_guarded (by simp [acceptChecks, parseChecks, sizeChecks]) fun hpass => ?_
  rw [acceptChecks, firstError_append, Option.or_eq_none_iff] at hpass
  have himage : HasImage (parsedPacket s.p lay raw) raw :=
    hasImage_buildPacket _ (goodSize_of_parseChecks_pass hpass.2) rfl
  refine yields_orFault fun receiver _ => ?_
  split
  · exact makes_raise (by decide)
  · refine yields_orFault fun v _ => ?_
    split
    · exact makes_finish _ himage
    · exact makes_raise (by decide)

/-- The fields of the image that PKT.NEW builds fill the size exactly (R73, R132). -/
theorem length_newImage {lay : Layout} {n : Nat} {pay : List Byte} (h : HeaderReg)
    (hn : minSize lay ≤ n) (hpay : pay.length ≤ pcap n lay) (task : Word64) (st : Word16)
    (seed : Option Word64) : (newImage h.bytes lay n task st seed pay).length = n := by
  have hheader : h.bytes.length = 4 := rfl
  have hsum : pcap n lay + minSize lay = n := Nat.sub_add_cancel hn
  rw [minSize] at hsum
  simp only [newImage, List.length_append, length_le, length_padPayload hpay, hheader]
  omega

theorem exec_pktNew_makes (lay : Layout) (n : BitVec 32) (task : Word64) (st : Word16)
    (seed : Option Word64) (pay : List Byte) :
    Makes (newImage s.h.bytes lay n.toNat task st seed pay)
      (exec (.pktNew lay n task st seed pay) s) := by
  rw [exec, execPktNew]
  refine makes_guarded ?_ fun hpass => ?_
  · simp [newChecks, sizeChecks, headerCheck, taskIdCheck, statusCheck, payloadCheck, seedCheck]
  · have hsize : goodSize s.params lay n.toNat := sizeChecks_pass_iff.1 <|
      firstError_eq_none.2 fun c hc => firstError_eq_none.1 hpass c (by simp [newChecks, hc])
    have hpay : (payloadCheck (pcap n.toNat lay) pay).1 = false :=
      firstError_eq_none.1 hpass _ (by simp [newChecks])
    have hlen := length_newImage s.h ((minSize_eq lay).le.trans hsize.1)
      (Nat.not_lt.1 (of_decide_eq_false hpay)) task st seed
    exact makes_finish _ (hasImage_buildPacket _ hsize hlen)

/-- R30: a packet that an operation has made has an image. -/
theorem exec_makesPacket {i : Instr} {t : State} (hi : makesPacket i = true)
    (ht : exec i s = .next t) (hok : t.response = some (only .ok)) :
    ∃ image, HasImage t.p image := by
  cases i
  case pktNew lay n task st seed pay => exact ⟨_, exec_pktNew_makes lay n task st seed pay t ht hok⟩
  case pktFromBytes lay raw => exact ⟨_, exec_pktFromBytes_makes lay raw t ht hok⟩
  case rxAccept lay n raw => exact ⟨_, exec_rxAccept_makes lay n raw t ht hok⟩
  all_goals exact nomatch hi

end

end Sys2Proof.Proofs

/-!
PROOFS. The packet layout engine, the operations on a packet that is held (41_packet_layout.md R133 to
R147): how each of them ends, then the obligations.
-/

namespace Sys2Proof.Proofs

open Sys2Proof.Machine Sys2Proof.Safety Sys2Proof.Claims Sys2Proof.Laws

/-! ## The command words of the packet operations (R78, R79) -/

theorem coded_pktToBytes : coded .pktToBytes 0x0011 :=
  coded_of_formatZ 0x11 rfl (by simp [decode, encode, opcode])

theorem coded_pktGetHdr : coded .pktGetHdr 0x0013 :=
  coded_of_formatZ 0x13 rfl (by simp [decode, encode, opcode])

theorem coded_pktSetHdr : coded .pktSetHdr 0x0014 :=
  coded_of_formatZ 0x14 rfl (by simp [decode, encode, opcode])

theorem coded_pktGetStat : coded .pktGetStat 0x0015 :=
  coded_of_formatZ 0x15 rfl (by simp [decode, encode, opcode])

theorem coded_pktSetStat (st : Word16) : coded (.pktSetStat st) 0x0016 :=
  coded_of_formatZ 0x16 rfl (by simp [decode, encode, opcode])

theorem coded_pktGetTask : coded .pktGetTask 0x0017 :=
  coded_of_formatZ 0x17 rfl (by simp [decode, encode, opcode])

theorem coded_pktSetTask (task : Word64) : coded (.pktSetTask task) 0x0018 :=
  coded_of_formatZ 0x18 rfl (by simp [decode, encode, opcode])

theorem coded_pktGetPay : coded .pktGetPay 0x0019 :=
  coded_of_formatZ 0x19 rfl (by simp [decode, encode, opcode])

theorem coded_pktSetPay (pay : List Byte) : coded (.pktSetPay pay) 0x001A :=
  coded_of_formatZ 0x1A rfl (by simp [decode, encode, opcode])

theorem coded_pktGetFcs : coded .pktGetFcs 0x001B :=
  coded_of_formatZ 0x1B rfl (by simp [decode, encode, opcode])

theorem coded_pktSetFcs (v : Word64) : coded (.pktSetFcs v) 0x001C :=
  coded_of_formatZ 0x1C rfl (by simp [decode, encode, opcode])

/-! ## The whole image (R133, R134) -/

section
variable {s : State} {image : List Byte}

theorem exec_pktToBytes_image (h : HasImage s.p image) :
    exec .pktToBytes s = answers s (okBytes image) := by
  rw [exec, execPktToBytes, guarded_packet_held h.valid, guarded_nil, h.toBytes]
  rfl

/-- R134: PKT.FROMBYTES accepts a byte string of a good size. -/
theorem exec_pktFromBytes_accepts {lay : Layout} {raw : List Byte}
    (hmax : withinMax s.params raw.length) (hsize : goodSize s.params lay raw.length) :
    exec (.pktFromBytes lay raw) s =
      answers { s with p := parsedPacket s.p lay raw } (only .ok) := by
  rw [exec, execPktFromBytes, guarded_pass]
  · rfl
  · rw [parseChecks_of_withinMax hmax, sizeChecks_pass_iff.2 hsize]

/-- R147: what is parsed from a packet's image with the packet's layout is an equal packet. -/
theorem samePacket_parsedPacket {lay : Layout} {p : Packet} (h : HasImage p image)
    (hlay : layoutOf lay p) (old : Packet) : SamePacket p (parsedPacket old lay image) := by
  obtain ⟨hkind, hwidth, hpolicy⟩ := hlay
  refine ⟨h.valid, fun _ => ⟨hkind.symm, h.length.symm, hwidth.symm, h.buf, fun hk => ?_⟩⟩
  rw [parsedPacket, buildPacket_policy_framed _ _ _ _ (hkind.trans hk), hpolicy hk]

/-! ## The payload field (R141, R142) -/

theorem HasImage.pcap_add {p : Packet} (h : HasImage p image) :
    p.pcap + 5 + widthOf p.width + fOf p.layout = p.n := by
  have := h.size
  rw [pcap_eq, payloadOffset_eq]
  omega

theorem exec_pktGetPay_image (h : HasImage s.p image) : ∃ b, b.length = s.p.pcap ∧
    holdsAt s.p.buf s.p.payloadOffset b ∧ exec .pktGetPay s = answers s (okBytes b) := by
  have hfield : s.p.payloadOffset + s.p.pcap ≤ s.p.n := by
    have := h.pcap_add
    rw [payloadOffset_eq]
    omega
  obtain ⟨b, hlen, hheld, hread⟩ := h.bytesAt_ok hfield
  refine ⟨b, hlen, hheld, ?_⟩
  rw [exec, execPktGetPay, guarded_packet_held h.valid, guarded_nil, hread]
  rfl

theorem exec_pktSetPay_fits (h : HasImage s.p image) {pay : List Byte} (hpay : pay.length ≤ s.p.pcap) :
    stores (.pktSetPay pay) s s.p.payloadOffset (padPayload s.p.pcap pay) := by
  refine stores_of_exec ?_ ?_
  · rw [exec, execPktSetPay, guarded_packet_held h.valid,
      guarded_cons_pass (decide_eq_false (Nat.not_lt.2 hpay)), guarded_nil]
  · have := h.pcap_add
    rw [length_padPayload hpay, payloadOffset_eq]
    omega

theorem exec_pktSetPay_tooLarge (hv : s.p.valid = true) {pay : List Byte}
    (hpay : s.p.pcap < pay.length) :
    exec (.pktSetPay pay) s = answers s (only .ePayloadTooLarge) := by
  rw [exec, execPktSetPay, guarded_packet_held hv]
  exact guarded_cons_stop (decide_eq_true hpay)

/-! ## The header, the status and the task id (R135 to R140) -/

theorem exec_pktGetHdr_image (h : HasImage s.p image) : ∃ sp snd rcv,
    exec .pktGetHdr s = answers (s.loadHeader sp snd rcv) (only .ok) := by
  have hn := h.size
  obtain ⟨space, -, -, hspace⟩ := h.memRead_ok (off := 0) (n := 2) (by omega) (by decide)
  obtain ⟨sender, -, -, hsender⟩ := h.memRead_ok (off := 2) (n := 1) (by omega) (by decide)
  obtain ⟨receiver, -, -, hreceiver⟩ := h.memRead_ok (off := 3) (n := 1) (by omega) (by decide)
  refine ⟨BitVec.ofNat 16 space.toNat, BitVec.ofNat 8 sender.toNat,
    BitVec.ofNat 8 receiver.toNat, ?_⟩
  rw [exec, execPktGetHdr, guarded_packet_held h.valid, guarded_nil, hspace, orFault_ok, hsender,
    orFault_ok, hreceiver, orFault_ok]
  rfl

theorem exec_pktSetHdr_loaded (h : HasImage s.p image) (hh : s.h.valid = true) :
    stores .pktSetHdr s 0 s.h.bytes := by
  refine stores_of_exec ?_ ?_
  · rw [exec, execPktSetHdr, guarded_header_loaded hh, guarded_packet_held h.valid, guarded_nil]
  · have hn := h.size
    have hlen : s.h.bytes.length = 4 := rfl
    omega

theorem exec_pktSetHdr_noHeader (hh : s.h.valid = false) :
    exec .pktSetHdr s = answers s (only .eNoObject) := by
  rw [exec, execPktSetHdr]
  exact guarded_header_empty hh

theorem exec_pktGetStat_image (h : HasImage s.p image) : ∃ v : Word64, v.toNat < 2 ^ 8 ∧
    holdsAt s.p.buf 4 (leBytes 1 v) ∧ exec .pktGetStat s = answers s (okRes v) := by
  have hn := h.size
  obtain ⟨v, hlt, hheld, hread⟩ := h.memRead_ok (off := 4) (n := 1) (by omega) (by decide)
  refine ⟨v, hlt, hheld, ?_⟩
  rw [exec, execPktGetStat, guarded_packet_held h.valid, guarded_nil]
  exact orFault_value hread

theorem exec_pktGetTask_image (h : HasImage s.p image) :
    ∃ v : Word64, v.toNat < 2 ^ (8 * widthOf s.p.width) ∧
      holdsAt s.p.buf 5 (leBytes (widthOf s.p.width) v) ∧
      exec .pktGetTask s = answers s (okRes v) := by
  have hn := h.size
  obtain ⟨v, hlt, hheld, hread⟩ := h.memRead_ok (off := 5) (by omega) (widthOf_le_eight s.p.width)
  refine ⟨v, hlt, hheld, ?_⟩
  rw [exec, execPktGetTask, guarded_packet_held h.valid, guarded_nil, widthBytes_eq_widthOf]
  exact orFault_value hread

/-- R7: the one-byte image of a status of at most 255 is the low byte of its port. -/
theorem le_status (st : Word16) : le 1 st.toNat = [st.extractLsb' 0 8] := by
  rw [← setWidth_eq_window]
  rfl

theorem exec_pktSetStat_inRange (h : HasImage s.p image) {st : Word16} (hst : st.toNat ≤ 255) :
    stores (.pktSetStat st) s 4 [st.extractLsb' 0 8] := by
  refine stores_of_exec ?_ ?_
  · rw [exec, execPktSetStat, guarded_packet_held h.valid,
      guarded_cons_pass (decide_eq_false (Nat.not_lt.2 hst)), guarded_nil, Packet.memWrite, le_status]
  · have hn := h.size
    rw [List.length_singleton]
    omega

theorem exec_pktSetStat_tooLarge {st : Word16} (hv : s.p.valid = true) (hst : 255 < st.toNat) :
    exec (.pktSetStat st) s = answers s (only .eStatusRange) := by
  rw [exec, execPktSetStat, guarded_packet_held hv]
  exact guarded_cons_stop (decide_eq_true hst)

theorem exec_pktSetTask_fits (h : HasImage s.p image) {task : Word64}
    (htask : task.toNat < 2 ^ (8 * widthOf s.p.width)) :
    stores (.pktSetTask task) s 5 (leBytes (widthOf s.p.width) task) := by
  refine stores_of_exec ?_ ?_
  · rw [exec, execPktSetTask, guarded_packet_held h.valid,
      guarded_cons_pass (by simp [taskIdCheck, fits, widthBytes_eq_widthOf, htask]), guarded_nil,
      Packet.memWrite, le_toNat, widthBytes_eq_widthOf]
  · have hn := h.size
    rw [length_leBytes]
    omega

theorem exec_pktSetTask_tooLarge {task : Word64} (hv : s.p.valid = true)
    (htask : 2 ^ (8 * widthOf s.p.width) ≤ task.toNat) :
    exec (.pktSetTask task) s = answers s (only .eTaskIdRange) := by
  rw [exec, execPktSetTask, guarded_packet_held hv]
  exact guarded_cons_stop (by simpa [taskIdCheck, fits, widthBytes_eq_widthOf] using htask)

/-! ## The checksum field (R143, R144) -/

theorem exec_pktGetFcs_absent (hv : s.p.valid = true) (hf : fOf s.p.layout = 0) :
    exec .pktGetFcs s = answers s { status := .ok, res := 0, absent := true, dout := [] } := by
  rw [exec, execPktGetFcs, guarded_packet_held hv, guarded_nil, fcsBytes_eq_fOf, if_pos hf]
  rfl

theorem exec_pktGetFcs_image (h : HasImage s.p image) (hf : 0 < fOf s.p.layout) :
    ∃ v : Word64, v.toNat < 2 ^ (8 * fOf s.p.layout) ∧
      holdsAt s.p.buf (s.p.n - fOf s.p.layout) (leBytes (fOf s.p.layout) v) ∧
      exec .pktGetFcs s = answers s (okRes v) := by
  have hn := h.size
  obtain ⟨v, hlt, hheld, hread⟩ := h.memRead_ok (off := s.p.n - fOf s.p.layout) (by omega)
    (fOf_le_eight s.p.layout)
  refine ⟨v, hlt, hheld, ?_⟩
  rw [exec, execPktGetFcs, guarded_packet_held h.valid, guarded_nil, fcsBytes_eq_fOf,
    if_neg hf.ne', fcsOffset_eq]
  exact orFault_value hread

section
variable {v : Word64}

theorem exec_pktSetFcs_absent (v : Word64) (hv : s.p.valid = true) (hf : fOf s.p.layout = 0) :
    exec (.pktSetFcs v) s = answers s (only .eFcsAbsent) := by
  rw [exec, execPktSetFcs, guarded_packet_held hv]
  exact guarded_cons_stop (by simp [fcsBytes_eq_fOf, hf])

theorem exec_pktSetFcs_tooLarge (hv : s.p.valid = true) (hf : 0 < fOf s.p.layout)
    (hlarge : 2 ^ (8 * fOf s.p.layout) ≤ v.toNat) :
    exec (.pktSetFcs v) s = answers s (only .eFcsRange) := by
  rw [exec, execPktSetFcs, guarded_packet_held hv,
    guarded_cons_pass (by simp [fcsBytes_eq_fOf, hf.ne'])]
  exact guarded_cons_stop (by simpa [fits, fcsBytes_eq_fOf] using hlarge)

theorem exec_pktSetFcs_fits (h : HasImage s.p image) (hf : 0 < fOf s.p.layout)
    (hfits : v.toNat < 2 ^ (8 * fOf s.p.layout)) :
    stores (.pktSetFcs v) s (s.p.n - fOf s.p.layout) (leBytes (fOf s.p.layout) v) := by
  refine stores_of_exec ?_ ?_
  · rw [exec, execPktSetFcs, guarded_packet_held h.valid,
      guarded_cons_pass (by simp [fcsBytes_eq_fOf, hf.ne']),
      guarded_cons_pass (by simp [fits, fcsBytes_eq_fOf, hfits]), guarded_nil, Packet.memWrite,
      le_toNat, fcsBytes_eq_fOf, fcsOffset_eq]
  · have hn := h.size
    rw [length_leBytes]
    omega

end

/-! ## Bad sizes (R131, R146) -/

section
variable {st : Status} {lay : Layout}

theorem exec_pktFromBytes_badSize {raw : List Byte} (hmax : withinMax s.params raw.length)
    (hst : firstError (sizeChecks s.params lay raw.length) = some st) :
    exec (.pktFromBytes lay raw) s = answers s (only st) := by
  rw [exec, execPktFromBytes]
  exact guarded_stop _ _ ((parseChecks_of_withinMax hmax).trans hst)

theorem exec_rxAccept_badSize {raw : List Byte} {n : BitVec 32} (hmax : withinMax s.params raw.length)
    (hst : firstError (sizeChecks s.params lay raw.length) = some st) (hn : n.toNat = raw.length) :
    exec (.rxAccept lay n raw) s = answers s (only st) := by
  rw [exec, execRxAccept, hn]
  exact guarded_stop _ _ ((acceptChecks_of_withinMax hmax).trans hst)

theorem exec_pktNew_badSize {n : BitVec 32} (hh : s.h.valid = true) (hmax : withinMax s.params n.toNat)
    (hst : firstError (sizeChecks s.params lay n.toNat) = some st) (task : Word64) (status : Word16)
    (seed : Option Word64) (pay : List Byte) :
    exec (.pktNew lay n task status seed pay) s = answers s (only st) := by
  rw [exec, execPktNew]
  exact guarded_stop _ _ (newChecks_of_sizeChecks_stop hh hmax hst task status seed pay)

end

end

/-! ## Packet layout engine: the obligations on a packet that is held -/

/-- Settles O28: by the packet's image, which PKT.TOBYTES returns and PKT.FROMBYTES makes a packet of. -/
theorem packetRoundTrip : Obligations.PacketRoundTrip := by
  refine ⟨fun s hi hv => ?_, fun s t lay raw ht hok => ?_⟩
  · obtain ⟨image, h⟩ := exists_hasImage hi hv
    obtain ⟨-, -, hp, -⟩ := hi
    obtain ⟨-, halign, hmax, -⟩ := hp hv
    refine ⟨image, exec_pktToBytes_image h, fun t lay hparams hlay => ?_⟩
    obtain ⟨-, hwidth, -⟩ := id hlay
    refine ⟨_, exec_pktFromBytes_accepts ?_ ⟨?_, ?_⟩, samePacket_parsedPacket h hlay t.p⟩
    · rw [hparams, h.length]
      exact exceedsMax_eq_false_iff.1 hmax
    · rw [hwidth, fOf_of_layoutOf hlay, h.length]
      exact h.size
    · rw [hparams, h.length, halign]
  · exact exec_pktToBytes_image (exec_pktFromBytes_makes lay raw t ht hok)

/-- Settles O29: sizes that `CheckSize` refuses by the first check that applies, the payload field by the
image of the packet that was made. -/
theorem sizeLaw : Obligations.SizeLaw := by
  refine ⟨fun s lay raw hmax => ⟨fun hgood => ?_, fun hbad => ?_⟩,
    fun s lay n task status seed pay hh hmax hbad => ?_, fun i s t hi ht hok => ?_⟩
  · exact ⟨_, exec_pktFromBytes_accepts hmax hgood, rfl⟩
  · obtain ⟨st, hlayout, hst⟩ := sizeChecks_stop hbad
    exact ⟨st, hlayout, exec_pktFromBytes_badSize hmax hst, fun _ => exec_rxAccept_badSize hmax hst⟩
  · obtain ⟨st, hlayout, hst⟩ := sizeChecks_stop hbad
    exact ⟨st, hlayout, exec_pktNew_badSize hh hmax hst task status seed pay⟩
  · obtain ⟨image, h⟩ := exec_makesPacket hi ht hok
    obtain ⟨b, hlen, -, hexec⟩ := exec_pktGetPay_image h
    exact ⟨b, hexec, hlen ▸ h.pcap_add⟩

/-- Settles O26, by the packet's image. -/
theorem toBytesReturnsTheImage : Obligations.ToBytesReturnsTheImage := by
  refine ⟨coded_pktToBytes, fun s => ⟨fun hi hv => ?_, exec_packet_empty rfl⟩⟩
  obtain ⟨image, h⟩ := exists_hasImage hi hv
  exact ⟨image, h.length, h.buf ▸ holdsAt_ofBytes image, exec_pktToBytes_image h⟩

/-- Settles O30: the operation ends with a header, and a header that it loads is the packet's. -/
theorem getHdrLoadsTheHeader : Obligations.GetHdrLoadsTheHeader := by
  refine ⟨coded_pktGetHdr, fun s => ⟨fun hi hv => ?_, exec_packet_empty rfl⟩⟩
  obtain ⟨image, h⟩ := exists_hasImage hi hv
  obtain ⟨sp, snd, rcv, hexec⟩ := exec_pktGetHdr_image h
  have hloads := exec_pktGetHdr_loads s _ hexec
  rw [LoadsOrKeeps, if_pos rfl] at hloads
  exact ⟨sp, snd, rcv, hloads.1, hexec⟩

/-- Settles O31, by the rule of stores: the window is the header's four bytes. -/
theorem setHdrStoresTheHeader : Obligations.SetHdrStoresTheHeader := by
  refine ⟨coded_pktSetHdr, fun s => ⟨fun hi hh hv => ?_, ?_⟩⟩
  · obtain ⟨image, h⟩ := exists_hasImage hi hv
    exact exec_pktSetHdr_loaded h hh
  · rintro (hh | hv)
    · exact exec_pktSetHdr_noHeader hh
    · exact exec_packet_empty rfl hv

/-- Settles O32: both fields are windows of the image, read as numbers. -/
theorem getStatAndTaskReturnTheFields : Obligations.GetStatAndTaskReturnTheFields := by
  refine ⟨coded_pktGetStat, coded_pktGetTask, fun s => ⟨fun hi hv => ?_, fun hv => ?_⟩⟩
  · obtain ⟨image, h⟩ := exists_hasImage hi hv
    exact ⟨exec_pktGetStat_image h, exec_pktGetTask_image h⟩
  · exact ⟨exec_packet_empty rfl hv, exec_packet_empty rfl hv⟩

/-- Settles O33, by the rule of stores and the check of the status. -/
theorem setStatStoresTheStatus : Obligations.SetStatStoresTheStatus := by
  refine fun s st => ⟨coded_pktSetStat st, exec_packet_empty rfl, fun hv hi hst => ?_,
    exec_pktSetStat_tooLarge⟩
  obtain ⟨image, h⟩ := exists_hasImage hi hv
  exact exec_pktSetStat_inRange h hst

/-- Settles O34, by the rule of stores and the check of the task id. -/
theorem setTaskStoresTheTaskId : Obligations.SetTaskStoresTheTaskId := by
  refine fun s task => ⟨coded_pktSetTask task, exec_packet_empty rfl, fun hv hi htask => ?_,
    exec_pktSetTask_tooLarge⟩
  obtain ⟨image, h⟩ := exists_hasImage hi hv
  exact exec_pktSetTask_fits h htask

/-- Settles O35: the offset and the capacity of the claim are the packet's own. -/
theorem payloadFieldReadAndWrite : Obligations.PayloadFieldReadAndWrite := by
  intro s
  dsimp only
  rw [← payloadOffset_eq, ← pcap_eq]
  refine ⟨coded_pktGetPay, coded_pktSetPay,
    fun hv => ⟨exec_packet_empty rfl hv, fun _ => exec_packet_empty rfl hv⟩, fun hi hv => ?_⟩
  obtain ⟨image, h⟩ := exists_hasImage hi hv
  exact ⟨exec_pktGetPay_image h, fun pay => ⟨exec_pktSetPay_fits h, exec_pktSetPay_tooLarge hv⟩⟩

/-- Settles O36: with F = 0 the field is absent, otherwise it is the last window of the image. -/
theorem getFcsReturnsTheField : Obligations.GetFcsReturnsTheField := by
  refine ⟨coded_pktGetFcs, fun s => ⟨exec_packet_empty rfl, exec_pktGetFcs_absent, fun hi hv hf => ?_⟩⟩
  obtain ⟨image, h⟩ := exists_hasImage hi hv
  exact exec_pktGetFcs_image h hf

/-- Settles O37, by the rule of stores and the two checks, absence before range. -/
theorem setFcsStoresTheChecksum : Obligations.SetFcsStoresTheChecksum := by
  refine fun s v => ⟨coded_pktSetFcs v, exec_packet_empty rfl, exec_pktSetFcs_absent v,
    exec_pktSetFcs_tooLarge, fun hv hi hf hfits => ?_⟩
  obtain ⟨image, h⟩ := exists_hasImage hi hv
  exact exec_pktSetFcs_fits h hf hfits

end Sys2Proof.Proofs

/-!
PROOFS. The checksum engine (42_checksum_engine.md R172 to R191).

First the range of the two registers (R32), which every step keeps and which bounds the value (R187);
then the CK operations that meet no error, one equation each; then the obligations.
-/

namespace Sys2Proof.Proofs

open Sys2Proof.Machine Sys2Proof.Safety Sys2Proof.Claims Sys2Proof.Laws

/-! ## The range of the registers (R32) -/

/-- The registers a and b are below A and B. -/
def Within (A B : Nat) (k : Accum) : Prop := k.a.toNat < A ∧ k.b.toNat < B

theorem Within.mono {A B A' B' : Nat} {k : Accum} (h : Within A B k) (hA : A ≤ A') (hB : B ≤ B') :
    Within A' B' k := ⟨h.1.trans_le hA, h.2.trans_le hB⟩

section
variable {m A B : Nat} {k : Accum}

theorem within_sumStep (h0 : 0 < m) (hm : m ≤ 2 ^ 64) (h : Within m B k) (x : Nat) :
    Within m B (sumStep m k x) :=
  ⟨by rw [sumStep_a h0 hm]; exact Nat.mod_lt _ h0, h.2⟩

theorem within_pairStep (h0 : 0 < m) (hm : m ≤ 2 ^ 16) (k : Accum) (x : Nat) :
    Within m m (pairStep m k x) :=
  ⟨by rw [pairStep_a h0 hm]; exact Nat.mod_lt _ h0, by rw [pairStep_b h0 hm]; exact Nat.mod_lt _ h0⟩

theorem within_internetStep {w : Nat} (hw : w < 65536) (h : Within 65536 B k) :
    Within 65536 B (internetStep k w) := by
  obtain ⟨ha, hb⟩ := h
  refine ⟨?_, hb⟩
  rw [internetStep_a ha hw]
  split <;> omega

/-- A CRC register of n bits, kept in a. -/
theorem within_register {n : Nat} (hn : n ≤ 64) (r : BitVec n) (h : Within A B k) :
    Within (2 ^ n) B { k with a := r.setWidth 64 } :=
  ⟨by rw [BitVec.toNat_setWidth_of_le hn]; exact r.isLt, h.2⟩

/-- A word step that keeps the registers in range, for every 16-bit word. -/
def KeepsWithin (A B : Nat) (step : Accum → Nat → Accum) : Prop :=
  ∀ k w, w < 65536 → Within A B k → Within A B (step k w)

section
variable {step : Accum → Nat → Accum}

theorem within_absorbWord (hstep : KeepsWithin A B step) (h : Within A B k) (x : Byte) :
    Within A B (absorbWord step k x) := by
  obtain ⟨-, he⟩ | ⟨-, he⟩ := absorbWord_cases step k x
  · rw [he]
    exact h
  · rw [he]
    exact hstep k _ (by omega) h

theorem within_flushWord (hstep : KeepsWithin A B step) (h : Within A B k) :
    Within A B (flushWord step k) := by
  unfold flushWord
  split
  · exact hstep k _ (by omega) h
  · exact h

end

theorem keepsWithin_fletcher32Step : KeepsWithin 65535 65535 fletcher32Step :=
  fun k w _ _ => within_pairStep (by decide) (by decide) k w

theorem keepsWithin_internetStep (B : Nat) : KeepsWithin 65536 B internetStep :=
  fun _ _ hw h => within_internetStep hw h

end

/-- R32: the registers are in the range of the policy. -/
abbrev InRange (p : Policy) (k : Accum) : Prop := Within (aBound p) (bBound p) k

theorem inRange_ckStart (p : Policy) : InRange p (ckStart p) := by
  unfold InRange Within
  cases p <;> decide

theorem inRange_absorb {p : Policy} {k : Accum} (h : InRange p k) (x : Byte) :
    InRange p (absorb p k x) := by
  cases p
  case none => exact h
  case sum8 | sum16 | sum32 => exact within_sumStep (by decide) (by decide) h _
  case crc8 | crc16 | crc32 => exact within_register (by decide) _ h
  case crc64 => exact ⟨BitVec.isLt _, h.2⟩
  case fletcher16 | adler32 => exact within_pairStep (by decide) (by decide) k _
  case fletcher32 => exact within_absorbWord keepsWithin_fletcher32Step h x
  case internet16 => exact within_absorbWord (keepsWithin_internetStep _) h x

theorem inRange_absorbAll {p : Policy} {k : Accum} (h : InRange p k) (s : List Byte) :
    InRange p (absorbAll p k s) := by
  induction s generalizing k with
  | nil => exact h
  | cons x s ih => exact ih (inRange_absorb h x)

/-! ## The value fits the field (R187) -/

theorem pairValue_lt {n : Nat} {k : Accum} (h : Within (2 ^ n) (2 ^ n) k) :
    (pairValue n k).toNat < 2 ^ (n + n) := by
  obtain ⟨ha, hb⟩ := h
  have hhigh : (k.b.setWidth 64 <<< n).toNat < 2 ^ (n + n) := by
    rw [BitVec.toNat_shiftLeft, BitVec.toNat_setWidth_of_le (by decide), Nat.shiftLeft_eq, Nat.pow_add]
    exact (Nat.mod_le _ _).trans_lt (Nat.mul_lt_mul_of_pos_right hb (Nat.two_pow_pos n))
  have hlow : k.a.toNat < 2 ^ (n + n) :=
    ha.trans_le (Nat.pow_le_pow_right (by decide) (Nat.le_add_right n n))
  rw [pairValue, BitVec.toNat_or]
  exact Nat.or_lt_two_pow hhigh hlow

theorem ckValue_lt {p : Policy} {k : Accum} (h : InRange p k) :
    (ckValue p k).toNat < 2 ^ (8 * policyWidth p) := by
  cases p
  case none => exact Nat.one_pos
  case sum8 | sum16 | sum32 | crc8 | crc16 | crc64 => exact h.1
  case crc32 =>
    rw [ckValue, BitVec.toNat_xor]
    exact Nat.xor_lt_two_pow h.1 (by decide)
  case fletcher16 => exact pairValue_lt (n := 8) (h.mono (by decide) (by decide))
  case adler32 => exact pairValue_lt (n := 16) (h.mono (by decide) (by decide))
  case fletcher32 =>
    exact pairValue_lt (n := 16)
      ((within_flushWord keepsWithin_fletcher32Step h).mono (by decide) (by decide))
  case internet16 =>
    rw [ckValue, BitVec.toNat_and]
    exact Nat.and_lt_two_pow _ (by decide)

/-- R187. -/
theorem compute_lt (p : Policy) (b : List Byte) : (compute p b).toNat < 2 ^ (8 * policyWidth p) :=
  ckValue_lt (inRange_absorbAll (inRange_ckStart p) b)

/-! ## Closed values (R188, R189, R191) -/

theorem compute_nil (p : Policy) :
    compute p [] = if p = .adler32 then 1 else if p = .internet16 then 0xFFFF else 0 := by
  cases p <;> decide

theorem ckStart_eq (p : Policy) :
    ckStart p = ⟨if p = .crc32 then 0xFFFFFFFF else if p = .adler32 then 1 else 0, 0, false, 0⟩ := by
  cases p <;> rfl

/-! ## How the CK operations end (R190 to R193) -/

theorem exec_ckCompute (p : Policy) (b : List Byte) (s : State) :
    exec (.ckCompute p b) s = answers s (okRes (compute p b)) := rfl

theorem exec_ckInit (p : Policy) (s : State) :
    exec (.ckInit p) s = answers { s with k := ⟨true, p, ckStart p⟩ } (only .ok) := rfl

section
variable {s : State}

theorem guarded_stream_active {cs : List Check} {k : State → Out} (h : s.k.active = true) :
    guarded (streamCheck s :: cs) s k = guarded cs s k :=
  guarded_cons_pass (by simp [streamCheck, h])

theorem exec_ckUpdate_active (c : List Byte) (h : s.k.active = true) : exec (.ckUpdate c) s =
    answers { s with k := { s.k with acc := absorbAll s.k.policy s.k.acc c } } (only .ok) := by
  rw [exec, execCkUpdate]
  exact guarded_stream_active h

theorem exec_ckFinal_active (h : s.k.active = true) : exec .ckFinal s =
    answers { s with k := { s.k with active := false } } (okRes (ckValue s.k.policy s.k.acc)) := by
  rw [exec, execCkFinal]
  exact guarded_stream_active h

end

theorem execAll_cons_answers {i : Instr} {s u : State} {r : Response} (h : exec i s = answers u r)
    (is : List Instr) : execAll (i :: is) s = execAll is { u with response := some r } := by
  rw [execAll, h]
  rfl

/-- R172: what is left of a stream computation gives what the chunks give as one string. -/
theorem execAll_updates_final (chunks : List (List Byte)) {s : State} (h : s.k.active = true) :
    execAll ((chunks.map fun c => .ckUpdate c) ++ [.ckFinal]) s =
      answers { s with k := ⟨false, s.k.policy, absorbAll s.k.policy s.k.acc chunks.flatten⟩ }
        (okRes (ckValue s.k.policy (absorbAll s.k.policy s.k.acc chunks.flatten))) := by
  induction chunks generalizing s with
  | nil => exact execAll_cons_answers (exec_ckFinal_active h) []
  | cons c cs ih =>
    rw [List.map_cons, List.cons_append, execAll_cons_answers (exec_ckUpdate_active c h),
      List.flatten_cons, absorbAll_append]
    exact ih h

/-! ## The command words of CK.COMPUTE and CK.INIT (R77, R78) -/

/-- A format S operation with a policy selector. -/
theorem coded_of_policy (f : Policy → Instr) (p : Policy) (op : BitVec 8)
    (hcmd : (encode (f p)).cmd = wordS (policyCode p) op)
    (hdec : decode (encode (f p)) = decodePolicy (wordS (policyCode p) op) f) :
    coded (f p) (op.toNat + 256 * (policyCode p).toNat) := by
  refine ⟨?_, ?_⟩
  · rw [hcmd, toNat_wordS]
    omega
  · rw [hdec, decodePolicy, if_pos (high_wordS ..), cmdSel_wordS, policyOfCode_code]

theorem coded_ckCompute (p : Policy) (b : List Byte) :
    coded (.ckCompute p b) (0x0020 + 256 * (policyCode p).toNat) :=
  coded_of_policy (fun p => .ckCompute p b) p 0x20 rfl (by simp [decode, encode, opcode])

theorem coded_ckInit (p : Policy) : coded (.ckInit p) (0x0021 + 256 * (policyCode p).toNat) :=
  coded_of_policy (fun p => .ckInit p) p 0x21 rfl (by simp [decode, encode, opcode])

/-- R77: the words of CK.COMPUTE and CK.INIT with a reserved policy code. -/
theorem refusedWord_of_policy {op sel : Nat} (hop : op = 0x20 ∨ op = 0x21) (hlo : 12 ≤ sel)
    (hhi : sel ≤ 15) : refusedWord (op + 256 * sel) := by
  intro s r rest hs hcmd
  have hill : illegal r.cmd := by
    unfold illegal
    rw [hcmd]
    obtain rfl | rfl := hop <;> omega
  exact (illegalWordsAreRefused s r rest hs).1 hill

/-! ## Checksum engine: the obligations but for the operations that leave K alone -/

/-- Settles O39: the registers stay in the policy's range, and the range bounds the value. -/
theorem computeReturnsAFittingChecksum : Obligations.ComputeReturnsAFittingChecksum :=
  ⟨fun _ hlo hhi => refusedWord_of_policy (.inl rfl) hlo hhi,
    fun s p b => ⟨coded_ckCompute p b, exec_ckCompute p b s, compute_lt p b⟩⟩

/-- Settles O48, by induction on the chunks, from the state that CK.INIT leaves. -/
theorem chunkInvariance : Obligations.ChunkInvariance := by
  intro s p chunks
  refine ⟨compute p chunks.flatten, ⟨false, p, absorbAll p (ckStart p) chunks.flatten⟩,
    exec_ckCompute p _ s, ?_, rfl⟩
  rw [expandPseudo, List.cons_append, execAll_cons_answers (exec_ckInit p s),
    execAll_updates_final chunks rfl]
  rfl

/-- Settles O38: the empty string policy by policy, the check values by evaluation. -/
theorem knownChecksumValues : Obligations.KnownChecksumValues := by
  refine ⟨fun s p => ?_, fun s e he => ?_⟩
  · rw [exec_ckCompute, compute_nil]
  · have hvalue : compute e.1 digits = e.2 := by
      revert e
      decide +kernel
    rw [exec_ckCompute, hvalue]

/-- Settles O44: the registers that the claim gives are those of `Init`. -/
theorem initStartsTheStream : Obligations.InitStartsTheStream := by
  refine ⟨fun _ hlo hhi => refusedWord_of_policy (.inr rfl) hlo hhi,
    fun s p => ⟨coded_ckInit p, ?_⟩⟩
  rw [exec_ckInit, ckStart_eq]

end Sys2Proof.Proofs

/-!
PROOFS. The stream context belongs to its three operations (42_checksum_engine.md R194): an operation
that does not write K does not read it either.

A rule for each shared operation says that putting another K into the state before it only puts that K
into the state after it.
-/

namespace Sys2Proof.Proofs

open Sys2Proof.Machine Sys2Proof.Claims

/-- The second outcome is the first one with another K in its next state. -/
def Swaps (k : Stream) (o o' : Out) : Prop := o' = mapNext (fun t => t.setStream k) o

section
variable {s : State} {k : Stream}

theorem swaps_finish (r : Response) {u u' : State} (h : u' = u.setStream k) :
    Swaps k (finish r u) (finish r u') := by
  rw [h]
  rfl

theorem swaps_guarded {cs : List Check} {f : State → Out} (h : Swaps k (f s) (f (s.setStream k))) :
    Swaps k (guarded cs s f) (guarded cs (s.setStream k) f) := by
  unfold guarded
  split
  · rfl
  · exact h

theorem swaps_orFault {α : Type} {x : Except Fault α} {f g : α → Out} (h : ∀ a, Swaps k (f a) (g a)) :
    Swaps k (orFault x f) (orFault x g) := by
  cases x with
  | ok a => exact h a
  | error e => rfl

theorem swaps_ite {c : Prop} [Decidable c] {o₁ o₁' o₂ o₂' : Out} (h₁ : Swaps k o₁ o₁')
    (h₂ : Swaps k o₂ o₂') : Swaps k (if c then o₁ else o₂) (if c then o₁' else o₂') := by
  split
  · exact h₁
  · exact h₂

theorem swaps_updatePacket (x : Except Fault Packet) :
    Swaps k (updatePacket x s) (updatePacket x (s.setStream k)) :=
  swaps_orFault fun _ => swaps_finish _ rfl

end

/-- R194: an operation that does not write K does the same whatever K holds. -/
theorem exec_swaps {i : Instr} (hi : writesStream i = false) (s : State) (k : Stream) :
    Swaps k (exec i s) (exec i (s.setStream k)) := by
  cases i
  -- the operations that write K
  case ckInit | ckUpdate | ckFinal => exact nomatch hi
  -- no check on the state
  case ckCompute => exact swaps_finish _ rfl
  case hdrDecode din =>
    by_cases hlen : din.length = 4
    · obtain ⟨b0, b1, b2, b3, rfl⟩ := List.length_eq_four.1 hlen
      rfl
    · rw [exec_hdrDecode_of_length_ne hlen, exec_hdrDecode_of_length_ne hlen]
      rfl
  -- checks, and a response
  case hdrEncode | hdrRaw | hdrFields | hdrSetRcv | hdrGet | pktNew | pktFromBytes =>
    simp only [exec, execHdrEncode, execHdrRaw, execHdrFields, execHdrSetRcv, execHdrGet,
      execPktNew, execPktFromBytes]
    exact swaps_guarded (swaps_finish _ rfl)
  -- checks, and a response with what is read from the packet
  case pktToBytes | pktGetStat | pktGetTask | pktGetPay | valIsValid =>
    simp only [exec, execPktToBytes, execPktGetStat, execPktGetTask, execPktGetPay, execValIsValid]
    exact swaps_guarded (swaps_orFault fun _ => swaps_finish _ rfl)
  case pktGetHdr =>
    rw [exec, execPktGetHdr, exec, execPktGetHdr]
    exact swaps_guarded (swaps_orFault fun _ => swaps_orFault fun _ => swaps_orFault fun _ =>
      swaps_finish _ rfl)
  -- checks, and an update of the packet
  case pktSetHdr | pktSetStat | pktSetTask | pktSetPay | pktSetFcs | valSeal =>
    exact swaps_guarded (swaps_updatePacket _)
  case pktGetFcs =>
    rw [exec, execPktGetFcs, exec, execPktGetFcs]
    exact swaps_guarded (swaps_ite (swaps_finish _ rfl)
      (swaps_orFault fun _ => swaps_finish _ rfl))
  case txPrep =>
    rw [exec, execTxPrep, exec, execTxPrep]
    exact swaps_guarded (swaps_orFault fun _ => swaps_orFault fun _ => swaps_finish _ rfl)
  case rxAccept =>
    rw [exec, execRxAccept, exec, execRxAccept]
    exact swaps_guarded (swaps_orFault fun _ =>
      swaps_ite (swaps_finish _ rfl) (swaps_orFault fun _ =>
        swaps_ite (swaps_finish _ rfl) (swaps_finish _ rfl)))

/-- Settles O49, by the rules of the shared operations. -/
theorem streamContextIsPrivate : Obligations.StreamContextIsPrivate :=
  fun _ s k hi => exec_swaps hi s k

end Sys2Proof.Proofs

/-!
PROOFS. The validator and the pipeline (43_validator_pipeline.md R210 to R218).

One notion carries all four operations: the checksum field that belongs to an image.  `Seal` stores it,
`IsValid` compares the last F bytes with it, TX.PREP seals and returns the image, RX.ACCEPT validates a
parsed image.
-/

namespace Sys2Proof.Proofs

open Sys2Proof.Machine Sys2Proof.Safety Sys2Proof.Claims Sys2Proof.Laws

/-! ## The command words of the validator and of TX.PREP (R78, R79) -/

theorem coded_valSeal : coded .valSeal 0x0030 :=
  coded_of_formatZ 0x30 rfl (by simp [decode, encode, opcode])

theorem coded_valIsValid : coded .valIsValid 0x0031 :=
  coded_of_formatZ 0x31 rfl (by simp [decode, encode, opcode])

theorem coded_txPrep : coded .txPrep 0x0040 :=
  coded_of_formatZ 0x40 rfl (by simp [decode, encode, opcode])

/-! ## Little-endian images and windows of an image (R7, R51) -/

/-- A byte string is the image of a value that fits it exactly when it stands for that value (R7). -/
theorem eq_leBytes_iff {bs : List Byte} {n : Nat} {v : Word64} (hn : bs.length = n)
    (hv : v.toNat < 2 ^ (8 * n)) : bs = leBytes n v ↔ v.toNat = unLE bs := by
  rw [← le_toNat]
  constructor
  · intro h
    rw [h, unLE_le n _ hv]
  · intro h
    rw [h, ← hn, le_unLE]

/-- The buffer of an image holds a byte string from an offset on exactly when the rest of the image begins
with it. -/
theorem holdsAt_ofBytes_iff {image bs : List Byte} {off : Nat} :
    holdsAt (Memory.ofBytes 0 image) off bs ↔ (image.drop off).take bs.length = bs := by
  have hread : ∀ i < bs.length, (Memory.ofBytes 0 image).read (off + i) =
      ((image.drop off).take bs.length)[i]? := fun i hi => by
    rw [read_ofBytes, if_pos (Nat.zero_le _), Nat.sub_zero, List.getElem?_take_of_lt hi,
      List.getElem?_drop]
  constructor
  · intro h
    refine List.ext_getElem? fun i => ?_
    by_cases hi : i < bs.length
    · rw [← hread i hi, h i hi]
    · rw [List.getElem?_eq_none (by simp; omega), List.getElem?_eq_none (by omega)]
  · intro h i hi
    rw [hread i hi, h]

section
variable {p : Packet} {image : List Byte} {off : Nat} {bs : List Byte}

/-- A window that ends where the packet ends is the rest of the image. -/
theorem HasImage.holdsAt_end_iff (h : HasImage p image) (hw : off + bs.length = p.n) :
    holdsAt p.buf off bs ↔ image.drop off = bs := by
  have hlen : bs.length = (image.drop off).length := by
    rw [List.length_drop, h.length]
    omega
  rw [h.buf, holdsAt_ofBytes_iff, hlen, List.take_length]

/-- R51: after a store inside the packet, the packet has the image with the window replaced. -/
theorem HasImage.store (h : HasImage p image) (hw : off + bs.length ≤ p.n) :
    HasImage { p with buf := p.buf.store off bs }
      (image.take off ++ bs ++ image.drop (off + bs.length)) where
  valid := h.valid
  length := by
    have hlen := h.length
    simp only [List.length_append, List.length_take, List.length_drop]
    omega
  buf := by
    rw [← store_ofBytes _ _ _ (h.length ▸ hw), ← h.buf]
  size := h.size

end

/-! ## The checksum field that belongs to an image (R210) -/

/-- The little-endian checksum of all bytes of the image but the last F. -/
def checksumField (p : Packet) (image : List Byte) : List Byte :=
  leBytes (fOf p.layout) (compute p.policy (image.take (p.n - fOf p.layout)))

/-- The image with its checksum field written (R212). -/
def sealedImage (p : Packet) (image : List Byte) : List Byte :=
  image.take (p.n - fOf p.layout) ++ checksumField p image

section
variable {p : Packet} {image : List Byte}

@[simp] theorem length_checksumField (p : Packet) (image : List Byte) :
    (checksumField p image).length = fOf p.layout :=
  length_leBytes ..

/-- The covered bytes of a packet are one byte string. -/
theorem HasImage.checksumField_of_isCovered (h : HasImage p image) {c : List Byte}
    (hc : isCovered p c) :
    leBytes (fOf p.layout) (compute p.policy c) = checksumField p image := by
  obtain ⟨hlen, hheld⟩ := hc
  rw [h.buf, holdsAt_ofBytes_iff, List.drop_zero, hlen] at hheld
  rw [← hheld, checksumField]

/-- The checksum field, F bytes from the offset N − F on, ends where the packet ends (R56). -/
theorem HasImage.sub_fOf_add (h : HasImage p image) :
    p.n - fOf p.layout + fOf p.layout = p.n := by
  have := h.size
  omega

/-- R187: where there is a checksum field, every checksum of the packet's policy fits it. -/
theorem compute_lt_fOf (hf : fOf p.layout ≠ 0) (bs : List Byte) :
    (compute p.policy bs).toNat < 2 ^ (8 * fOf p.layout) := by
  cases hk : p.kind with
  | basic => exact absurd (by simp [fOf, Packet.layout, hk]) hf
  | framed =>
    rw [show fOf p.layout = policyWidth p.policy by simp [fOf, Packet.layout, hk]]
    exact compute_lt p.policy bs

/-! ## `Seal` and `IsValid` (R211, R212) -/

theorem sealed_of_fOf_zero (hf : fOf p.layout = 0) : p.sealed = .ok p := by
  rw [Packet.sealed, fcsBytes_eq_fOf, if_pos hf]
  cases p.kind <;> rfl

theorem isValid_of_fOf_zero (hf : fOf p.layout = 0) : p.isValid = .ok true := by
  rw [Packet.isValid, fcsBytes_eq_fOf, if_pos hf]
  cases p.kind <;> rfl

/-- R212: `Seal` stores the checksum field of the image, and with F = 0 that is to store nothing. -/
theorem HasImage.sealed_eq (h : HasImage p image) :
    p.sealed = p.storeBytes (p.n - fOf p.layout) (checksumField p image) := by
  have hend := h.sub_fOf_add
  have hwindow : p.n - fOf p.layout + (checksumField p image).length = image.length := by
    rw [length_checksumField, hend, h.length]
  rw [storeBytes_ok (hwindow.trans h.length).le]
  by_cases hf : fOf p.layout = 0
  · rw [sealed_of_fOf_zero hf, List.eq_nil_of_length_eq_zero ((length_checksumField p image).trans hf)]
    rfl
  · rw [sealed_image h.length h.buf (by rw [fcsBytes_eq_fOf]; omega), fcsBytes_eq_fOf, if_neg hf,
      fcsOffset_eq, le_toNat, h.buf, store_ofBytes _ _ _ hwindow.le, hwindow, List.drop_length,
      List.append_nil, checksumField]

/-- R212: `Seal` changes the buffer alone, and leaves a packet that has the sealed image. -/
theorem HasImage.exists_sealed (h : HasImage p image) : ∃ buf,
    p.sealed = .ok { p with buf := buf } ∧ HasImage { p with buf := buf } (sealedImage p image) := by
  have hwindow : p.n - fOf p.layout + (checksumField p image).length = p.n := by
    rw [length_checksumField, h.sub_fOf_add]
  have himage := h.store hwindow.le
  rw [hwindow, ← h.length, List.drop_length, List.append_nil, h.length] at himage
  exact ⟨_, h.sealed_eq.trans (storeBytes_ok hwindow.le), himage⟩

/-- R211: a packet is valid exactly when its image ends in the checksum field that belongs to it; with
F = 0 both are empty. -/
theorem HasImage.isValid_eq (h : HasImage p image) :
    p.isValid = .ok (decide (image.drop (p.n - fOf p.layout) = checksumField p image)) := by
  have hend := h.sub_fOf_add
  have hlen : (image.drop (p.n - fOf p.layout)).length = fOf p.layout := by
    rw [List.length_drop, h.length]
    omega
  by_cases hf : fOf p.layout = 0
  · have heq : image.drop (p.n - fOf p.layout) = checksumField p image := by
      rw [List.eq_nil_of_length_eq_zero (hlen.trans hf),
        List.eq_nil_of_length_eq_zero ((length_checksumField p image).trans hf)]
    rw [isValid_of_fOf_zero hf, decide_eq_true heq]
  · rw [isValid_image h.length h.buf (by rw [fcsBytes_eq_fOf]; omega), fcsBytes_eq_fOf, fcsOffset_eq]
    simp only [hf, false_or, checksumField, eq_leBytes_iff hlen (compute_lt_fOf hf _)]

end

/-! ## How the operations end (R213, R214, R216) -/

section
variable {s : State} {image : List Byte}

theorem exec_valSeal_held (hv : s.p.valid = true) : exec .valSeal s = updatePacket s.p.sealed s :=
  guarded_packet_held hv

theorem exec_valSeal_noField (hv : s.p.valid = true) (hf : fOf s.p.layout = 0) :
    exec .valSeal s = answers s (only .ok) := by
  rw [exec_valSeal_held hv, sealed_of_fOf_zero hf]
  rfl

theorem exec_valSeal_image (h : HasImage s.p image) :
    stores .valSeal s (s.p.n - fOf s.p.layout) (checksumField s.p image) := by
  refine stores_of_exec ?_ ?_
  · rw [exec_valSeal_held h.valid, h.sealed_eq]
  · rw [length_checksumField, h.sub_fOf_add]

theorem exec_valIsValid_held (hv : s.p.valid = true) {v : Bool} (hvalid : s.p.isValid = .ok v) :
    exec .valIsValid s = answers s (okRes (if v then 1 else 0)) := by
  rw [exec, execValIsValid, guarded_packet_held hv, guarded_nil, hvalid]
  rfl

theorem exec_valIsValid_noField (hv : s.p.valid = true) (hf : fOf s.p.layout = 0) :
    exec .valIsValid s = answers s (okRes 1) :=
  exec_valIsValid_held hv (isValid_of_fOf_zero hf)

/-- R213: the two results of VAL.ISVALID, by the last F bytes of the image. -/
theorem exec_valIsValid_image (h : HasImage s.p image) : exec .valIsValid s = answers s
    (okRes (if image.drop (s.p.n - fOf s.p.layout) = checksumField s.p image then 1 else 0)) := by
  rw [exec_valIsValid_held h.valid h.isValid_eq]
  simp only [decide_eq_true_eq]

/-- R216: VAL.SEAL and TX.PREP leave the same packet, which has the sealed image, and TX.PREP returns that
image. -/
theorem exec_txPrep_image (h : HasImage s.p image) :
    ∃ buf, HasImage { s.p with buf := buf } (sealedImage s.p image) ∧
      exec .valSeal s = answers { s with p := { s.p with buf := buf } } (only .ok) ∧
      exec .txPrep s =
        answers { s with p := { s.p with buf := buf } } (okBytes (sealedImage s.p image)) := by
  obtain ⟨buf, hsealed, himage⟩ := h.exists_sealed
  refine ⟨buf, himage, ?_, ?_⟩
  · rw [exec_valSeal_held h.valid, hsealed]
    rfl
  · rw [exec, execTxPrep, guarded_packet_held h.valid, guarded_nil, hsealed, orFault_ok,
      himage.toBytes]
    rfl

end

/-! ## How RX.ACCEPT ends once its checks have passed (R217, R218) -/

theorem fOf_parsedPacket (old : Packet) (lay : Layout) (raw : List Byte) :
    fOf (parsedPacket old lay raw).layout = fOf lay := by
  rw [← fcsBytes_eq_fOf, parsedPacket, buildPacket_fcsBytes, layoutFcsBytes_eq_fOf]

/-- The checksum field of a parsed packet is that of the layout operand: a Basic packet, whose policy is
not written, has none (R28, R130). -/
theorem checksumField_parsedPacket (old : Packet) (lay : Layout) (raw : List Byte) :
    checksumField (parsedPacket old lay raw) raw =
      leBytes (fOf lay) (compute lay.policy (raw.take (raw.length - fOf lay))) := by
  rw [checksumField, fOf_parsedPacket]
  cases hk : lay.kind with
  | basic =>
    rw [show fOf lay = 0 by simp [fOf, hk]]
    rfl
  | framed =>
    rw [parsedPacket, buildPacket_policy_framed _ _ _ _ hk, buildPacket_n]

/-- The receiver that RX.ACCEPT reads is byte 3 (R101, R218). -/
theorem HasImage.memRead_receiver {p : Packet} {image : List Byte} (h : HasImage p image) :
    ∃ b, image[3]? = some b ∧ p.memRead 3 1 = .ok b.toNat := by
  have hsize := h.size
  have hlt : 3 < image.length := by
    rw [h.length]
    omega
  refine ⟨image[3], List.getElem?_eq_getElem hlt, ?_⟩
  rw [memRead_image h.length h.buf, if_pos (by omega), List.drop_eq_getElem_cons hlt,
    List.take_succ_cons, List.take_zero, unLE_cons, unLE_nil, Nat.mul_zero, Nat.add_zero]

section
variable {s : State} {lay : Layout} {raw : List Byte}

theorem hasImage_parsedPacket {c : Params} (old : Packet) (hsize : goodSize c lay raw.length) :
    HasImage (parsedPacket old lay raw) raw :=
  hasImage_buildPacket old hsize rfl

theorem isValid_parsedPacket {c : Params} (old : Packet) (hsize : goodSize c lay raw.length) :
    (parsedPacket old lay raw).isValid = .ok (decide (raw.drop (raw.length - fOf lay) =
      leBytes (fOf lay) (compute lay.policy (raw.take (raw.length - fOf lay))))) := by
  rw [(hasImage_parsedPacket old hsize).isValid_eq, fOf_parsedPacket, checksumField_parsedPacket]
  rfl

/-- R218: the destination filter first, whatever the checksum; then the checksum field. -/
theorem exec_rxAccept_of_checks {n : BitVec 32} (hn : n.toNat = raw.length)
    (hmax : withinMax s.params raw.length) (hsize : goodSize s.params lay raw.length) :
    exec (.rxAccept lay n raw) s =
      if raw[3]? ≠ some s.cfg.boardId then answers s (only .noPacket)
      else if raw.drop (raw.length - fOf lay) =
          leBytes (fOf lay) (compute lay.policy (raw.take (raw.length - fOf lay))) then
        answers { s with p := parsedPacket s.p lay raw } (only .ok)
      else answers s (only .noPacket) := by
  obtain ⟨receiver, hreceiver, hread⟩ := (hasImage_parsedPacket s.p hsize).memRead_receiver
  have hpass : firstError (acceptChecks lay raw.length raw s) = none :=
    (acceptChecks_of_withinMax hmax).trans (sizeChecks_pass_iff.2 hsize)
  rw [exec, execRxAccept, hn, guarded_pass _ _ hpass, hreceiver]
  dsimp only
  rw [hread, orFault_ok, isValid_parsedPacket s.p hsize, orFault_ok]
  simp only [ne_eq, Option.some.injEq, BitVec.toNat_inj, decide_eq_true_eq]
  rfl

end

/-! ## Validator and pipeline: the obligations on one operation -/

/-- Settles O50: the field that `Seal` stores is the one that belongs to the image, and the covered bytes
are the image's. -/
theorem sealWritesTheChecksum : Obligations.SealWritesTheChecksum := by
  refine ⟨coded_valSeal, fun s => ⟨exec_packet_empty rfl, exec_valSeal_noField, fun c hi hv hc => ?_⟩⟩
  obtain ⟨image, h⟩ := exists_hasImage hi hv
  rw [h.checksumField_of_isCovered hc]
  exact exec_valSeal_image h

/-- Settles O51: the last F bytes of the buffer are the end of the image, which `IsValid` compares. -/
theorem isValidComparesTheChecksum : Obligations.IsValidComparesTheChecksum := by
  refine ⟨coded_valIsValid,
    fun s => ⟨exec_packet_empty rfl, exec_valIsValid_noField, fun c hi hv hc _ => ?_⟩⟩
  obtain ⟨image, h⟩ := exists_hasImage hi hv
  dsimp only
  rw [h.checksumField_of_isCovered hc, exec_valIsValid_image h,
    h.holdsAt_end_iff (by rw [length_checksumField, h.sub_fOf_add])]
  exact ⟨fun heq => by rw [if_pos heq], fun hne => by rw [if_neg hne]⟩

/-- Settles O56: the state that VAL.SEAL leaves holds a packet with an image, and PKT.TOBYTES returns it. -/
theorem prepIsSealThenImage : Obligations.PrepIsSealThenImage := by
  refine ⟨coded_txPrep, fun s => ⟨exec_packet_empty rfl, fun hi hv => ?_⟩⟩
  obtain ⟨image, h⟩ := exists_hasImage hi hv
  obtain ⟨buf, himage, hseal, hprep⟩ := exec_txPrep_image h
  exact ⟨_, _, hseal, exec_pktToBytes_image himage, hprep⟩

/-- Settles O58, by the two filters of RX.ACCEPT in their order. -/
theorem acceptFiltersThenValidates : Obligations.AcceptFiltersThenValidates := by
  intro s lay n raw
  dsimp only
  intro hn hmax hsize
  rw [exec_rxAccept_of_checks hn.symm (hn ▸ hmax) (hn ▸ hsize)]
  refine ⟨fun hother => if_pos hother, fun hmine => ?_⟩
  rw [if_neg (not_not.2 hmine)]
  refine ⟨fun hgood => ⟨_, _, if_pos hgood, fun hk => ?_, fun a => ?_⟩, fun hbad => if_neg hbad⟩
  · exact buildPacket_policy_framed s.p lay raw.length raw hk
  · exact (read_ofBytes 0 a raw).trans (if_pos (Nat.zero_le a))

end Sys2Proof.Proofs

/-!
PROOFS. Errors (60_exceptions.md R236, R238): a response that is not OK is all that its operation leaves.

A rule for each shared operation says that an outcome either ends with OK or is the state before with a
bare status on the response port; by these rules every operation does.
-/

namespace Sys2Proof.Proofs

open Sys2Proof.Machine Sys2Proof.Claims Sys2Proof.Laws

/-- If the response in `t` is not OK, then `t` is `s` with the bare status as its response. -/
def OkOrBare (s t : State) : Prop :=
  ∀ a, t.response = some a → a.status ≠ .ok → t = s.respond (only a.status)

/-- The outcome is no next state, or it ends with OK, or all it leaves is a bare status. -/
abbrev FailsBare (s : State) : Out → Prop := Yields (OkOrBare s)

section
variable {s : State}

theorem failsBare_finish {u : State} {r : Response} (h : r.status = .ok) :
    FailsBare s (finish r u) :=
  yields_next fun _ ha hne => absurd (Option.some.inj ha ▸ h) hne

theorem okOrBare_bare (st : Status) : OkOrBare s (s.respond (Response.bare st)) := by
  rintro _ ⟨rfl⟩ -
  rfl

theorem failsBare_raise (st : Status) : FailsBare s (raise st s) := yields_next (okOrBare_bare st)

theorem failsBare_guarded {cs : List Check} {k : State → Out} (h : FailsBare s (k s)) :
    FailsBare s (guarded cs s k) :=
  yields_guarded (fun st _ => okOrBare_bare st) fun _ => h

theorem failsBare_orFault {α : Type} {x : Except Fault α} {k : α → Out}
    (h : ∀ a, FailsBare s (k a)) : FailsBare s (orFault x k) :=
  yields_orFault fun a _ => h a

theorem failsBare_updatePacket (x : Except Fault Packet) : FailsBare s (updatePacket x s) :=
  failsBare_orFault fun _ => failsBare_finish rfl

end

/-- R238: an operation that does not end with OK leaves its bare status and nothing else. -/
theorem exec_failsBare (i : Instr) (s : State) : FailsBare s (exec i s) := by
  cases i
  -- no check, and OK
  case ckCompute | ckInit => exact failsBare_finish rfl
  case hdrDecode din =>
    by_cases hlen : din.length = 4
    · obtain ⟨b0, b1, b2, b3, rfl⟩ := List.length_eq_four.1 hlen
      exact failsBare_finish rfl
    · rw [exec_hdrDecode_of_length_ne hlen]
      exact failsBare_raise .eOperandLength
  -- checks, and OK
  case hdrEncode | hdrRaw | hdrFields | hdrSetRcv | hdrGet | pktNew | pktFromBytes | ckUpdate |
      ckFinal =>
    simp only [exec, execHdrEncode, execHdrRaw, execHdrFields, execHdrSetRcv, execHdrGet,
      execPktNew, execPktFromBytes, execCkUpdate, execCkFinal]
    exact failsBare_guarded (failsBare_finish rfl)
  -- checks, and OK with what is read from the packet
  case pktToBytes | pktGetStat | pktGetTask | pktGetPay | valIsValid =>
    simp only [exec, execPktToBytes, execPktGetStat, execPktGetTask, execPktGetPay, execValIsValid]
    exact failsBare_guarded (failsBare_orFault fun _ => failsBare_finish rfl)
  case pktGetHdr =>
    rw [exec, execPktGetHdr]
    exact failsBare_guarded (failsBare_orFault fun _ => failsBare_orFault fun _ =>
      failsBare_orFault fun _ => failsBare_finish rfl)
  case pktGetFcs =>
    rw [exec, execPktGetFcs]
    refine failsBare_guarded ?_
    split
    · exact failsBare_finish rfl
    · exact failsBare_orFault fun _ => failsBare_finish rfl
  -- checks, and an update of the packet
  case pktSetHdr | pktSetStat | pktSetTask | pktSetPay | pktSetFcs | valSeal =>
    exact failsBare_guarded (failsBare_updatePacket _)
  case txPrep =>
    rw [exec, execTxPrep]
    exact failsBare_guarded (failsBare_orFault fun _ => failsBare_orFault fun _ =>
      failsBare_finish rfl)
  -- NO_PACKET by the destination filter, NO_PACKET by the checksum, or OK
  case rxAccept =>
    rw [exec, execRxAccept]
    refine failsBare_guarded (failsBare_orFault fun _ => ?_)
    split
    · exact failsBare_raise .noPacket
    · refine failsBare_orFault fun _ => ?_
      split
      · exact failsBare_finish rfl
      · exact failsBare_raise .noPacket

/-- R4: a request that the decoder accepts is the operation it decodes to, the request taken off. -/
theorem step_of_decode_ok {s : State} {r : Request} {rest : List HostEvent} {i : Instr}
    (hs : s.events = .request r :: rest) (hd : decode r = .ok i) :
    step s = exec i { s with events := rest } := by
  simp only [step, hs, hd, State.pop, List.tail_cons]

/-- R237, R238: serving a request fails bare too, whether its command word is legal or not. -/
theorem step_failsBare {s : State} {r : Request} {rest : List HostEvent}
    (hs : s.events = .request r :: rest) : FailsBare { s with events := rest } (step s) := by
  cases hd : decode r with
  | error e =>
    rw [step_of_decode_error hs hd]
    exact failsBare_raise .eIllegalOp
  | ok i =>
    rw [step_of_decode_ok hs hd]
    exact exec_failsBare i _

/-- Settles O11, by the step that serves the request. -/
theorem errorsChangeNothing : Obligations.ErrorsChangeNothing :=
  fun _ t _ _ a hs ht ha hne => step_failsBare hs t ht a ha hne

end Sys2Proof.Proofs

/-!
PROOFS. Reset and the locked configuration (10_state.md R20, R23; 70_reset_and_hazards.md R260, R261).

An operation writes H, P, K and the response port, and no other component of the state: one rule for
each shared operation, and by these rules every operation.  So the configuration can change only where
a step serves a reset, which samples CFG and keeps the parameters.
-/

namespace Sys2Proof.Proofs

open Sys2Proof.Machine Sys2Proof.Claims Sys2Proof.Laws

/-! ## The components an operation writes -/

/-- `t` is `s` but for the three contexts H, P, K and the response port. -/
def SameButContexts (s t : State) : Prop :=
  ∃ h p k r, t = { s with h := h, p := p, k := k, response := r }

/-- The outcome is no next state, or one where only contexts and the response port are written. -/
abbrev WritesContexts (s : State) : Out → Prop := Yields (SameButContexts s)

section
variable {s t : State}

theorem SameButContexts.refl (s : State) : SameButContexts s s := ⟨s.h, s.p, s.k, s.response, rfl⟩

theorem SameButContexts.cfg_eq (h : SameButContexts s t) : t.cfg = s.cfg := by
  obtain ⟨_, _, _, _, rfl⟩ := h
  rfl

theorem SameButContexts.params_eq (h : SameButContexts s t) : t.params = s.params := by
  obtain ⟨_, _, _, _, rfl⟩ := h
  rfl

theorem SameButContexts.respond (h : SameButContexts s t) (r : Response) :
    SameButContexts s (t.respond r) := by
  obtain ⟨h, p, k, _, rfl⟩ := h
  exact ⟨h, p, k, some r, rfl⟩

theorem sameButContexts_loadHeader (sp : Word16) (snd rcv : Byte) :
    SameButContexts s (s.loadHeader sp snd rcv) := ⟨_, s.p, s.k, s.response, rfl⟩

theorem sameButContexts_setPacket (p : Packet) : SameButContexts s (s.setPacket p) :=
  ⟨s.h, p, s.k, s.response, rfl⟩

theorem sameButContexts_setStream (k : Stream) : SameButContexts s (s.setStream k) :=
  ⟨s.h, s.p, k, s.response, rfl⟩

/-! ## The shared operations -/

theorem writesContexts_finish (r : Response) (h : SameButContexts s t) :
    WritesContexts s (finish r t) := yields_next (h.respond r)

theorem writesContexts_responds (r : Response) : WritesContexts s (finish r s) :=
  writesContexts_finish r (.refl s)

theorem writesContexts_guarded {cs : List Check} {k : State → Out} (h : WritesContexts s (k s)) :
    WritesContexts s (guarded cs s k) :=
  yields_guarded (fun st _ => (SameButContexts.refl s).respond (Response.bare st)) fun _ => h

theorem writesContexts_orFault {α : Type} {x : Except Fault α} {k : α → Out}
    (h : ∀ a, WritesContexts s (k a)) : WritesContexts s (orFault x k) :=
  yields_orFault fun a _ => h a

theorem writesContexts_updatePacket (x : Except Fault Packet) :
    WritesContexts s (updatePacket x s) :=
  writesContexts_orFault fun p => writesContexts_finish _ (sameButContexts_setPacket p)

end

/-! ## Every operation -/

/-- R20: an operation writes contexts and the response port, and nothing else. -/
theorem exec_writesContexts (i : Instr) (s : State) : WritesContexts s (exec i s) := by
  cases i
  -- no check on the state
  case ckCompute => exact writesContexts_responds _
  case ckInit => exact writesContexts_finish _ (sameButContexts_setStream _)
  case hdrDecode din =>
    by_cases hlen : din.length = 4
    · obtain ⟨b0, b1, b2, b3, rfl⟩ := List.length_eq_four.1 hlen
      exact writesContexts_finish _ (sameButContexts_loadHeader ..)
    · rw [exec_hdrDecode_of_length_ne hlen]
      exact writesContexts_responds _
  -- checks, and a response
  case hdrEncode | hdrGet =>
    simp only [exec, execHdrEncode, execHdrGet]
    exact writesContexts_guarded (writesContexts_responds _)
  -- checks, and a header
  case hdrRaw | hdrFields | hdrSetRcv =>
    simp only [exec, execHdrRaw, execHdrFields, execHdrSetRcv]
    exact writesContexts_guarded (writesContexts_finish _ (sameButContexts_loadHeader ..))
  -- checks, and a packet
  case pktNew | pktFromBytes =>
    simp only [exec, execPktNew, execPktFromBytes]
    exact writesContexts_guarded (writesContexts_finish _ (sameButContexts_setPacket _))
  -- checks, and a stream
  case ckUpdate | ckFinal =>
    simp only [exec, execCkUpdate, execCkFinal]
    exact writesContexts_guarded (writesContexts_finish _ (sameButContexts_setStream _))
  -- checks, and a response with what is read from the packet
  case pktToBytes | pktGetStat | pktGetTask | pktGetPay | valIsValid =>
    simp only [exec, execPktToBytes, execPktGetStat, execPktGetTask, execPktGetPay, execValIsValid]
    exact writesContexts_guarded (writesContexts_orFault fun _ => writesContexts_responds _)
  case pktGetHdr =>
    rw [exec, execPktGetHdr]
    exact writesContexts_guarded (writesContexts_orFault fun _ => writesContexts_orFault fun _ =>
      writesContexts_orFault fun _ => writesContexts_finish _ (sameButContexts_loadHeader ..))
  case pktGetFcs =>
    rw [exec, execPktGetFcs]
    refine writesContexts_guarded ?_
    split
    · exact writesContexts_responds _
    · exact writesContexts_orFault fun _ => writesContexts_responds _
  -- checks, and an update of the packet
  case pktSetHdr | pktSetStat | pktSetTask | pktSetPay | pktSetFcs | valSeal =>
    exact writesContexts_guarded (writesContexts_updatePacket _)
  case txPrep =>
    rw [exec, execTxPrep]
    exact writesContexts_guarded (writesContexts_orFault fun p => writesContexts_orFault fun _ =>
      writesContexts_finish _ (sameButContexts_setPacket p))
  -- rejected by the destination filter, accepted, or rejected by the checksum
  case rxAccept =>
    rw [exec, execRxAccept]
    refine writesContexts_guarded (writesContexts_orFault fun _ => ?_)
    split
    · exact writesContexts_responds _
    · refine writesContexts_orFault fun _ => ?_
      split
      · exact writesContexts_finish _ (sameButContexts_setPacket _)
      · exact writesContexts_responds _

/-! ## Every step -/

/-- R240: with nothing from the host, nothing happens. -/
theorem step_of_idle {s : State} (hs : s.events = []) : step s = .next s := by
  simp only [step, hs]

/-- R260: a reset event is taken off and resets the block to the inputs it samples. -/
theorem step_of_reset {s : State} {v : BitVec 2} {b : Byte} {rest : List HostEvent}
    (hs : s.events = .reset v b :: rest) : step s = .next (s.pop.resetNow v b) := by
  simp only [step, hs]

/-- R4: serving a request writes contexts and the response port too, once it is taken off. -/
theorem step_writesContexts {s : State} {r : Request} {rest : List HostEvent}
    (hs : s.events = .request r :: rest) : WritesContexts { s with events := rest } (step s) := by
  cases hd : decode r with
  | error e =>
    rw [step_of_decode_error hs hd]
    exact writesContexts_responds _
  | ok i =>
    rw [step_of_decode_ok hs hd]
    exact exec_writesContexts i _

/-- R23, R261: a step that serves no reset keeps the locked configuration and the parameters. -/
theorem step_keepsConfiguration {s t : State} (hs : ∀ v b rest, s.events ≠ .reset v b :: rest)
    (ht : step s = .next t) : t.cfg = s.cfg ∧ t.params = s.params := by
  match hev : s.events with
  | [] =>
    rw [step_of_idle hev] at ht
    cases ht
    exact ⟨rfl, rfl⟩
  | .reset v b :: rest => exact absurd hev (hs v b rest)
  | .request r :: rest =>
    have hsame := step_writesContexts hev t ht
    exact ⟨hsame.cfg_eq, hsame.params_eq⟩

/-- R23, R261: a step that serves a reset samples the inputs and keeps the parameters. -/
theorem step_reset_samples {s t : State} {v : BitVec 2} {b : Byte} {rest : List HostEvent}
    (hs : s.events = .reset v b :: rest) (ht : step s = .next t) :
    t.cfg = ⟨v, b⟩ ∧ t.params = s.params := by
  rw [step_of_reset hs] at ht
  cases ht
  exact ⟨resetNow_cfg .., resetNow_params ..⟩

/-- Settles O7: the operations by what they write, the steps by whether the next event is a reset. -/
theorem onlyResetWritesConfiguration : Obligations.OnlyResetWritesConfiguration := by
  refine ⟨fun i s t ht => ?_, fun s t ht => ⟨?_, fun v b rest hs => ?_, fun hs => ?_⟩⟩
  · have hsame := exec_writesContexts i s t ht
    exact ⟨hsame.cfg_eq, hsame.params_eq⟩
  · by_cases hs : ∃ v b rest, s.events = .reset v b :: rest
    · obtain ⟨v, b, rest, hs⟩ := hs
      exact (step_reset_samples hs ht).2
    · exact (step_keepsConfiguration (fun v b rest hr => hs ⟨v, b, rest, hr⟩) ht).2
  · exact (step_reset_samples hs ht).1
  · exact (step_keepsConfiguration hs ht).1

end Sys2Proof.Proofs

/-!
PROOFS. The command word there and back (30_encoding.md R78 to R80, R82).

A format at a time: a word that was put together decodes to its layout and operands, and a word that
decodes is put together from its opcode and the codes of what it decodes to.
-/

namespace Sys2Proof.Proofs

open Sys2Proof.Machine Sys2Proof.Claims Sys2Proof.Laws

/-! ## Decoding what was encoded, format L (R75 to R78) -/

section
variable {lay : Layout} (d : BitVec 1) (op : BitVec 8)

theorem decodeLayout_wordL (h : lay.wf = true) : decodeLayout (wordL d lay op) = .ok lay := by
  obtain ⟨kind, width, policy⟩ := lay
  cases kind with
  | basic =>
    obtain rfl : policy = .none := by simpa [Layout.wf] using h
    simp [decodeLayout, policyCode]
  | framed => simp [decodeLayout]

theorem decodeL_wordL (h : lay.wf = true) (f : Layout → Instr) :
    decodeL (wordL 0 lay op) f = .ok (f lay) := by
  rw [decodeL, if_pos (cmdSeed_wordL ..), decodeLayout_wordL 0 op h]

theorem decodeSeeded_wordL_none (h : lay.wf = true) (v : Word64)
    (f : Layout → Option Word64 → Instr) :
    decodeSeeded (wordL 0 lay op) v f = .ok (f lay none) := by
  rw [decodeSeeded, decodeLayout_wordL 0 op h]
  exact if_pos (cmdSeed_wordL ..)

theorem decodeSeeded_wordL_some (h : lay.wf = true) (hk : lay.kind = .framed) (v : Word64)
    (f : Layout → Option Word64 → Instr) :
    decodeSeeded (wordL 1 lay op) v f = .ok (f lay (some v)) := by
  have hseed : cmdSeed (wordL 1 lay op) ≠ 0 := by simp
  have hbasic : lay.kind ≠ .basic := by simp [hk]
  rw [decodeSeeded, decodeLayout_wordL 1 op h]
  dsimp only
  rw [if_neg hseed, if_neg hbasic]

end

theorem decode_encode_pktNew {lay : Layout} (n : BitVec 32) (task : Word64) (st : Word16)
    {seed : Option Word64} (pay : List Byte) (hlay : lay.wf = true) (hseed : lay.seedWf seed = true) :
    decode (encode (.pktNew lay n task st seed pay)) = .ok (.pktNew lay n task st seed pay) := by
  cases seed with
  | none => simpa [decode, encode, opcode] using decodeSeeded_wordL_none 0x10 hlay 0 _
  | some v =>
    have hk : lay.kind = .framed := by simpa [Layout.seedWf] using hseed
    simpa [decode, encode, opcode] using decodeSeeded_wordL_some 0x10 hlay hk v _

theorem decode_encode_pktFromBytes {lay : Layout} (raw : List Byte) (hlay : lay.wf = true) :
    decode (encode (.pktFromBytes lay raw)) = .ok (.pktFromBytes lay raw) := by
  simpa [decode, encode, opcode] using decodeL_wordL 0x12 hlay _

theorem decode_encode_rxAccept {lay : Layout} (n : BitVec 32) (raw : List Byte)
    (hlay : lay.wf = true) :
    decode (encode (.rxAccept lay n raw)) = .ok (.rxAccept lay n raw) := by
  simpa [decode, encode, opcode] using decodeL_wordL 0x41 hlay _

theorem coded_ckUpdate (c : List Byte) : coded (.ckUpdate c) 0x0022 :=
  coded_of_formatZ 0x22 rfl (by simp [decode, encode, opcode])

theorem coded_ckFinal : coded .ckFinal 0x0023 :=
  coded_of_formatZ 0x23 rfl (by simp [decode, encode, opcode])

/-- Settles O1, by the operation's command word; only format L asks for a well-formed layout. -/
theorem decodeOfEncode : Obligations.DecodeOfEncode := by
  intro i hi
  cases i with
  | hdrDecode din => exact (coded_hdrDecode din).2
  | hdrEncode => exact coded_hdrEncode.2
  | hdrRaw raw16 rcv => exact (coded_hdrRaw raw16 rcv).2
  | hdrFields type enc frag prio flags val res rcv =>
    exact (coded_hdrFields type enc frag prio flags val res rcv).2
  | hdrSetRcv rcv => exact (coded_hdrSetRcv rcv).2
  | hdrGet field => exact (coded_hdrGet field).2
  | pktNew lay n task st seed pay =>
    obtain ⟨hlay, hseed⟩ := Bool.and_eq_true_iff.1 hi
    exact decode_encode_pktNew n task st pay hlay hseed
  | pktToBytes => exact coded_pktToBytes.2
  | pktFromBytes lay raw => exact decode_encode_pktFromBytes raw hi
  | pktGetHdr => exact coded_pktGetHdr.2
  | pktSetHdr => exact coded_pktSetHdr.2
  | pktGetStat => exact coded_pktGetStat.2
  | pktSetStat st => exact (coded_pktSetStat st).2
  | pktGetTask => exact coded_pktGetTask.2
  | pktSetTask task => exact (coded_pktSetTask task).2
  | pktGetPay => exact coded_pktGetPay.2
  | pktSetPay pay => exact (coded_pktSetPay pay).2
  | pktGetFcs => exact coded_pktGetFcs.2
  | pktSetFcs v => exact (coded_pktSetFcs v).2
  | ckCompute p b => exact (coded_ckCompute p b).2
  | ckInit p => exact (coded_ckInit p).2
  | ckUpdate c => exact (coded_ckUpdate c).2
  | ckFinal => exact coded_ckFinal.2
  | valSeal => exact coded_valSeal.2
  | valIsValid => exact coded_valIsValid.2
  | txPrep => exact coded_txPrep.2
  | rxAccept lay n raw => exact decode_encode_rxAccept n raw hi

/-! ## A word and its fields -/

section
variable (c : Word16)

/-- R78: a command word is put together from its five fields. -/
theorem cmdWord_fields : cmdWord (cmdSeed c) (cmdKind c) (cmdWc c) (cmdSel c) (cmdOp c) = c := by
  have := c.isLt
  apply BitVec.eq_of_toNat_eq
  rw [toNat_cmdWord, toNat_cmdSeed, toNat_cmdKind, toNat_cmdWc, toNat_cmdSel, toNat_cmdOp]
  omega

variable {c}

theorem eq_wordS_of_top_zero (h : c.extractLsb' 12 4 = 0) : c = wordS (cmdSel c) (cmdOp c) := by
  obtain ⟨hwc, hkind, hseed⟩ := (top_eq_zero_iff c).1 h
  rw [← eq_zero_iff_toNat] at hwc hkind hseed
  conv_lhs => rw [← cmdWord_fields c, hseed, hkind, hwc]
  rfl

theorem eq_wordZ_of_high_zero (h : c.extractLsb' 8 8 = 0) : c = wordZ (cmdOp c) := by
  obtain ⟨hsel, htop⟩ := (high_eq_zero_iff c).1 h
  conv_lhs => rw [eq_wordS_of_top_zero htop, (eq_zero_iff_toNat _).2 hsel]
  rfl

/-! ## The codes of what was decoded (R75 to R77, R88) -/

theorem policyCode_of_code {c : BitVec 4} {p : Policy} (h : policyOfCode c = some p) :
    policyCode p = c := by
  revert c p; decide

theorem fieldCode_of_code {c : BitVec 4} {f : HdrField} (h : fieldOfCode c = some f) :
    fieldCode f = c := by
  revert c f; decide

theorem widthCode_of_code (c : BitVec 2) : widthCode (widthOfCode c) = c := by
  revert c; decide

theorem kindCode_of_code (c : BitVec 1) : kindCode (kindOfCode c) = c := by
  revert c; decide

/-- The layout that a word names gives the word's fields back. -/
theorem eq_wordL_of_decodeLayout {lay : Layout} (h : decodeLayout c = .ok lay) :
    c = wordL (cmdSeed c) lay (cmdOp c) := by
  have hkind := kindCode_of_code (cmdKind c)
  have hwidth := widthCode_of_code (cmdWc c)
  suffices hlay : kindCode lay.kind = cmdKind c ∧ widthCode lay.width = cmdWc c ∧
      policyCode lay.policy = cmdSel c by
    obtain ⟨hk, hw, hp⟩ := hlay
    rw [wordL, hk, hw, hp, cmdWord_fields]
  unfold decodeLayout at h
  split at h
  · next hk =>
    split at h
    · next hsel =>
      cases h
      exact ⟨hk ▸ hkind, hwidth, hsel.symm⟩
    · cases h
  · next hk =>
    split at h
    · next p hp =>
      cases h
      exact ⟨hk ▸ hkind, hwidth, policyCode_of_code hp⟩
    · cases h

/-! ## Encoding what was decoded, format by format -/

/-- Whatever operation a part of the decoder gives, its command word is `c`. -/
def ReEncodes (c : Word16) (x : Except DecodeError Instr) : Prop :=
  ∀ i, x = .ok i → (encode i).cmd = c

theorem reEncodes_decodeZ {i : Instr} (hop : (cmdOp c).toNat = (opcode i).toNat)
    (hi : (encode i).cmd = wordZ (opcode i)) : ReEncodes c (decodeZ c i) := by
  intro j hj
  unfold decodeZ at hj
  split at hj
  · next hz =>
    cases hj
    rw [hi, ← BitVec.eq_of_toNat_eq hop, ← eq_wordZ_of_high_zero hz]
  · cases hj

/-- Format S, for a selector that is read by `ofCode` and written by `code`. -/
theorem reEncodes_decodeSelected {α : Type} {ofCode : BitVec 4 → Option α} {code : α → BitVec 4}
    (hcode : ∀ {s a}, ofCode s = some a → code a = s) {op : BitVec 8}
    (hop : (cmdOp c).toNat = op.toNat) {f : α → Instr}
    (hf : ∀ a, (encode (f a)).cmd = wordS (code a) op) (e : DecodeError) :
    ReEncodes c (decodeSelected c (ofCode (cmdSel c)) e f) := by
  intro j hj
  unfold decodeSelected at hj
  split at hj
  · next htop =>
    cases hsel : ofCode (cmdSel c) with
    | none => rw [hsel] at hj; cases hj
    | some a =>
      rw [hsel] at hj
      cases hj
      rw [hf, hcode hsel, ← BitVec.eq_of_toNat_eq hop, ← eq_wordS_of_top_zero htop]
  · cases hj

theorem reEncodes_decodePolicy {op : BitVec 8} (hop : (cmdOp c).toNat = op.toNat) {f : Policy → Instr}
    (hf : ∀ p, (encode (f p)).cmd = wordS (policyCode p) op) : ReEncodes c (decodePolicy c f) := by
  rw [decodePolicy_eq]
  exact reEncodes_decodeSelected policyCode_of_code hop hf _

theorem reEncodes_decodeField {op : BitVec 8} (hop : (cmdOp c).toNat = op.toNat)
    {f : HdrField → Instr} (hf : ∀ p, (encode (f p)).cmd = wordS (fieldCode p) op) :
    ReEncodes c (decodeField c f) := by
  rw [decodeField_eq]
  exact reEncodes_decodeSelected fieldCode_of_code hop hf _

theorem reEncodes_decodeL {op : BitVec 8} (hop : (cmdOp c).toNat = op.toNat) {f : Layout → Instr}
    (hf : ∀ lay, (encode (f lay)).cmd = wordL 0 lay op) : ReEncodes c (decodeL c f) := by
  intro j hj
  unfold decodeL at hj
  split at hj
  · next hseed =>
    split at hj
    · next lay hlay =>
      cases hj
      rw [hf, ← BitVec.eq_of_toNat_eq hop, ← hseed, ← eq_wordL_of_decodeLayout hlay]
    · cases hj
  · cases hj

theorem eq_one_of_ne_zero {x : BitVec 1} (h : x ≠ 0) : x = 1 := by
  revert x; decide

theorem reEncodes_decodeSeeded {op : BitVec 8} (hop : (cmdOp c).toNat = op.toNat) {v : Word64}
    {f : Layout → Option Word64 → Instr} (hnone : ∀ lay, (encode (f lay none)).cmd = wordL 0 lay op)
    (hsome : ∀ lay, (encode (f lay (some v))).cmd = wordL 1 lay op) :
    ReEncodes c (decodeSeeded c v f) := by
  intro j hj
  unfold decodeSeeded at hj
  split at hj
  · next lay hlay =>
    have hc := eq_wordL_of_decodeLayout hlay
    split at hj
    · next hseed =>
      cases hj
      rw [hnone, ← BitVec.eq_of_toNat_eq hop, ← hseed, ← hc]
    · next hseed =>
      split at hj
      · cases hj
      · cases hj
        rw [hsome, ← BitVec.eq_of_toNat_eq hop, ← eq_one_of_ne_zero hseed, ← hc]
  · cases hj

end

/-- The rows of the opcode map (R79), each by its format's lemma. -/
theorem decode_reEncodes (r : Request) : ReEncodes r.cmd (decode r) := by
  rw [decode]
  split
  -- HDR.GET
  case h_6 h => exact reEncodes_decodeField (op := 0x06) h fun _ => rfl
  -- PKT.NEW
  case h_7 h => exact reEncodes_decodeSeeded (op := 0x10) h (fun _ => rfl) fun _ => rfl
  -- PKT.FROMBYTES and RX.ACCEPT
  case h_9 h => exact reEncodes_decodeL (op := 0x12) h fun _ => rfl
  case h_27 h => exact reEncodes_decodeL (op := 0x41) h fun _ => rfl
  -- CK.COMPUTE and CK.INIT
  case h_20 h => exact reEncodes_decodePolicy (op := 0x20) h fun _ => rfl
  case h_21 h => exact reEncodes_decodePolicy (op := 0x21) h fun _ => rfl
  -- no operation
  case h_28 => exact nofun
  -- format Z
  all_goals next h => exact reEncodes_decodeZ h rfl

/-- Settles O2: well-formedness as for the illegal words, the command word format by format. -/
theorem encodeOfDecode : Obligations.EncodeOfDecode := by
  intro r i hd
  refine ⟨?_, decode_reEncodes r i hd⟩
  obtain ⟨-, e, he⟩ | ⟨-, j, hj, hok⟩ := decode_refusesExactly r
  · exact nomatch hd.symm.trans he
  · exact Except.ok.inj (hok.symm.trans hd) ▸ hj

/-- Settles O3: each word is that of its operation, put together from the fields of R78. -/
theorem sampleWordsDecode : Obligations.SampleWordsDecode := by
  have hraw : (0x0003 : Word16) = wordZ 0x03 := by decide
  have hnew : (0x5510 : Word16) = wordL 0 ⟨.framed, .w2, .crc16⟩ 0x10 := by decide
  have hinit : (0x0B21 : Word16) = wordS (policyCode .internet16) 0x21 := by decide
  have haccept : (0x5541 : Word16) = wordL 0 ⟨.framed, .w2, .crc16⟩ 0x41 := by decide
  refine ⟨fun v rcv => ?_, rfl, fun n t st b => ?_, fun b => ?_, rfl, fun n b => ?_⟩
  · simp [hraw, decode]
  · simpa [hnew, decode] using decodeSeeded_wordL_none 0x10 rfl 0 _
  · simp [hinit, decode, decodePolicy]
  · simpa [haccept, decode] using decodeL_wordL 0x41 rfl _

end Sys2Proof.Proofs

/-!
PROOFS. One step, the statuses, and the operations on an empty context (10_state.md R26, R30, R36;
42_checksum_engine.md R192, R193; 60_exceptions.md R231).
-/

namespace Sys2Proof.Proofs

open Sys2Proof.Machine Sys2Proof.Safety Sys2Proof.Claims Sys2Proof.Laws

/-- Settles O5: it is the equation of the step that serves the request. -/
theorem stepRunsDecodedOperation : Obligations.StepRunsDecodedOperation :=
  fun _ _ _ _ hs hd => step_of_decode_ok hs hd

/-- Settles O6, by the equations of the step on a reset event and without an event. -/
theorem resetAndIdleSteps : Obligations.ResetAndIdleSteps := by
  refine ⟨fun s v b rest hs => ?_, fun s hs => step_of_idle hs⟩
  have hevents : s.pop.events = rest := by rw [pop_events, hs, List.tail_cons]
  exact ⟨_, step_of_reset hs, rfl, rfl, rfl, rfl, rfl, rfl, hevents, rfl⟩

/-- Settles O15, status by status. -/
theorem statusNumbers : Obligations.StatusNumbers := by
  refine ⟨by decide, fun st => ?_⟩
  cases st <;> decide

/-! ## The invariant after reset (R36, R263) -/

theorem inv_resetWith {c : Params} (hc : c.wf = true) (v : BitVec 2) (b : Byte) :
    Inv (State.resetWith c v b) :=
  ⟨hc, rfl, nofun, nofun⟩

/-- Settles O9: no packet is held and no computation is active. -/
theorem resetHasInvariant : Obligations.ResetHasInvariant :=
  ⟨fun _ v b hc => inv_resetWith hc v b, inv_resetWith (by decide) _ _⟩

/-! ## Empty contexts (R26, R30, R192, R193) -/

section
variable {s : State}

theorem guarded_stream_inactive {cs : List Check} {k : State → Out} (h : s.k.active = false) :
    guarded (streamCheck s :: cs) s k = answers s (only .eNoObject) :=
  guarded_cons_stop (by simp [streamCheck, h])

/-- R26: an operation that reads H ends with `E_NO_OBJECT` when no header is loaded. -/
theorem exec_header_empty {i : Instr} (hi : readsHeader i = true) (h : s.h.valid = false) :
    exec i s = answers s (only .eNoObject) := by
  cases i
  case hdrEncode | hdrSetRcv | hdrGet | pktNew | pktSetHdr =>
    simp only [exec, execHdrEncode, execHdrSetRcv, execHdrGet, execPktNew, execPktSetHdr]
    exact guarded_header_empty h
  -- the operations that do not read H
  all_goals exact nomatch hi

/-- R192, R193: an operation that reads K ends with `E_NO_OBJECT` when no computation is active. -/
theorem exec_stream_inactive {i : Instr} (hi : readsStream i = true) (h : s.k.active = false) :
    exec i s = answers s (only .eNoObject) := by
  cases i
  case ckUpdate | ckFinal =>
    simp only [exec, execCkUpdate, execCkFinal]
    exact guarded_stream_inactive h
  -- the operations that do not read K
  all_goals exact nomatch hi

end

/-- Settles O14, context by context. -/
theorem emptyContextIsNoObject : Obligations.EmptyContextIsNoObject := by
  rintro i s (⟨hi, h⟩ | ⟨hi, h⟩ | ⟨hi, h⟩)
  · exact exec_header_empty hi h
  · exact exec_packet_empty hi h
  · exact exec_stream_inactive hi h

/-! ## Feeding and ending a stream (R173, R192, R193) -/

/-- Settles O45: a chunk is absorbed from the left. -/
theorem updateConsumesTheChunk : Obligations.UpdateConsumesTheChunk := fun _ c =>
  ⟨coded_ckUpdate c, exec_stream_inactive rfl, exec_ckUpdate_active c, exec_ckUpdate_active []⟩

/-- R173: flushing a pending byte is absorbing a low byte 0. -/
theorem flushWord_pending (step : Accum → Nat → Accum) {k : Accum} (h : k.pv = true) :
    (flushWord step k).a = (flushWord step (absorbWord step k 0)).a ∧
      (flushWord step k).b = (flushWord step (absorbWord step k 0)).b := by
  simp [flushWord, absorbWord, h]

/-- R173, R193: under a word-serial policy the value with a byte pending is the value after a low byte 0. -/
theorem ckValue_pending {p : Policy} {k : Accum} (hp : wordSerial p = true) (h : k.pv = true) :
    ckValue p k = ckValue p (absorb p k 0) := by
  cases p
  case fletcher32 =>
    obtain ⟨ha, hb⟩ := flushWord_pending fletcher32Step h
    simp only [ckValue, absorb, pairValue, ha, hb]
  case internet16 =>
    obtain ⟨ha, -⟩ := flushWord_pending internetStep h
    simp only [ckValue, absorb, ha]
  -- the other policies are not word-serial
  all_goals exact nomatch hp

/-- Settles O47: the value is `Final` of the registers, with a pending byte or without. -/
theorem finalEndsTheStream : Obligations.FinalEndsTheStream :=
  ⟨coded_ckFinal, fun _ => ⟨exec_stream_inactive rfl,
    fun h => ⟨_, exec_ckFinal_active h, ckValue_pending, fun _ => rfl⟩⟩⟩

/-! ## The parity of a chunk (R173, R192) -/

/-- What a chunk leaves pending: parity decides whether a byte is, and it is the last one. -/
structure PendingAfter (k : Accum) (c : List Byte) (t : Accum) : Prop where
  even : c.length % 2 = 0 → t.pv = k.pv
  odd : c.length % 2 = 1 → t.pv = !k.pv
  last : ∀ x, c.getLast? = some x → t.pv = true → t.pend = x

/-- R173: a high byte waits, a low byte leaves nothing pending. -/
theorem absorbWord_pending (step : Accum → Nat → Accum) (k : Accum) (x : Byte) :
    (absorbWord step k x).pv = !k.pv ∧
      ((absorbWord step k x).pv = true → (absorbWord step k x).pend = x) := by
  obtain ⟨hpv, he⟩ | ⟨hpv, he⟩ := absorbWord_cases step k x <;> simp [he, hpv]

theorem absorb_pending {p : Policy} (hp : wordSerial p = true) (k : Accum) (x : Byte) :
    (absorb p k x).pv = !k.pv ∧ ((absorb p k x).pv = true → (absorb p k x).pend = x) := by
  cases p
  case fletcher32 | internet16 => exact absorbWord_pending _ k x
  -- the other policies are not word-serial
  all_goals exact nomatch hp

theorem pendingAfter_absorbAll {p : Policy} (hp : wordSerial p = true) (k : Accum) (c : List Byte) :
    PendingAfter k c (absorbAll p k c) := by
  induction c using List.reverseRecOn with
  | nil => exact ⟨fun _ => rfl, nofun, nofun⟩
  | append_singleton c x ih =>
    obtain ⟨hpv, hpend⟩ := absorb_pending hp (absorbAll p k c) x
    rw [absorbAll_append, absorbAll_cons, absorbAll_nil]
    refine ⟨fun heven => ?_, fun hodd => ?_, fun y hy ht => ?_⟩
    · rw [List.length_append, List.length_singleton] at heven
      rw [hpv, ih.odd (by omega), Bool.not_not]
    · rw [List.length_append, List.length_singleton] at hodd
      rw [hpv, ih.even (by omega)]
    · obtain rfl : x = y := by simpa using hy
      exact hpend ht

/-- Settles O46, by induction on the chunk from its end. -/
theorem oddChunkTogglesPending : Obligations.OddChunkTogglesPending := by
  intro s c hactive hp
  obtain ⟨heven, hodd, hlast⟩ := pendingAfter_absorbAll hp s.k.acc c
  exact ⟨_, exec_ckUpdate_active c hactive, heven, hodd, hlast⟩

/-! ## The statuses of each operation (R231) -/

/-- The response in `t` is OK or has one of the statuses. -/
def Reports (sts : List Status) (t : State) : Prop :=
  ∃ a, t.response = some a ∧ (a.status = .ok ∨ a.status ∈ sts)

section
variable {sts : List Status} {s : State}

theorem reports_finish {r : Response} (h : r.status = .ok) : Yields (Reports sts) (finish r s) :=
  yields_next ⟨r, rfl, .inl h⟩

theorem reports_raise {st : Status} (h : st ∈ sts) : Yields (Reports sts) (raise st s) :=
  yields_next ⟨Response.bare st, rfl, .inr h⟩

theorem reports_guarded {cs : List Check} {k : State → Out} (hcs : ∀ c ∈ cs, c.2 ∈ sts)
    (h : Yields (Reports sts) (k s)) : Yields (Reports sts) (guarded cs s k) :=
  yields_guarded (fun st he => ⟨Response.bare st, rfl, .inr (hcs _ (mem_of_firstError he))⟩)
    fun _ => h

theorem reports_orFault {α : Type} {x : Except Fault α} {k : α → Out}
    (h : ∀ a, Yields (Reports sts) (k a)) : Yields (Reports sts) (orFault x k) :=
  yields_orFault fun a _ => h a

theorem reports_updatePacket (x : Except Fault Packet) :
    Yields (Reports sts) (updatePacket x s) :=
  reports_orFault fun _ => reports_finish rfl

end

/-- R231: each check of an operation has a status that the table gives the operation. -/
theorem exec_reports (i : Instr) (s : State) : Yields (Reports (mayReport i)) (exec i s) := by
  cases i
  -- no check, and OK
  case ckCompute | ckInit => exact reports_finish rfl
  case hdrDecode din =>
    by_cases hlen : din.length = 4
    · obtain ⟨b0, b1, b2, b3, rfl⟩ := List.length_eq_four.1 hlen
      exact reports_finish rfl
    · rw [exec_hdrDecode_of_length_ne hlen]
      exact reports_raise (by simp [mayReport])
  -- checks, and OK
  case hdrEncode | hdrRaw | hdrFields | hdrSetRcv | hdrGet | pktNew | pktFromBytes | ckUpdate |
      ckFinal =>
    simp only [exec, execHdrEncode, execHdrRaw, execHdrFields, execHdrSetRcv, execHdrGet,
      execPktNew, execPktFromBytes, execCkUpdate, execCkFinal]
    refine reports_guarded ?_ (reports_finish rfl)
    simp [mayReport, headerCheck, receiverCheck, newChecks, parseChecks, sizeChecks, taskIdCheck,
      statusCheck, payloadCheck, seedCheck, streamCheck]
  -- checks, and OK with what is read from the packet
  case pktToBytes | pktGetStat | pktGetTask | pktGetPay | valIsValid =>
    simp only [exec, execPktToBytes, execPktGetStat, execPktGetTask, execPktGetPay, execValIsValid]
    exact reports_guarded (by simp [mayReport, packetCheck])
      (reports_orFault fun _ => reports_finish rfl)
  case pktGetHdr =>
    rw [exec, execPktGetHdr]
    exact reports_guarded (by simp [mayReport, packetCheck]) (reports_orFault fun _ =>
      reports_orFault fun _ => reports_orFault fun _ => reports_finish rfl)
  case pktGetFcs =>
    rw [exec, execPktGetFcs]
    refine reports_guarded (by simp [mayReport, packetCheck]) ?_
    split
    · exact reports_finish rfl
    · exact reports_orFault fun _ => reports_finish rfl
  -- checks, and an update of the packet
  case pktSetHdr | pktSetStat | pktSetTask | pktSetPay | pktSetFcs | valSeal =>
    simp only [exec, execPktSetHdr, execPktSetStat, execPktSetTask, execPktSetPay, execPktSetFcs,
      execValSeal]
    refine reports_guarded ?_ (reports_updatePacket _)
    simp [mayReport, headerCheck, packetCheck, statusCheck, taskIdCheck, payloadCheck]
  case txPrep =>
    rw [exec, execTxPrep]
    exact reports_guarded (by simp [mayReport, packetCheck])
      (reports_orFault fun _ => reports_orFault fun _ => reports_finish rfl)
  -- NO_PACKET by the destination filter, NO_PACKET by the checksum, or OK
  case rxAccept =>
    rw [exec, execRxAccept]
    refine reports_guarded ?_ (reports_orFault fun _ => ?_)
    · simp [mayReport, acceptChecks, parseChecks, sizeChecks]
    · split
      · exact reports_raise (by simp [mayReport])
      · refine reports_orFault fun _ => ?_
        split
        · exact reports_finish rfl
        · exact reports_raise (by simp [mayReport])

/-- Settles O12, by the rules of the shared operations. -/
theorem statusesAsTabled : Obligations.StatusesAsTabled := fun i s t ht => exec_reports i s t ht

end Sys2Proof.Proofs

/-!
PROOFS. The invariant (10_state.md R30, R32): every step keeps it, and from a state that has it every step
completes (60_exceptions.md R230, R239).

A context is good when the invariant says of it what it must; each way to write a context leaves it good.
Rules for the shared operations then carry both facts through the operations.
-/

namespace Sys2Proof.Proofs

open Sys2Proof.Machine Sys2Proof.Safety Sys2Proof.Claims Sys2Proof.Laws

/-! ## A good packet context (R30) -/

/-- What the invariant says of P. -/
def GoodPacket (c : Params) (p : Packet) : Prop :=
  p.buf.wf = true ∧ (p.valid = true → packetOk c p)

section
variable {c : Params} {p q : Packet}

theorem goodPacket_of_storeBytes (h : GoodPacket c p) {off : Nat} {bs : List Byte}
    (hq : p.storeBytes off bs = .ok q) : GoodPacket c q := by
  obtain ⟨hbuf, hp⟩ := h
  obtain ⟨hw, rfl⟩ := storeBytes_cases hq
  exact ⟨wf_store hbuf off bs, fun hv => packetOk_store (hp hv) hw⟩

/-- Everything `Seal` can do: nothing, or one store (R212). -/
theorem sealed_cases (hq : p.sealed = .ok q) : q = p ∨ ∃ bs, p.storeBytes p.fcsOffset bs = .ok q := by
  unfold Packet.sealed at hq
  split at hq
  · exact .inl (Except.ok.inj hq).symm
  · split at hq
    · exact .inl (Except.ok.inj hq).symm
    · split at hq
      · exact .inr ⟨_, hq⟩
      · cases hq

theorem goodPacket_of_sealed (h : GoodPacket c p) (hq : p.sealed = .ok q) : GoodPacket c q := by
  obtain rfl | ⟨bs, hbs⟩ := sealed_cases hq
  · exact h
  · exact goodPacket_of_storeBytes h hbs

theorem goodPacket_buildPacket {lay : Layout} {n : Nat} {image : List Byte} (old : Packet)
    (hmax : withinMax c n) (hsize : goodSize c lay n) (hlen : image.length = n) :
    GoodPacket c (buildPacket old lay n image) := by
  obtain ⟨hmin, halign⟩ := hsize
  refine ⟨wf_ofBytes 0 image, fun _ => ⟨?_, halign, exceedsMax_eq_false_iff.2 hmax, ?_⟩⟩
  · rw [← fcsBytes_le_minSize, buildPacket_fcsBytes, layoutFcsBytes_eq_fOf, buildPacket_width,
      widthBytes_eq_widthOf]
    exact hmin
  · rw [buildPacket_buf, addresses_ofBytes, hlen, buildPacket_n, List.range_eq_range']

end

/-! ## What the checks of the packet-making operations let through (R131, R132, R217) -/

section
variable {lay : Layout} {n : Nat} {s : State}

theorem parseChecks_pass {c : Params} (h : firstError (parseChecks c lay n) = none) :
    withinMax c n ∧ goodSize c lay n :=
  ⟨exceedsMax_eq_false_iff.1 (firstError_eq_none.1 h (exceedsMax c n, .eCapacity) List.mem_cons_self),
    goodSize_of_parseChecks_pass h⟩

theorem acceptChecks_pass {raw : List Byte} (h : firstError (acceptChecks lay n raw s) = none) :
    n = raw.length ∧ withinMax s.params raw.length ∧ goodSize s.params lay raw.length := by
  rw [acceptChecks, firstError_append, Option.or_eq_none_iff] at h
  obtain ⟨hn, hparse⟩ := h
  have hlen := firstError_eq_none.1 hn (decide (raw.length ≠ n), .eOperandLength) (by simp)
  exact ⟨(not_not.1 (of_decide_eq_false hlen)).symm, parseChecks_pass hparse⟩

theorem newChecks_pass {task : Word64} {st : Word16} {seed : Option Word64} {pay : List Byte}
    (h : firstError (newChecks lay n task st seed pay s) = none) :
    withinMax s.params n ∧ goodSize s.params lay n ∧ pay.length ≤ pcap n lay := by
  rw [firstError_eq_none] at h
  have hmax := h (exceedsMax s.params n, .eCapacity) (by simp [newChecks])
  have hsize : firstError (sizeChecks s.params lay n) = none :=
    firstError_eq_none.2 fun e he => h e (by simp [newChecks, he])
  have hpay := h (payloadCheck (pcap n lay) pay) (by simp [newChecks])
  exact ⟨exceedsMax_eq_false_iff.1 hmax, sizeChecks_pass_iff.1 hsize,
    Nat.not_lt.1 (of_decide_eq_false hpay)⟩

end

/-! ## Good accumulators (R32) -/

theorem accOk_ckStart (p : Policy) : accOk p (ckStart p) := by
  obtain ⟨ha, hb⟩ := inRange_ckStart p
  exact ⟨ha, hb, fun _ => ⟨rfl, rfl⟩⟩

/-- R32: a policy that is not word-serial does not use `pv` and `pend`. -/
theorem absorb_keeps_pending {p : Policy} (hp : wordSerial p = false) (k : Accum) (x : Byte) :
    (absorb p k x).pv = k.pv ∧ (absorb p k x).pend = k.pend := by
  cases p
  case fletcher32 | internet16 => exact nomatch hp
  all_goals exact ⟨rfl, rfl⟩

theorem accOk_absorb {p : Policy} {k : Accum} (h : accOk p k) (x : Byte) : accOk p (absorb p k x) := by
  obtain ⟨ha, hb, hpend⟩ := h
  obtain ⟨ha', hb'⟩ := inRange_absorb ⟨ha, hb⟩ x
  refine ⟨ha', hb', fun hp => ?_⟩
  obtain ⟨hpv, hpe⟩ := absorb_keeps_pending hp k x
  rw [hpv, hpe]
  exact hpend hp

theorem accOk_absorbAll {p : Policy} {k : Accum} (h : accOk p k) (c : List Byte) :
    accOk p (absorbAll p k c) := by
  induction c generalizing k with
  | nil => exact h
  | cons x c ih => exact ih (accOk_absorb h x)

/-! ## Writing a context -/

section
variable {s : State}

theorem goodPacket_of_inv (h : Inv s) : GoodPacket s.params s.p := by
  obtain ⟨-, hbuf, hp, -⟩ := h
  exact ⟨hbuf, hp⟩

theorem inv_setPacket (h : Inv s) {p : Packet} (hp : GoodPacket s.params p) : Inv (s.setPacket p) := by
  obtain ⟨hparams, -, -, hk⟩ := h
  exact ⟨hparams, hp.1, hp.2, hk⟩

theorem inv_setStream (h : Inv s) {k : Stream} (hk : k.active = true → accOk k.policy k.acc) :
    Inv (s.setStream k) := by
  obtain ⟨hparams, hbuf, hp, -⟩ := h
  exact ⟨hparams, hbuf, hp, hk⟩

/-! ## The shared operations keep the invariant -/

theorem keepsInv_finish (r : Response) (h : Inv s) : Yields Inv (finish r s) := yields_next h

theorem keepsInv_guarded {cs : List Check} {k : State → Out} (h : Inv s)
    (hk : firstError cs = none → Yields Inv (k s)) : Yields Inv (guarded cs s k) :=
  yields_guarded (fun _ _ => h) hk

/-- An operation that reads something from the packet and writes no context. -/
theorem keepsInv_orFault_finish {α : Type} {x : Except Fault α} (r : α → Response) (h : Inv s) :
    Yields Inv (orFault x fun a => finish (r a) s) :=
  yields_orFault fun a _ => keepsInv_finish (r a) h

theorem keepsInv_store (h : Inv s) (off : Nat) (bs : List Byte) :
    Yields Inv (updatePacket (s.p.storeBytes off bs) s) :=
  yields_orFault fun _ hq =>
    keepsInv_finish _ (inv_setPacket h (goodPacket_of_storeBytes (goodPacket_of_inv h) hq))

theorem keepsInv_buildPacket {lay : Layout} {n : Nat} {image : List Byte} (h : Inv s)
    (hmax : withinMax s.params n) (hsize : goodSize s.params lay n) (hlen : image.length = n) :
    Yields Inv (finish Response.done (s.setPacket (buildPacket s.p lay n image))) :=
  keepsInv_finish _ (inv_setPacket h (goodPacket_buildPacket s.p hmax hsize hlen))

end

/-! ## Every operation and every step -/

theorem exec_keepsInv (i : Instr) {s : State} (h : Inv s) : Yields Inv (exec i s) := by
  cases i
  -- no context but H is written
  case ckCompute => exact keepsInv_finish _ h
  case hdrDecode din =>
    by_cases hlen : din.length = 4
    · obtain ⟨b0, b1, b2, b3, rfl⟩ := List.length_eq_four.1 hlen
      exact keepsInv_finish _ h
    · rw [exec_hdrDecode_of_length_ne hlen]
      exact yields_next h
  case hdrEncode | hdrRaw | hdrFields | hdrSetRcv | hdrGet =>
    simp only [exec, execHdrEncode, execHdrRaw, execHdrFields, execHdrSetRcv, execHdrGet]
    exact keepsInv_guarded h fun _ => keepsInv_finish _ h
  case pktToBytes | pktGetStat | pktGetTask | pktGetPay | valIsValid =>
    simp only [exec, execPktToBytes, execPktGetStat, execPktGetTask, execPktGetPay, execValIsValid]
    exact keepsInv_guarded h fun _ => keepsInv_orFault_finish _ h
  case pktGetHdr =>
    rw [exec, execPktGetHdr]
    exact keepsInv_guarded h fun _ => yields_orFault fun _ _ => yields_orFault fun _ _ =>
      yields_orFault fun _ _ => keepsInv_finish _ h
  case pktGetFcs =>
    rw [exec, execPktGetFcs]
    refine keepsInv_guarded h fun _ => ?_
    split
    · exact keepsInv_finish _ h
    · exact keepsInv_orFault_finish _ h
  -- K is written
  case ckInit p => exact keepsInv_finish _ (inv_setStream h fun _ => accOk_ckStart p)
  case ckUpdate c =>
    rw [exec, execCkUpdate]
    obtain ⟨-, -, -, hk⟩ := id h
    exact keepsInv_guarded h fun _ =>
      keepsInv_finish _ (inv_setStream h fun hactive => accOk_absorbAll (hk hactive) c)
  case ckFinal =>
    rw [exec, execCkFinal]
    exact keepsInv_guarded h fun _ => keepsInv_finish _ (inv_setStream h nofun)
  -- a window of the packet is stored
  case pktSetHdr | pktSetStat | pktSetTask | pktSetPay | pktSetFcs =>
    exact keepsInv_guarded h fun _ => keepsInv_store h _ _
  case valSeal =>
    rw [exec, execValSeal]
    exact keepsInv_guarded h fun _ => yields_orFault fun _ hq =>
      keepsInv_finish _ (inv_setPacket h (goodPacket_of_sealed (goodPacket_of_inv h) hq))
  case txPrep =>
    rw [exec, execTxPrep]
    exact keepsInv_guarded h fun _ => yields_orFault fun _ hq => yields_orFault fun _ _ =>
      keepsInv_finish _ (inv_setPacket h (goodPacket_of_sealed (goodPacket_of_inv h) hq))
  -- a packet is made
  case pktNew lay n task st seed pay =>
    rw [exec, execPktNew]
    refine keepsInv_guarded h fun hpass => ?_
    obtain ⟨hmax, hsize, hpay⟩ := newChecks_pass hpass
    have hmin : minSize lay ≤ n.toNat := (minSize_eq lay).le.trans hsize.1
    exact keepsInv_buildPacket h hmax hsize (length_newImage s.h hmin hpay task st seed)
  case pktFromBytes lay raw =>
    rw [exec, execPktFromBytes]
    refine keepsInv_guarded h fun hpass => ?_
    obtain ⟨hmax, hsize⟩ := parseChecks_pass hpass
    exact keepsInv_buildPacket h hmax hsize rfl
  case rxAccept lay n raw =>
    rw [exec, execRxAccept]
    refine keepsInv_guarded h fun hpass => yields_orFault fun _ _ => ?_
    obtain ⟨-, hmax, hsize⟩ := acceptChecks_pass hpass
    split
    · exact yields_next h
    · refine yields_orFault fun _ _ => ?_
      split
      · exact keepsInv_buildPacket h hmax hsize rfl
      · exact yields_next h

/-- Settles O8: a reset gives a state of R36, a request runs an operation or is refused. -/
theorem stepKeepsInvariant : Obligations.StepKeepsInvariant := by
  intro s t h ht
  obtain ⟨hparams, -⟩ := id h
  match hev : s.events with
  | [] =>
    rw [step_of_idle hev] at ht
    exact Host.Outcome.next.inj ht ▸ h
  | .reset v b :: rest =>
    rw [step_of_reset hev] at ht
    exact Host.Outcome.next.inj ht ▸ inv_resetWith hparams v b
  | .request r :: rest =>
    have hrest : Inv { s with events := rest } := h
    cases hd : decode r with
    | error e =>
      rw [step_of_decode_error hev hd] at ht
      exact Host.Outcome.next.inj ht ▸ hrest
    | ok i =>
      rw [step_of_decode_ok hev hd] at ht
      exact exec_keepsInv i hrest t ht

/-! ## Completion (R230) -/

section
variable {s : State}

theorem safe_next (t : State) : Safe (.next t) := ⟨t, rfl⟩

theorem safe_guarded_finish {cs : List Check} {r : State → Response} {f : State → State} :
    Safe (guarded cs s fun s => finish (r s) (f s)) := by
  unfold guarded
  split
  · exact safe_next _
  · exact safe_next _

theorem safe_of_answers {o : Out} {r : Response} (h : o = answers s r) : Safe o := ⟨_, h⟩

theorem safe_of_stores {i : Instr} {off : Nat} {bs : List Byte} (h : stores i s off bs) :
    Safe (exec i s) := by
  obtain ⟨buf, hexec, -⟩ := h
  exact safe_of_answers hexec

/-- R51: no operation on a held packet meets a fault. -/
theorem exec_safe_of_hasImage {i : Instr} (hi : readsPacket i = true) {image : List Byte}
    (h : HasImage s.p image) : Safe (exec i s) := by
  have hv := h.valid
  cases i
  case pktToBytes => exact safe_of_answers (exec_pktToBytes_image h)
  case pktGetHdr =>
    obtain ⟨sp, snd, rcv, hexec⟩ := exec_pktGetHdr_image h
    exact safe_of_answers hexec
  case pktSetHdr =>
    cases hh : s.h.valid with
    | false => exact safe_of_answers (exec_pktSetHdr_noHeader hh)
    | true => exact safe_of_stores (exec_pktSetHdr_loaded h hh)
  case pktGetStat =>
    obtain ⟨v, -, -, hexec⟩ := exec_pktGetStat_image h
    exact safe_of_answers hexec
  case pktSetStat st =>
    obtain hst | hst := le_or_gt st.toNat 255
    · exact safe_of_stores (exec_pktSetStat_inRange h hst)
    · exact safe_of_answers (exec_pktSetStat_tooLarge hv hst)
  case pktGetTask =>
    obtain ⟨v, -, -, hexec⟩ := exec_pktGetTask_image h
    exact safe_of_answers hexec
  case pktSetTask task =>
    obtain htask | htask := lt_or_ge task.toNat (2 ^ (8 * widthOf s.p.width))
    · exact safe_of_stores (exec_pktSetTask_fits h htask)
    · exact safe_of_answers (exec_pktSetTask_tooLarge hv htask)
  case pktGetPay =>
    obtain ⟨b, -, -, hexec⟩ := exec_pktGetPay_image h
    exact safe_of_answers hexec
  case pktSetPay pay =>
    obtain hpay | hpay := le_or_gt pay.length s.p.pcap
    · exact safe_of_stores (exec_pktSetPay_fits h hpay)
    · exact safe_of_answers (exec_pktSetPay_tooLarge hv hpay)
  case pktGetFcs =>
    obtain hf | hf := Nat.eq_zero_or_pos (fOf s.p.layout)
    · exact safe_of_answers (exec_pktGetFcs_absent hv hf)
    · obtain ⟨v, -, -, hexec⟩ := exec_pktGetFcs_image h hf
      exact safe_of_answers hexec
  case pktSetFcs v =>
    obtain hf | hf := Nat.eq_zero_or_pos (fOf s.p.layout)
    · exact safe_of_answers (exec_pktSetFcs_absent v hv hf)
    · obtain hfits | hlarge := lt_or_ge v.toNat (2 ^ (8 * fOf s.p.layout))
      · exact safe_of_stores (exec_pktSetFcs_fits h hf hfits)
      · exact safe_of_answers (exec_pktSetFcs_tooLarge hv hf hlarge)
  case valSeal => exact safe_of_stores (exec_valSeal_image h)
  case valIsValid => exact safe_of_answers (exec_valIsValid_image h)
  case txPrep =>
    obtain ⟨buf, -, -, hexec⟩ := exec_txPrep_image h
    exact safe_of_answers hexec
  -- the operations that do not read P
  all_goals exact nomatch hi

theorem exec_rxAccept_safe (lay : Layout) (n : BitVec 32) (raw : List Byte) :
    Safe (exec (.rxAccept lay n raw) s) := by
  cases hpass : firstError (acceptChecks lay n.toNat raw s) with
  | some st =>
    rw [exec, execRxAccept]
    exact ⟨_, guarded_stop s _ hpass⟩
  | none =>
    obtain ⟨hn, hmax, hsize⟩ := acceptChecks_pass hpass
    rw [exec_rxAccept_of_checks hn hmax hsize]
    split
    · exact safe_next _
    · split
      · exact safe_next _
      · exact safe_next _

/-- R230: from a state with the invariant every operation completes. -/
theorem exec_safe (i : Instr) (h : Inv s) : Safe (exec i s) := by
  cases i
  case ckCompute | ckInit => exact safe_next _
  case hdrDecode din =>
    by_cases hlen : din.length = 4
    · obtain ⟨b0, b1, b2, b3, rfl⟩ := List.length_eq_four.1 hlen
      exact safe_next _
    · exact safe_of_answers (exec_hdrDecode_of_length_ne hlen)
  case hdrEncode | hdrRaw | hdrFields | hdrSetRcv | hdrGet | pktNew | pktFromBytes | ckUpdate |
      ckFinal =>
    simp only [exec, execHdrEncode, execHdrRaw, execHdrFields, execHdrSetRcv, execHdrGet,
      execPktNew, execPktFromBytes, execCkUpdate, execCkFinal]
    exact safe_guarded_finish
  case rxAccept lay n raw => exact exec_rxAccept_safe lay n raw
  -- the operations that read P
  all_goals
    cases hv : s.p.valid with
    | false => exact safe_of_answers (exec_packet_empty rfl hv)
    | true =>
      obtain ⟨image, himage⟩ := exists_hasImage h hv
      exact exec_safe_of_hasImage rfl himage

theorem step_safe (h : Inv s) : Safe (step s) := by
  match hev : s.events with
  | [] => exact ⟨_, step_of_idle hev⟩
  | .reset v b :: rest => exact ⟨_, step_of_reset hev⟩
  | .request r :: rest =>
    cases hd : decode r with
    | error e => exact safe_of_answers (step_of_decode_error hev hd)
    | ok i =>
      rw [step_of_decode_ok hev hd]
      exact exec_safe (s := { s with events := rest }) i h

/-- R230: what serving a request leaves has a response. -/
theorem step_responds {r : Request} {rest : List HostEvent} (hs : s.events = .request r :: rest) :
    Yields (fun t => ∃ a, t.response = some a) (step s) := by
  cases hd : decode r with
  | error e =>
    rw [step_of_decode_error hs hd]
    exact yields_next ⟨_, rfl⟩
  | ok i =>
    rw [step_of_decode_ok hs hd]
    intro t ht
    obtain ⟨a, ha, -⟩ := exec_reports i _ t ht
    exact ⟨a, ha⟩

end

/-- Settles O10: the step completes, serving a request takes it off and leaves a response. -/
theorem everyRequestIsAnswered : Obligations.EveryRequestIsAnswered := by
  intro s h
  obtain ⟨t, ht⟩ := step_safe h
  refine ⟨t, ht, fun r rest hs => ⟨?_, step_responds hs t ht⟩⟩
  obtain ⟨_, _, _, _, rfl⟩ := step_writesContexts hs t ht
  rfl

end Sys2Proof.Proofs

/-!
PROOFS. Unspecified content is invisible (10_state.md R36; 41_packet_layout.md R147).

Two states that no operation can tell apart are related, and a rule for each shared operation says that it
takes related states to related outcomes: a check of an empty context stops in both, and past the check the
contexts are equal, but for the policy of a Basic packet, which nothing that reads a packet looks at.
-/

namespace Sys2Proof.Proofs

open Sys2Proof.Machine Sys2Proof.Safety Sys2Proof.Claims Sys2Proof.Laws

/-! ## Packets that no operation can tell apart (R147) -/

/-- The packet with another policy. -/
def withPolicy (p : Packet) (pol : Policy) : Packet := { p with policy := pol }

section
variable {p q : Packet}

theorem samePacket_refl (p : Packet) : SamePacket p p :=
  ⟨rfl, fun _ => ⟨rfl, rfl, rfl, rfl, fun _ => rfl⟩⟩

theorem samePacket_withPolicy (hk : p.kind = .basic) (pol : Policy) :
    SamePacket p (withPolicy p pol) :=
  ⟨rfl, fun _ => ⟨rfl, rfl, rfl, rfl, fun hf => nomatch hk.symm.trans hf⟩⟩

/-- Two held packets differ at most in the policy, and in that only when they are Basic. -/
theorem samePacket_held (h : SamePacket p q) (hv : p.valid = true) :
    q = p ∨ (p.kind = .basic ∧ ∃ pol, q = withPolicy p pol) := by
  obtain ⟨pv, pk, pn, pw, ppol, pb⟩ := p
  obtain ⟨qv, qk, qn, qw, qpol, qb⟩ := q
  obtain ⟨rfl, hp⟩ := h
  obtain ⟨rfl, rfl, rfl, rfl, hpol⟩ := hp hv
  cases pk with
  | basic => exact .inr ⟨rfl, qpol, rfl⟩
  | framed =>
    obtain rfl : ppol = qpol := hpol rfl
    exact .inl rfl

theorem fcsBytes_withPolicy (hk : p.kind = .basic) (pol : Policy) :
    (withPolicy p pol).fcsBytes = p.fcsBytes := by
  rw [fcsBytes_basic hk, fcsBytes_basic (p := withPolicy p pol) hk]

/-- What an operation reads of a held packet. -/
structure SameReads (p q : Packet) : Prop where
  bytesAt : q.bytesAt = p.bytesAt
  memRead : q.memRead = p.memRead
  n : q.n = p.n
  width : q.width = p.width
  payloadOffset : q.payloadOffset = p.payloadOffset
  fcsBytes : q.fcsBytes = p.fcsBytes
  fcsOffset : q.fcsOffset = p.fcsOffset
  pcap : q.pcap = p.pcap
  isValid : q.isValid = p.isValid

theorem sameReads_refl (p : Packet) : SameReads p p := ⟨rfl, rfl, rfl, rfl, rfl, rfl, rfl, rfl, rfl⟩

/-- R28: nothing that is read of a Basic packet depends on its policy. -/
theorem sameReads_withPolicy (hk : p.kind = .basic) (pol : Policy) :
    SameReads p (withPolicy p pol) where
  bytesAt := rfl
  memRead := rfl
  n := rfl
  width := rfl
  payloadOffset := rfl
  fcsBytes := fcsBytes_withPolicy hk pol
  fcsOffset := by
    rw [Packet.fcsOffset, Packet.fcsOffset, fcsBytes_withPolicy hk pol]
    rfl
  pcap := by
    rw [Packet.pcap, Packet.pcap, pcap, pcap, ← fcsBytes_le_minSize, ← fcsBytes_le_minSize,
      fcsBytes_withPolicy hk pol]
    rfl
  isValid := by
    rw [Packet.isValid, Packet.isValid, hk, show (withPolicy p pol).kind = .basic from hk]

theorem sameReads_of_samePacket (h : SamePacket p q) (hv : p.valid = true) : SameReads p q := by
  obtain rfl | ⟨hk, pol, rfl⟩ := samePacket_held h hv
  · exact sameReads_refl q
  · exact sameReads_withPolicy hk pol

/-- Two packets that an operation computed, or the same fault. -/
def SameResult : Except Fault Packet → Except Fault Packet → Prop
  | .ok p, .ok q => SamePacket p q
  | .error e, .error f => e = f
  | _, _ => False

theorem sameResult_refl (x : Except Fault Packet) : SameResult x x := by
  cases x with
  | ok p => exact samePacket_refl p
  | error e => rfl

theorem sameResult_storeBytes (h : SamePacket p q) (hv : p.valid = true) (off : Nat)
    (bs : List Byte) : SameResult (p.storeBytes off bs) (q.storeBytes off bs) := by
  obtain rfl | ⟨hk, pol, rfl⟩ := samePacket_held h hv
  · exact sameResult_refl _
  · unfold Packet.storeBytes
    rw [show (withPolicy p pol).n = p.n from rfl]
    split
    · exact samePacket_withPolicy (p := { p with buf := p.buf.store off bs }) hk pol
    · rfl

theorem valid_of_sealed (hq : p.sealed = .ok q) : q.valid = p.valid := by
  obtain rfl | ⟨bs, hbs⟩ := sealed_cases hq
  · rfl
  · obtain ⟨-, rfl⟩ := storeBytes_cases hbs
    rfl

theorem sameResult_sealed (h : SamePacket p q) (hv : p.valid = true) :
    SameResult p.sealed q.sealed := by
  obtain rfl | ⟨hk, pol, rfl⟩ := samePacket_held h hv
  · exact sameResult_refl _
  · rw [Packet.sealed, Packet.sealed, hk, show (withPolicy p pol).kind = .basic from hk]
    exact samePacket_withPolicy hk pol

/-- R132, R134: only the packet made as Basic keeps the policy of the one before. -/
theorem samePacket_buildPacket (old old' : Packet) (lay : Layout) (n : Nat) (image : List Byte) :
    SamePacket (buildPacket old lay n image) (buildPacket old' lay n image) := by
  refine ⟨rfl, fun _ => ⟨rfl, rfl, rfl, rfl, fun hk => ?_⟩⟩
  rw [buildPacket_policy_framed _ _ _ _ hk, buildPacket_policy_framed _ _ _ _ hk]

end

/-! ## States that no operation can tell apart (R36) -/

section
variable {s t : State}

/-- What an operation can use of two related states, by name. -/
structure Agree (s t : State) : Prop where
  cfg : s.cfg = t.cfg
  params : s.params = t.params
  headerValid : s.h.valid = t.h.valid
  header : s.h.valid = true → s.h = t.h
  packetValid : s.p.valid = t.p.valid
  packet : SamePacket s.p t.p
  streamActive : s.k.active = t.k.active
  stream : s.k.active = true → s.k = t.k

theorem agree_of_same (h : SameObservable s t) : Agree s t := by
  obtain ⟨hcfg, hparams, -, -, hhv, hh, hp, hact, hk⟩ := h
  exact ⟨hcfg, hparams, hhv, hh, hp.1, hp, hact, hk⟩

theorem same_refl (s : State) : SameObservable s s :=
  ⟨rfl, rfl, rfl, rfl, rfl, fun _ => rfl, samePacket_refl s.p, rfl, fun _ => rfl⟩

theorem same_withEvents (h : SameObservable s t) (events : List HostEvent) :
    SameObservable { s with events := events } { t with events := events } := by
  obtain ⟨hcfg, hparams, -, hr, hhv, hh, hp, hact, hk⟩ := h
  exact ⟨hcfg, hparams, rfl, hr, hhv, hh, hp, hact, hk⟩

theorem same_respond (h : SameObservable s t) (r : Response) :
    SameObservable (s.respond r) (t.respond r) := by
  obtain ⟨hcfg, hparams, hev, -, hhv, hh, hp, hact, hk⟩ := h
  exact ⟨hcfg, hparams, hev, rfl, hhv, hh, hp, hact, hk⟩

theorem same_loadHeader (h : SameObservable s t) (sp : Word16) (snd rcv : Byte) :
    SameObservable (s.loadHeader sp snd rcv) (t.loadHeader sp snd rcv) := by
  obtain ⟨hcfg, hparams, hev, hr, -, -, hp, hact, hk⟩ := h
  exact ⟨hcfg, hparams, hev, hr, rfl, fun _ => rfl, hp, hact, hk⟩

theorem same_setPacket (h : SameObservable s t) {p q : Packet} (hpq : SamePacket p q) :
    SameObservable (s.setPacket p) (t.setPacket q) := by
  obtain ⟨hcfg, hparams, hev, hr, hhv, hh, -, hact, hk⟩ := h
  exact ⟨hcfg, hparams, hev, hr, hhv, hh, hpq, hact, hk⟩

theorem same_setStream (h : SameObservable s t) (k : Stream) :
    SameObservable (s.setStream k) (t.setStream k) := by
  obtain ⟨hcfg, hparams, hev, hr, hhv, hh, hp, -, -⟩ := h
  exact ⟨hcfg, hparams, hev, hr, hhv, hh, hp, rfl, fun _ => rfl⟩

/-! ## The shared operations -/

theorem same_finish (r : Response) (h : SameObservable s t) :
    SameOutcome (finish r s) (finish r t) := same_respond h r

theorem same_guarded {cs : List Check} {f g : State → Out} (h : SameObservable s t)
    (hpass : SameOutcome (f s) (g t)) : SameOutcome (guarded cs s f) (guarded cs t g) := by
  unfold guarded
  split
  · exact same_finish _ h
  · exact hpass

/-- The first check is that of a context: it stops both, or the context is there in both. -/
theorem same_guarded_context {b b' : Bool} {st : Status} {cs cs' : List Check} {f g : State → Out}
    (h : SameObservable s t) (hb : b = b')
    (hpass : b = true → SameOutcome (guarded cs s f) (guarded cs' t g)) :
    SameOutcome (guarded ((!b, st) :: cs) s f) (guarded ((!b', st) :: cs') t g) := by
  subst hb
  cases b with
  | false => exact same_finish (Response.bare st) h
  | true => exact hpass rfl

section
variable {cs cs' : List Check} {f g : State → Out}

/-- R26: an operation that looks at H first, and then uses the header that is loaded. -/
theorem same_guarded_header (h : SameObservable s t)
    (hpass : s.h = t.h → SameOutcome (guarded cs s f) (guarded cs' t g)) :
    SameOutcome (guarded (headerCheck s :: cs) s f) (guarded (headerCheck t :: cs') t g) := by
  have ha := agree_of_same h
  exact same_guarded_context h ha.headerValid fun hv => hpass (ha.header hv)

/-- R30: an operation that looks at P first, and then reads the packet that is held. -/
theorem same_guarded_packet (h : SameObservable s t)
    (hpass : s.p.valid = true → SameReads s.p t.p →
      SameOutcome (guarded cs s f) (guarded cs' t g)) :
    SameOutcome (guarded (packetCheck s :: cs) s f) (guarded (packetCheck t :: cs') t g) := by
  have ha := agree_of_same h
  exact same_guarded_context h ha.packetValid fun hv =>
    hpass hv (sameReads_of_samePacket ha.packet hv)

/-- R192, R193: an operation that looks at K first, and then uses the computation that is active. -/
theorem same_guarded_stream (h : SameObservable s t)
    (hpass : s.k = t.k → SameOutcome (guarded cs s f) (guarded cs' t g)) :
    SameOutcome (guarded (streamCheck s :: cs) s f) (guarded (streamCheck t :: cs') t g) := by
  have ha := agree_of_same h
  exact same_guarded_context h ha.streamActive fun hv => hpass (ha.stream hv)

end

theorem same_orFault {α : Type} {x : Except Fault α} {f g : α → Out}
    (h : ∀ a, SameOutcome (f a) (g a)) : SameOutcome (orFault x f) (orFault x g) := by
  cases x with
  | ok a => exact h a
  | error e => rfl

/-- Reading something from the packet and responding with it. -/
theorem same_orFault_finish {α : Type} {x : Except Fault α} (r : α → Response)
    (h : SameObservable s t) :
    SameOutcome (orFault x fun a => finish (r a) s) (orFault x fun a => finish (r a) t) :=
  same_orFault fun a => same_finish (r a) h

theorem same_orFault_packet {x y : Except Fault Packet} {f g : Packet → Out} (hxy : SameResult x y)
    (h : ∀ p q, x = .ok p → SamePacket p q → SameOutcome (f p) (g q)) :
    SameOutcome (orFault x f) (orFault y g) := by
  cases x with
  | ok p =>
    cases y with
    | ok q => exact h p q rfl hxy
    | error e => exact hxy.elim
  | error e =>
    cases y with
    | ok q => exact hxy.elim
    | error e' => exact hxy

theorem same_updatePacket {x y : Except Fault Packet} (h : SameObservable s t) (hxy : SameResult x y) :
    SameOutcome (updatePacket x s) (updatePacket y t) :=
  same_orFault_packet hxy fun _ _ _ hpq => same_finish _ (same_setPacket h hpq)

theorem same_store (h : SameObservable s t) (hv : s.p.valid = true) (off : Nat) (bs : List Byte) :
    SameOutcome (updatePacket (s.p.storeBytes off bs) s) (updatePacket (t.p.storeBytes off bs) t) :=
  same_updatePacket h (sameResult_storeBytes (agree_of_same h).packet hv off bs)

theorem same_ite {c : Prop} [Decidable c] {o₁ o₁' o₂ o₂' : Out} (h₁ : SameOutcome o₁ o₁')
    (h₂ : SameOutcome o₂ o₂') :
    SameOutcome (if c then o₁ else o₂) (if c then o₁' else o₂') := by
  split
  · exact h₁
  · exact h₂

/-! ## Every operation and every step -/

theorem exec_pktNew_same (h : SameObservable s t) (lay : Layout) (n : BitVec 32) (task : Word64)
    (st : Word16) (seed : Option Word64) (pay : List Byte) :
    SameOutcome (exec (.pktNew lay n task st seed pay) s) (exec (.pktNew lay n task st seed pay) t) := by
  rw [exec, execPktNew, exec, execPktNew, newChecks, newChecks, (agree_of_same h).params]
  refine same_guarded_header h fun hh => same_guarded h (same_finish _ ?_)
  rw [hh]
  exact same_setPacket h (samePacket_buildPacket ..)

theorem exec_pktFromBytes_same (h : SameObservable s t) (lay : Layout) (raw : List Byte) :
    SameOutcome (exec (.pktFromBytes lay raw) s) (exec (.pktFromBytes lay raw) t) := by
  rw [exec, execPktFromBytes, exec, execPktFromBytes, (agree_of_same h).params]
  exact same_guarded h (same_finish _ (same_setPacket h (samePacket_buildPacket ..)))

theorem exec_rxAccept_same (h : SameObservable s t) (lay : Layout) (n : BitVec 32) (raw : List Byte) :
    SameOutcome (exec (.rxAccept lay n raw) s) (exec (.rxAccept lay n raw) t) := by
  have ha := agree_of_same h
  have hnew : SamePacket (parsedPacket s.p lay raw) (parsedPacket t.p lay raw) :=
    samePacket_buildPacket ..
  have hreads := sameReads_of_samePacket hnew rfl
  rw [exec, execRxAccept, exec, execRxAccept, acceptChecks, acceptChecks, ha.params]
  refine same_guarded h ?_
  dsimp only
  rw [hreads.memRead, hreads.isValid, ha.cfg]
  exact same_orFault fun _ => same_ite (same_finish _ h) (same_orFault fun _ =>
    same_ite (same_finish _ (same_setPacket h hnew)) (same_finish _ h))

theorem exec_same (i : Instr) (h : SameObservable s t) : SameOutcome (exec i s) (exec i t) := by
  have ha := agree_of_same h
  cases i
  -- no check on the state
  case hdrDecode din =>
    by_cases hlen : din.length = 4
    · obtain ⟨b0, b1, b2, b3, rfl⟩ := List.length_eq_four.1 hlen
      exact same_finish _ (same_loadHeader h ..)
    · rw [exec_hdrDecode_of_length_ne hlen, exec_hdrDecode_of_length_ne hlen]
      exact same_finish _ h
  case ckCompute => exact same_finish _ h
  case ckInit => exact same_finish _ (same_setStream h _)
  -- the configuration is used
  case hdrRaw | hdrFields =>
    simp only [exec, execHdrRaw, execHdrFields]
    refine same_guarded h (same_finish _ ?_)
    rw [ha.cfg]
    exact same_loadHeader h ..
  -- H is used
  case hdrEncode | hdrGet =>
    simp only [exec, execHdrEncode, execHdrGet]
    refine same_guarded_header h fun hh => same_guarded h ?_
    rw [hh]
    exact same_finish _ h
  case hdrSetRcv =>
    rw [exec, execHdrSetRcv, exec, execHdrSetRcv]
    refine same_guarded_header h fun hh => same_guarded h (same_finish _ ?_)
    rw [hh]
    exact same_loadHeader h ..
  -- a packet is made
  case pktNew lay n task st seed pay => exact exec_pktNew_same h lay n task st seed pay
  case pktFromBytes lay raw => exact exec_pktFromBytes_same h lay raw
  case rxAccept lay n raw => exact exec_rxAccept_same h lay n raw
  -- P is read
  case pktToBytes | pktGetStat | pktGetTask | pktGetPay | valIsValid =>
    simp only [exec, execPktToBytes, execPktGetStat, execPktGetTask, execPktGetPay, execValIsValid]
    refine same_guarded_packet h fun _ hp => same_guarded h ?_
    simp only [hp.bytesAt, hp.memRead, hp.n, hp.width, hp.payloadOffset, hp.pcap, hp.isValid]
    exact same_orFault_finish _ h
  case pktGetHdr =>
    rw [exec, execPktGetHdr, exec, execPktGetHdr]
    refine same_guarded_packet h fun _ hp => same_guarded h ?_
    rw [hp.memRead]
    exact same_orFault fun _ => same_orFault fun _ => same_orFault fun _ =>
      same_finish _ (same_loadHeader h ..)
  case pktGetFcs =>
    rw [exec, execPktGetFcs, exec, execPktGetFcs]
    refine same_guarded_packet h fun _ hp => same_guarded h ?_
    rw [hp.memRead, hp.fcsBytes, hp.fcsOffset]
    exact same_ite (same_finish _ h) (same_orFault_finish _ h)
  -- P is written
  case pktSetHdr =>
    rw [exec, execPktSetHdr, exec, execPktSetHdr]
    refine same_guarded_header h fun hh => same_guarded_packet h fun hv _ => same_guarded h ?_
    rw [hh]
    exact same_store h hv _ _
  case pktSetStat =>
    rw [exec, execPktSetStat, exec, execPktSetStat]
    exact same_guarded_packet h fun hv _ => same_guarded h (same_store h hv _ _)
  case pktSetTask | pktSetPay | pktSetFcs =>
    simp only [exec, execPktSetTask, execPktSetPay, execPktSetFcs]
    refine same_guarded_packet h fun hv hp => ?_
    simp only [hp.width, hp.pcap, hp.fcsBytes]
    refine same_guarded h ?_
    simp only [hp.width, hp.payloadOffset, hp.pcap, hp.fcsBytes, hp.fcsOffset]
    exact same_store h hv _ _
  case valSeal =>
    rw [exec, execValSeal, exec, execValSeal]
    exact same_guarded_packet h fun hv _ => same_guarded h
      (same_updatePacket h (sameResult_sealed ha.packet hv))
  case txPrep =>
    rw [exec, execTxPrep, exec, execTxPrep]
    refine same_guarded_packet h fun hv _ => same_guarded h
      (same_orFault_packet (sameResult_sealed ha.packet hv) fun p q hsealed hpq => ?_)
    have hp := sameReads_of_samePacket hpq ((valid_of_sealed hsealed).trans hv)
    rw [hp.bytesAt, hp.n]
    exact same_orFault fun _ => same_finish _ (same_setPacket h hpq)
  -- K is used
  case ckUpdate | ckFinal =>
    simp only [exec, execCkUpdate, execCkFinal]
    refine same_guarded_stream h fun hk => same_guarded h ?_
    rw [hk]
    exact same_finish _ (same_setStream h _)

end

/-- Settles O13: the events are the same, and what they do is related. -/
theorem unspecifiedContentIsInvisible : Obligations.UnspecifiedContentIsInvisible := by
  intro s t h
  obtain ⟨-, hparams, hev, -⟩ := id h
  match hs : s.events with
  | [] =>
    rw [step_of_idle hs, step_of_idle (hev ▸ hs)]
    exact h
  | .reset v b :: rest =>
    rw [step_of_reset hs, step_of_reset (hev ▸ hs)]
    have hreset : s.pop.resetNow v b = t.pop.resetNow v b := by
      rw [State.resetNow, State.resetNow, pop_params, pop_params, pop_events, pop_events, hparams, hev]
    rw [hreset]
    exact same_refl _
  | .request r :: rest =>
    have ht : t.events = .request r :: rest := hev ▸ hs
    have hrest := same_withEvents h rest
    cases hd : decode r with
    | error e =>
      rw [step_of_decode_error hs hd, step_of_decode_error ht hd]
      exact same_finish _ hrest
    | ok i =>
      rw [step_of_decode_ok hs hd, step_of_decode_ok ht hd]
      exact exec_same i hrest

end Sys2Proof.Proofs

/-!
PROOFS. The operations that make a packet: the order of their checks (41_packet_layout.md R131, R132, R134;
43_validator_pipeline.md R217; 60_exceptions.md R237) and the packet that they make.
-/

namespace Sys2Proof.Proofs

open Sys2Proof.Machine Sys2Proof.Safety Sys2Proof.Claims Sys2Proof.Laws

/-! ## One check on a size (R131) -/

section
variable {c : Params} {lay : Layout} {n : Nat}

theorem exceedsMax_eq_true_iff : exceedsMax c n = true ↔ ¬withinMax c n := by
  rw [← exceedsMax_eq_false_iff, Bool.not_eq_false]

theorem parseChecks_capacity (h : ¬withinMax c n) :
    firstError (parseChecks c lay n) = some .eCapacity := by
  simp [parseChecks, exceedsMax_eq_true_iff.2 h]

theorem sizeChecks_tooSmall (h : n < 5 + widthOf lay.width + fOf lay) :
    firstError (sizeChecks c lay n) = some .eTooSmall := by
  simp [sizeChecks, minSize_eq, h]

theorem sizeChecks_notAligned (hmin : 5 + widthOf lay.width + fOf lay ≤ n)
    (h : n % c.wordUnit ≠ 0) : firstError (sizeChecks c lay n) = some .eNotAligned := by
  simp [sizeChecks, minSize_eq, Nat.not_lt.2 hmin, h]

end

/-! ## Parsing and receiving -/

/-- Settles O27: the four ends of PKT.FROMBYTES. -/
theorem fromBytesCopiesTheImage : Obligations.FromBytesCopiesTheImage := by
  intro s lay raw
  refine ⟨fun hmax hsize => ?_, fun hmax => ?_, fun hmax hmin => ?_, fun hmax hmin halign => ?_⟩
  · refine ⟨_, _, exec_pktFromBytes_accepts hmax hsize, fun hk => ?_, fun a => ?_⟩
    · exact buildPacket_policy_framed s.p lay raw.length raw hk
    · exact (read_ofBytes 0 a raw).trans (if_pos (Nat.zero_le a))
  · rw [exec, execPktFromBytes]
    exact guarded_stop s _ (parseChecks_capacity hmax)
  · exact exec_pktFromBytes_badSize hmax (sizeChecks_tooSmall hmin)
  · exact exec_pktFromBytes_badSize hmax (sizeChecks_notAligned hmin halign)

theorem acceptChecks_eq (lay : Layout) (n : Nat) (raw : List Byte) (s : State) :
    acceptChecks lay n raw s = (decide (n < minSize lay), .eTooSmall) ::
      (decide (raw.length ≠ n), .eOperandLength) :: parseChecks s.params lay raw.length := rfl

/-- Settles O57, check by check in the order of R217. -/
theorem acceptReportsTheFirstError : Obligations.AcceptReportsTheFirstError := by
  intro s lay n raw
  dsimp only
  rw [← minSize_eq, exec, execRxAccept, acceptChecks_eq]
  refine ⟨fun hmin => guarded_cons_stop (decide_eq_true hmin), fun hmin hlen => ?_,
    fun hmin hlen hmax => ?_, fun hmin hlen hmax halign => ?_⟩
  all_goals rw [guarded_cons_pass (decide_eq_false (Nat.not_lt.2 hmin))]
  · exact guarded_cons_stop (decide_eq_true hlen)
  all_goals rw [guarded_cons_pass (decide_eq_false (not_not.2 hlen)), hlen]
  · exact guarded_stop s _ (parseChecks_capacity hmax)
  · rw [minSize_eq] at hmin
    exact guarded_stop s _
      ((parseChecks_of_withinMax hmax).trans (sizeChecks_notAligned hmin halign))

/-! ## Building: the checks (R132) -/

theorem newChecks_eq (lay : Layout) (n : Nat) (task : Word64) (st : Word16) (seed : Option Word64)
    (pay : List Byte) (s : State) : newChecks lay n task st seed pay s =
      [headerCheck s, (exceedsMax s.params n, .eCapacity), (decide (n < minSize lay), .eTooSmall),
        (decide (n % s.params.wordUnit ≠ 0), .eNotAligned), taskIdCheck lay.width task,
        statusCheck st, payloadCheck (pcap n lay) pay, seedCheck (layoutFcsBytes lay) seed] := rfl

theorem taskIdCheck_iff (w : TaskWidth) (task : Word64) :
    (taskIdCheck w task).1 = true ↔ 2 ^ (8 * widthBytes w) ≤ task.toNat := by
  simp [taskIdCheck, fits]

theorem seedCheck_some_iff (f : Nat) (v : Word64) :
    (seedCheck f (some v)).1 = true ↔ 0 < f ∧ 2 ^ (8 * f) ≤ v.toNat := by
  simp [seedCheck, fits]

/-- Settles O24, check by check in the order of R132. -/
theorem newReportsTheFirstError : Obligations.NewReportsTheFirstError := by
  intro s lay n task st seed pay
  dsimp only
  rw [← minSize_eq, ← widthBytes_eq_widthOf, ← layoutFcsBytes_eq_fOf, exec, execPktNew, newChecks_eq]
  refine ⟨guarded_header_empty, fun hh => ?_⟩
  rw [guarded_header_loaded hh]
  refine ⟨fun hmax => guarded_cons_stop (exceedsMax_eq_true_iff.2 hmax), fun hmax => ?_⟩
  rw [guarded_cons_pass (exceedsMax_eq_false_iff.2 hmax)]
  refine ⟨fun hmin => guarded_cons_stop (decide_eq_true hmin), fun hmin => ?_⟩
  rw [guarded_cons_pass (decide_eq_false (Nat.not_lt.2 hmin))]
  refine ⟨fun halign => guarded_cons_stop (decide_eq_true halign), fun halign => ?_⟩
  rw [guarded_cons_pass (decide_eq_false (not_not.2 halign))]
  refine ⟨fun htask => guarded_cons_stop ((taskIdCheck_iff _ _).2 htask), fun htask => ?_⟩
  rw [guarded_cons_pass (Bool.eq_false_iff.2 (mt (taskIdCheck_iff _ _).1 (Nat.not_le.2 htask)))]
  refine ⟨fun hst => guarded_cons_stop (decide_eq_true hst), fun hst => ?_⟩
  rw [guarded_cons_pass (decide_eq_false (Nat.not_lt.2 hst))]
  refine ⟨fun hpay => guarded_cons_stop (decide_eq_true hpay), fun hpay v hseed hf hv => ?_⟩
  rw [guarded_cons_pass (decide_eq_false (Nat.not_lt.2 hpay)), hseed]
  exact guarded_cons_stop ((seedCheck_some_iff _ v).2 ⟨hf, hv⟩)

/-! ## Building: the packet (R132) -/

/-- What the image goes on with at an offset, the buffer holds there. -/
theorem holdsAt_of_drop {image bs rest : List Byte} {off : Nat} (h : image.drop off = bs ++ rest) :
    holdsAt (Memory.ofBytes 0 image) off bs ∧ image.drop (off + bs.length) = rest :=
  ⟨holdsAt_ofBytes_iff.2 (by rw [h, List.take_left]), by rw [← List.drop_drop, h, List.drop_left]⟩

section
variable {s : State} {lay : Layout} {n : BitVec 32} {task : Word64} {st : Word16}
  {seed : Option Word64} {pay : List Byte}

/-- R132 (f): with no field there is nothing to write, otherwise the seed or 0. -/
theorem le_seedValue (f : Nat) (seed : Option Word64) :
    le f (seedValue f seed) = leBytes f (seed.getD 0) := by
  obtain rfl | hf := Nat.eq_zero_or_pos f
  · rfl
  · rw [← le_toNat]
    cases seed with
    | none => rfl
    | some v => rw [seedValue, if_pos hf, Option.getD_some]

/-- R132: the fields of the image, one after the other. -/
theorem newImage_eq (h : HeaderReg) (n : Nat) : newImage h.bytes lay n task st seed pay =
    h.bytes ++ ([st.extractLsb' 0 8] ++ (leBytes (widthOf lay.width) task ++ (pay ++
      (zeros (pcap n lay - pay.length) ++ (leBytes (fOf lay) (seed.getD 0) ++ []))))) := by
  rw [newImage, padPayload, le_status, le_toNat, le_seedValue, widthBytes_eq_widthOf,
    layoutFcsBytes_eq_fOf]
  simp only [List.append_assoc, List.append_nil]

/-- R132, R56: where the buffer of the image holds each field. -/
structure HoldsFields (m : Memory) (h : HeaderReg) (lay : Layout) (capacity : Nat) (task : Word64)
    (st : Word16) (seed : Option Word64) (pay : List Byte) : Prop where
  header : holdsAt m 0 h.bytes
  status : holdsAt m 4 [st.extractLsb' 0 8]
  taskId : holdsAt m 5 (leBytes (widthOf lay.width) task)
  payload : holdsAt m (5 + widthOf lay.width) pay
  padding : holdsAt m (5 + widthOf lay.width + pay.length) (zeros (capacity - pay.length))
  fcs : holdsAt m (5 + widthOf lay.width + capacity) (leBytes (fOf lay) (seed.getD 0))

theorem holdsFields_newImage (h : HeaderReg) {n : Nat} (hpay : pay.length ≤ pcap n lay) :
    HoldsFields (Memory.ofBytes 0 (newImage h.bytes lay n task st seed pay)) h lay (pcap n lay)
      task st seed pay := by
  have h0 : (newImage h.bytes lay n task st seed pay).drop 0 = _ := newImage_eq h n
  obtain ⟨hheader, h4⟩ := holdsAt_of_drop h0
  obtain ⟨hstatus, h5⟩ := holdsAt_of_drop h4
  obtain ⟨htask, hpayOff⟩ := holdsAt_of_drop h5
  obtain ⟨hpayload, hpadOff⟩ := holdsAt_of_drop hpayOff
  obtain ⟨hpadding, hfcsOff⟩ := holdsAt_of_drop hpadOff
  obtain ⟨hfcs, -⟩ := holdsAt_of_drop hfcsOff
  have h4eq : 0 + h.bytes.length = 4 := rfl
  rw [h4eq, List.length_singleton, length_leBytes (widthOf lay.width)] at hpayload hpadding hfcs
  rw [length_zeros, Nat.add_assoc (5 + _), Nat.add_sub_cancel' hpay] at hfcs
  exact ⟨hheader, hstatus, htask, hpayload, hpadding, hfcs⟩

theorem seedCheck_pass {f : Nat} (h : ∀ v, seed = some v → 0 < f → v.toNat < 2 ^ (8 * f)) :
    (seedCheck f seed).1 = false := by
  cases seed with
  | none => rfl
  | some v =>
    refine Bool.eq_false_iff.2 fun hc => ?_
    obtain ⟨hf, hv⟩ := (seedCheck_some_iff f v).1 hc
    exact Nat.not_le.2 (h v rfl hf) hv

/-- R132: PKT.NEW with operands that pass every check. -/
theorem exec_pktNew_builds (hh : s.h.valid = true) (hmax : withinMax s.params n.toNat)
    (hsize : goodSize s.params lay n.toNat) (htask : task.toNat < 2 ^ (8 * widthOf lay.width))
    (hst : st.toNat ≤ 255) (hpay : pay.length ≤ pcap n.toNat lay)
    (hseed : ∀ v, seed = some v → 0 < fOf lay → v.toNat < 2 ^ (8 * fOf lay)) :
    exec (.pktNew lay n task st seed pay) s =
      answers (s.setPacket (buildPacket s.p lay n.toNat
        (newImage s.h.bytes lay n.toNat task st seed pay))) (only .ok) := by
  obtain ⟨hmin, halign⟩ := hsize
  rw [← minSize_eq] at hmin
  rw [← widthBytes_eq_widthOf] at htask
  rw [← layoutFcsBytes_eq_fOf] at hseed
  rw [exec, execPktNew, newChecks_eq, guarded_header_loaded hh,
    guarded_cons_pass (exceedsMax_eq_false_iff.2 hmax),
    guarded_cons_pass (decide_eq_false (Nat.not_lt.2 hmin)),
    guarded_cons_pass (decide_eq_false (not_not.2 halign)),
    guarded_cons_pass (Bool.eq_false_iff.2 (mt (taskIdCheck_iff _ _).1 (Nat.not_le.2 htask))),
    guarded_cons_pass (decide_eq_false (Nat.not_lt.2 hst)),
    guarded_cons_pass (decide_eq_false (Nat.not_lt.2 hpay)),
    guarded_cons_pass (seedCheck_pass hseed)]
  rfl

end

/-- Settles O25: the image is the row of fields, and each stands where the one before it ends. -/
theorem newBuildsThePacket : Obligations.NewBuildsThePacket := by
  intro s lay n task st seed pay
  dsimp only
  intro hh hmax hsize htask hst hpay hseed
  obtain ⟨hmin, -⟩ := id hsize
  have hcap : pcap n.toNat lay = n.toNat - (5 + widthOf lay.width + fOf lay) := by
    rw [pcap, minSize_eq]
  rw [← hcap] at hpay
  have hlen := length_newImage s.h ((minSize_eq lay).le.trans hmin) hpay task st seed
  have hfields := holdsFields_newImage (task := task) (st := st) (seed := seed) s.h hpay
  refine ⟨_, _, exec_pktNew_builds hh hmax hsize htask hst hpay hseed,
    buildPacket_policy_framed s.p lay n.toNat (newImage s.h.bytes lay n.toNat task st seed pay),
    hfields.header, hfields.status 0 Nat.one_pos, hfields.taskId, hfields.payload,
    fun a ha ha' => ?_, ?_, fun a ha => ?_⟩
  · have hzero := hfields.padding (a - (5 + widthOf lay.width + pay.length))
      (by rw [length_zeros]; omega)
    rw [Nat.add_sub_cancel' ha, zeros, List.getElem?_replicate, if_pos (by omega)] at hzero
    exact hzero
  · rw [show n.toNat - fOf lay = 5 + widthOf lay.width + pcap n.toNat lay by omega]
    exact hfields.fcs
  · rw [read_ofBytes, if_pos (Nat.zero_le a), List.getElem?_eq_none (by omega)]

end Sys2Proof.Proofs

/-!
PROOFS. The checksums in closed form (42_checksum_engine.md R175 to R186).

The sums and the two running sums are congruences modulo the policy's modulus, kept byte by byte; the
word-serial policies are the same over words, by recursion on two bytes at a time as `wordSum` does it;
the range of the registers (R32) makes each congruence an equation.
-/

namespace Sys2Proof.Proofs

open Sys2Proof.Machine Sys2Proof.Safety Sys2Proof.Claims Sys2Proof.Laws

/-! ## Sums (R175 to R178) -/

theorem byteSum_cons (x : Byte) (s : List Byte) : byteSum (x :: s) = x.toNat + byteSum s := rfl

/-- The registers after a string, under a sum (R176 to R178). -/
def sumFold (m : Nat) (s : List Byte) (k : Accum) : Accum :=
  s.foldl (fun k x => sumStep m k x.toNat) k

theorem sumFold_cons (m : Nat) (x : Byte) (s : List Byte) (k : Accum) :
    sumFold m (x :: s) k = sumFold m s (sumStep m k x.toNat) := rfl

section
variable {m : Nat}

/-- R176 to R178: consuming a string adds its byte sum, modulo m. -/
theorem sumFold_modEq (h0 : 0 < m) (hm : m ≤ 2 ^ 64) (s : List Byte) (k : Accum) :
    (sumFold m s k).a.toNat ≡ k.a.toNat + byteSum s [MOD m] := by
  induction s generalizing k with
  | nil => exact Nat.ModEq.refl _
  | cons x s ih =>
    rw [sumFold_cons, byteSum_cons, ← Nat.add_assoc]
    refine (ih _).trans (Nat.ModEq.add_right _ ?_)
    rw [sumStep_a h0 hm]
    exact Nat.mod_modEq _ _

/-- A register in range is the remainder of what it is congruent to. -/
theorem eq_mod_of_modEq {a b : Nat} (ha : a < m) (h : a ≡ b [MOD m]) : a = b % m :=
  (Nat.mod_eq_of_lt ha).symm.trans h

/-- R176 to R178: a sum that starts at 0 and is in range at the end. -/
theorem toNat_sumFold (h0 : 0 < m) (hm : m ≤ 2 ^ 64) {s : List Byte} {k : Accum} (hk : k.a.toNat = 0)
    (hr : (sumFold m s k).a.toNat < m) :
    (sumFold m s k).a.toNat = byteSum s % m := by
  have h := eq_mod_of_modEq hr (sumFold_modEq h0 hm s k)
  rwa [hk, Nat.zero_add] at h

end

theorem inRange_absorbAll_start (p : Policy) (b : List Byte) : InRange p (absorbAll p (ckStart p) b) :=
  inRange_absorbAll (inRange_ckStart p) b

theorem toNat_compute_sum8 (b : List Byte) : (compute .sum8 b).toNat = byteSum b % 2 ^ 8 :=
  toNat_sumFold (by decide) (by decide) rfl (inRange_absorbAll_start .sum8 b).1

theorem toNat_compute_sum16 (b : List Byte) : (compute .sum16 b).toNat = byteSum b % 2 ^ 16 :=
  toNat_sumFold (by decide) (by decide) rfl (inRange_absorbAll_start .sum16 b).1

theorem toNat_compute_sum32 (b : List Byte) : (compute .sum32 b).toNat = byteSum b % 2 ^ 32 :=
  toNat_sumFold (by decide) (by decide) rfl (inRange_absorbAll_start .sum32 b).1

/-- Settles O40: the register of a sum is in range and congruent to the byte sum. -/
theorem sumsAddTheBytes : Obligations.SumsAddTheBytes := fun b =>
  ⟨rfl, toNat_compute_sum8 b, toNat_compute_sum16 b, toNat_compute_sum32 b⟩

/-! ## Two running sums (R183, R185) -/

/-- The registers after a string, under two running sums (R183, R185). -/
def pairFold (m : Nat) (s : List Byte) (k : Accum) : Accum :=
  s.foldl (fun k x => pairStep m k x.toNat) k

theorem pairFold_cons (m : Nat) (x : Byte) (s : List Byte) (k : Accum) :
    pairFold m (x :: s) k = pairFold m s (pairStep m k x.toNat) := rfl

section
variable {m : Nat}

/-- R183, R185: the first sum adds the bytes, the second the first sum after each byte. -/
theorem pairFold_modEq (h0 : 0 < m) (hm : m ≤ 2 ^ 16) (s : List Byte) (k : Accum) :
    (pairFold m s k).a.toNat ≡ k.a.toNat + byteSum s [MOD m] ∧
      (pairFold m s k).b.toNat ≡
        k.b.toNat + s.length * k.a.toNat + prefixSums s [MOD m] := by
  induction s generalizing k with
  | nil =>
    refine ⟨Nat.ModEq.refl _, ?_⟩
    rw [List.length_nil, Nat.zero_mul]
    exact Nat.ModEq.refl _
  | cons x s ih =>
    obtain ⟨iha, ihb⟩ := ih (pairStep m k x.toNat)
    have ha : (pairStep m k x.toNat).a.toNat ≡ k.a.toNat + x.toNat [MOD m] := by
      rw [pairStep_a h0 hm]
      exact Nat.mod_modEq _ _
    have hb : (pairStep m k x.toNat).b.toNat ≡ k.b.toNat + (k.a.toNat + x.toNat) [MOD m] := by
      rw [pairStep_b h0 hm]
      exact (Nat.mod_modEq _ _).trans (Nat.ModEq.add_left _ (Nat.mod_modEq _ _))
    rw [pairFold_cons]
    refine ⟨?_, ?_⟩
    · rw [byteSum_cons, ← Nat.add_assoc]
      exact iha.trans (ha.add_right _)
    · refine ihb.trans (((hb.add (ha.mul_left s.length)).add_right _).trans ?_)
      rw [List.length_cons, prefixSums]
      exact congrArg (· % m) (by ring)

/-- R183 to R185: the value of two registers of at most n bits, side by side. -/
theorem toNat_pairValue {n : Nat} {k : Accum} (hn : n ≤ 16) (ha : k.a.toNat < 2 ^ n) :
    (pairValue n k).toNat = k.b.toNat * 2 ^ n + k.a.toNat := by
  have hshift : (k.b.setWidth 64 <<< n).toNat = k.b.toNat <<< n := by
    rw [BitVec.toNat_shiftLeft, BitVec.toNat_setWidth_of_le (by decide), Nat.shiftLeft_eq]
    refine Nat.mod_eq_of_lt ((Nat.mul_lt_mul_of_pos_right k.b.isLt (Nat.two_pow_pos n)).trans_le ?_)
    rw [← Nat.pow_add]
    exact Nat.pow_le_pow_right (by decide) (by omega)
  rw [pairValue, BitVec.toNat_or, hshift, ← Nat.shiftLeft_add_eq_or_of_lt ha, Nat.shiftLeft_eq]

/-- R183, R185: the value of the two running sums, from registers that are in range at the end. -/
theorem toNat_pairValue_pairFold {n : Nat} {s : List Byte} {k : Accum} (h0 : 0 < m) (hn : n ≤ 16)
    (hmn : m ≤ 2 ^ n) (h : Within m m (pairFold m s k)) :
    (pairValue n (pairFold m s k)).toNat =
      (k.b.toNat + s.length * k.a.toNat + prefixSums s) % m * 2 ^ n +
        (k.a.toNat + byteSum s) % m := by
  have hm : m ≤ 2 ^ 16 := hmn.trans (Nat.pow_le_pow_right (by decide) hn)
  obtain ⟨hra, hrb⟩ := h
  obtain ⟨ha, hb⟩ := pairFold_modEq h0 hm s k
  rw [toNat_pairValue hn (hra.trans_le hmn), ← eq_mod_of_modEq hra ha, ← eq_mod_of_modEq hrb hb]

end

/-- Settles O41: the registers start at 0 and 0, and for adler32 at 1 and 0. -/
theorem runningSumsInClosedForm : Obligations.RunningSumsInClosedForm := by
  intro b
  constructor
  · have h := toNat_pairValue_pairFold (n := 8) (by decide) (by decide) (by decide)
      (inRange_absorbAll_start .fletcher16 b)
    rwa [show (ckStart .fletcher16).a.toNat = 0 from rfl,
      show (ckStart .fletcher16).b.toNat = 0 from rfl, Nat.mul_zero, Nat.zero_add, Nat.zero_add] at h
  · have h := toNat_pairValue_pairFold (n := 16) (by decide) (by decide) (by decide)
      (inRange_absorbAll_start .adler32 b)
    rwa [show (ckStart .adler32).a.toNat = 1 from rfl, show (ckStart .adler32).b.toNat = 0 from rfl,
      Nat.mul_one, Nat.zero_add] at h

/-! ## Words (R173, R184, R186) -/

section
variable {step : Accum → Nat → Accum} {k : Accum}

/-- R173: two bytes are one big-endian word; what is left over in `pend` is not looked at any more. -/
theorem absorbWord_two (hpv : k.pv = false) (x y : Byte) :
    absorbWord step (absorbWord step k x) y =
      { step { k with pv := true, pend := x } (256 * x.toNat + y.toNat) with pv := false } := by
  simp [absorbWord, hpv, Nat.mul_comm]

/-- A relation between the register a of a word-serial computation and the sum of the words so far, kept by
every word, holds of the flushed register and the word sum of the string. -/
theorem wordFold_induction {R : Nat → Nat → Prop}
    (hstep : ∀ (k : Accum) (w n : Nat), w < 65536 → R n k.a.toNat → R (n + w) (step k w).a.toNat)
    (s : List Byte) (k : Accum) (n : Nat) (hpv : k.pv = false) (h : R n k.a.toNat) :
    R (n + wordSum s) (flushWord step (s.foldl (absorbWord step) k)).a.toNat := by
  induction s using wordSum.induct generalizing k n with
  | case1 => simpa [flushWord, hpv, wordSum] using h
  | case2 x =>
    have hlast := hstep { k with pv := true, pend := x } (256 * x.toNat) n (by omega) h
    simpa [flushWord, absorbWord, hpv, wordSum, Nat.mul_comm] using hlast
  | case3 x y s ih =>
    have hword := hstep { k with pv := true, pend := x } (256 * x.toNat + y.toNat) n (by omega) h
    rw [List.foldl_cons, List.foldl_cons, absorbWord_two hpv, wordSum, ← Nat.add_assoc]
    exact ih _ _ rfl hword

end

/-- R184: the first register of fletcher32 is the remainder of the word sum. -/
theorem fletcher32_a (b : List Byte) :
    (flushWord fletcher32Step (absorbAll .fletcher32 (ckStart .fletcher32) b)).a.toNat =
      wordSum b % 65535 := by
  have h := wordFold_induction (step := fletcher32Step) (R := fun n a => a = n % 65535)
    (fun k w n _ ha => by rw [fletcher32Step, pairStep_a (by decide) (by decide), ha, Nat.mod_add_mod])
    b (ckStart .fletcher32) 0 rfl rfl
  rwa [Nat.zero_add] at h

/-- R186: the one's-complement sum of 16-bit words as a function of their plain sum. -/
def onesSum (n : Nat) : Nat := if n = 0 then 0 else (n - 1) % 65535 + 1

theorem onesSum_le (n : Nat) : onesSum n ≤ 65535 := by
  unfold onesSum
  split <;> omega

/-- R186: one more word, with its end-around carry. -/
theorem onesSum_add {n w : Nat} (hw : w < 65536) : onesSum (n + w) =
    if 65535 < onesSum n + w then onesSum n + w - 65535 else onesSum n + w := by
  unfold onesSum
  split <;> split <;> split <;> omega

theorem internet16_a (b : List Byte) :
    (flushWord internetStep (absorbAll .internet16 (ckStart .internet16) b)).a.toNat =
      onesSum (wordSum b) := by
  have h := wordFold_induction (step := internetStep) (R := fun n a => a = onesSum n)
    (fun k w n hw ha => by
      have hle := onesSum_le n
      rw [internetStep_a (by omega) hw, ha, onesSum_add hw])
    b (ckStart .internet16) 0 rfl rfl
  rwa [Nat.zero_add] at h

/-- R186: the complement of a register that holds 16 bits, in 16 bits. -/
theorem toNat_not_and_mask {a : Word64} (h : a.toNat ≤ 65535) :
    (~~~a &&& 0xFFFF).toNat = 65535 - a.toNat := by
  have hmask : (0xFFFF : Word64).toNat = 2 ^ 16 - 1 := rfl
  rw [BitVec.toNat_and, hmask, Nat.and_two_pow_sub_one_eq_mod, BitVec.toNat_not]
  omega

/-- Settles O42: the flushed register is the one's-complement sum of the words. -/
theorem internetChecksumInClosedForm : Obligations.InternetChecksumInClosedForm := by
  intro b
  have ha := internet16_a b
  rw [compute, ckValue, toNat_not_and_mask (ha.trans_le (onesSum_le _)), ha, onesSum]

/-! ## crc32 (R181) -/

/-- A policy whose register of n bits is kept in the low bits of a, and stepped by each byte. -/
theorem absorbAll_register {n : Nat} {p : Policy} {step : BitVec n → Byte → BitVec n}
    (hp : ∀ (k : Accum) (x : Byte), (absorb p k x).a.setWidth n = step (k.a.setWidth n) x)
    (s : List Byte) (k : Accum) :
    (absorbAll p k s).a.setWidth n = s.foldl step (k.a.setWidth n) := by
  induction s generalizing k with
  | nil => rfl
  | cons x s ih => rw [absorbAll_cons, ih, hp, List.foldl_cons]

theorem setWidth_setWidth_self {n : Nat} (hn : n ≤ 64) (r : BitVec n) :
    (r.setWidth 64).setWidth n = r := by
  rw [BitVec.setWidth_setWidth_of_le _ hn, BitVec.setWidth_eq]

/-- The byte step of crc32. -/
abbrev crc32Step : BitVec 32 → Byte → BitVec 32 := crcStepLsb 0xEDB88320

theorem compute_crc32 (s : List Byte) :
    (compute .crc32 s).setWidth 32 = s.foldl crc32Step 0xFFFFFFFF ^^^ 0xFFFFFFFF := by
  have hstep (k : Accum) (x : Byte) :
      (absorb .crc32 k x).a.setWidth 32 = crc32Step (k.a.setWidth 32) x :=
    setWidth_setWidth_self (by decide) _
  rw [compute, ckValue, BitVec.setWidth_xor, absorbAll_register hstep]
  rfl

/-- R181: between two chunks the two complements cancel. -/
theorem crc32External_eq (chunks : List (List Byte)) (v : BitVec 32) :
    chunks.foldl (fun v c => c.foldl crc32Step (v ^^^ 0xFFFFFFFF) ^^^ 0xFFFFFFFF) v =
      chunks.flatten.foldl crc32Step (v ^^^ 0xFFFFFFFF) ^^^ 0xFFFFFFFF := by
  induction chunks generalizing v with
  | nil => simp
  | cons c cs ih =>
    rw [List.foldl_cons, ih, List.flatten_cons, List.foldl_append, BitVec.xor_assoc _ _ 0xFFFFFFFF,
      BitVec.xor_self, BitVec.xor_zero]

/-- Settles O43: the external form starts at 0, whose complement is the start value of the register. -/
theorem crc32ExternalForm : Obligations.Crc32ExternalForm := by
  intro chunks
  rw [compute_crc32]
  exact crc32External_eq chunks 0

end Sys2Proof.Proofs

/-!
PROOFS. Which changes of one byte a checksum detects (43_validator_pipeline.md R215 item 2; conflict C3).

The sums by their closed forms, in which a byte has a weight; the CRCs since each step is injective in the
register and in the byte.
-/

namespace Sys2Proof.Proofs

open Sys2Proof.Machine Sys2Proof.Safety Sys2Proof.Claims Sys2Proof.Laws

/-- The checksum of a string tells the values of each of its bytes apart. -/
def TellsBytes (p : Policy) : Prop :=
  ∀ (u v : List Byte) (x y : Byte), compute p (u ++ x :: v) = compute p (u ++ y :: v) → x = y

/-! ## One byte in the sums -/

theorem byteSum_replace (u v : List Byte) (x : Byte) :
    byteSum (u ++ x :: v) = byteSum u + byteSum v + x.toNat := by
  simp only [byteSum, List.map_append, List.map_cons, List.sum_append, List.sum_cons]
  omega

/-- A byte weighs 1 as the low byte of its word and 256 as the high byte. -/
theorem wordSum_replace (u v : List Byte) : ∃ c w, (w = 1 ∨ w = 256) ∧
    ∀ x : Byte, wordSum (u ++ x :: v) = c + w * x.toNat := by
  induction u using wordSum.induct with
  | case1 =>
    cases v with
    | nil => exact ⟨0, 256, .inr rfl, fun x => by simp [wordSum]⟩
    | cons y v => exact ⟨y.toNat + wordSum v, 256, .inr rfl, fun x => by simp [wordSum]; omega⟩
  | case2 a => exact ⟨256 * a.toNat + wordSum v, 1, .inl rfl, fun x => by simp [wordSum]; omega⟩
  | case3 a b u ih =>
    obtain ⟨c, w, hw, h⟩ := ih
    refine ⟨256 * a.toNat + b.toNat + c, w, hw, fun x => ?_⟩
    rw [List.cons_append, List.cons_append, wordSum, h]
    omega

theorem prefixSums_replace (u v : List Byte) : ∃ c, ∀ x : Byte,
    prefixSums (u ++ x :: v) = c + (v.length + 1) * x.toNat := by
  induction u with
  | nil => exact ⟨prefixSums v, fun x => by rw [List.nil_append, prefixSums, Nat.add_comm]⟩
  | cons a u ih =>
    obtain ⟨c, h⟩ := ih
    refine ⟨((u ++ 0 :: v).length + 1) * a.toNat + c, fun x => ?_⟩
    rw [List.cons_append, prefixSums, h, List.length_append, List.length_append, List.length_cons,
      List.length_cons]
    omega

/-- Two bytes that are congruent modulo more than 255 are equal. -/
theorem eq_of_add_mod_eq {c m : Nat} {x y : Byte} (hm : 256 ≤ m)
    (h : (c + x.toNat) % m = (c + y.toNat) % m) : x = y := by
  have hx := x.isLt
  have hy := y.isLt
  have hmod : x.toNat ≡ y.toNat [MOD m] := Nat.ModEq.add_left_cancel' c h
  exact BitVec.eq_of_toNat_eq (hmod.eq_of_lt_of_lt (by omega) (by omega))

/-- R176 to R178: a sum of bytes modulo more than 255. -/
theorem tellsBytes_of_byteSum {p : Policy} {m : Nat} (hm : 256 ≤ m)
    (hp : ∀ b, (compute p b).toNat = byteSum b % m) : TellsBytes p := by
  intro u v x y h
  have hsum := congrArg BitVec.toNat h
  rw [hp, hp, byteSum_replace, byteSum_replace] at hsum
  exact eq_of_add_mod_eq hm hsum

theorem tellsBytes_adler32 : TellsBytes .adler32 := by
  intro u v x y h
  obtain ⟨-, hx⟩ := runningSumsInClosedForm (u ++ x :: v)
  obtain ⟨-, hy⟩ := runningSumsInClosedForm (u ++ y :: v)
  rw [h, hy, byteSum_replace, byteSum_replace, ← Nat.add_assoc, ← Nat.add_assoc] at hx
  have hlow : (1 + (byteSum u + byteSum v) + y.toNat) % 65521 =
      (1 + (byteSum u + byteSum v) + x.toNat) % 65521 := by omega
  exact (eq_of_add_mod_eq (by decide) hlow).symm

/-- R184: the low half of fletcher32 is the word sum modulo 65535. -/
theorem compute_fletcher32_low (b : List Byte) :
    (compute .fletcher32 b).toNat % 65536 = wordSum b % 65535 := by
  have ha := fletcher32_a b
  rw [compute, ckValue, toNat_pairValue (by decide) (by omega), ha]
  omega

/-- Two bytes of weight 1 or 256 that are congruent modulo 65535 are equal. -/
theorem eq_of_weighted {c w : Nat} (hw : w = 1 ∨ w = 256) {x y : Byte}
    (h : (c + w * x.toNat) % 65535 = (c + w * y.toNat) % 65535) : x = y := by
  have hx := x.isLt
  have hy := y.isLt
  have hmod : w * x.toNat ≡ w * y.toNat [MOD 65535] := Nat.ModEq.add_left_cancel' c h
  have hwx : w * x.toNat = w * y.toNat := by
    obtain rfl | rfl := hw <;> exact hmod.eq_of_lt_of_lt (by omega) (by omega)
  exact BitVec.eq_of_toNat_eq (Nat.eq_of_mul_eq_mul_left (by omega) hwx)

theorem tellsBytes_fletcher32 : TellsBytes .fletcher32 := by
  intro u v x y h
  obtain ⟨c, w, hw, hsum⟩ := wordSum_replace u v
  have hx := compute_fletcher32_low (u ++ x :: v)
  rw [h, compute_fletcher32_low, hsum, hsum] at hx
  exact (eq_of_weighted hw hx).symm

/-- R186: equal one's-complement sums are equal modulo 65535, and both are 0 or neither. -/
theorem mod_eq_of_onesSum_eq {n m : Nat} (h : onesSum n = onesSum m) : n % 65535 = m % 65535 := by
  unfold onesSum at h
  split at h <;> split at h <;> omega

theorem tellsBytes_internet16 : TellsBytes .internet16 := by
  intro u v x y h
  obtain ⟨c, w, hw, hsum⟩ := wordSum_replace u v
  have hx := internetChecksumInClosedForm (u ++ x :: v)
  rw [h, internetChecksumInClosedForm, ← onesSum, ← onesSum] at hx
  have hlex := onesSum_le (wordSum (u ++ x :: v))
  have hley := onesSum_le (wordSum (u ++ y :: v))
  have hmod := mod_eq_of_onesSum_eq (n := wordSum (u ++ x :: v)) (m := wordSum (u ++ y :: v)) (by omega)
  rw [hsum, hsum] at hmod
  exact eq_of_weighted hw hmod

/-! ## One byte in a CRC (R174) -/

section
variable {n : Nat}

/-- The bit that goes out at the top comes back at the bottom, as bit 0 of the polynomial is 1. -/
theorem crcShiftMsb_bottom {poly : BitVec n} (hpoly : poly.getLsbD 0 = true) (a : BitVec n) :
    (crcShiftMsb poly a).getLsbD 0 = a.msb := by
  unfold crcShiftMsb
  split
  · next h => simp [h, hpoly]
  · next h => simp [h]

theorem eq_of_shiftLeft_one {a b : BitVec n} (hmsb : a.msb = b.msb) (h : a <<< 1 = b <<< 1) :
    a = b := by
  apply BitVec.eq_of_getElem_eq
  intro i hi
  obtain htop | hlow := Nat.eq_or_lt_of_le (Nat.succ_le_of_lt hi)
  · rwa [BitVec.msb_eq_getLsbD_last, BitVec.msb_eq_getLsbD_last, show n - 1 = i by omega,
      BitVec.getLsbD_eq_getElem hi, BitVec.getLsbD_eq_getElem hi] at hmsb
  · simpa [hlow] using congrArg (·.getLsbD (i + 1)) h

theorem crcShiftMsb_injective {poly : BitVec n} (hpoly : poly.getLsbD 0 = true) :
    Function.Injective (crcShiftMsb poly) := by
  intro a b h
  have hmsb : a.msb = b.msb := by
    rw [← crcShiftMsb_bottom hpoly, ← crcShiftMsb_bottom hpoly, h]
  refine eq_of_shiftLeft_one hmsb ?_
  unfold crcShiftMsb at h
  rw [hmsb] at h
  split at h
  · exact (BitVec.xor_left_inj poly).1 h
  · exact h

/-- The bit that goes out at the bottom comes back at the top, as the reversed polynomial has it. -/
theorem crcShiftLsb_top {rpoly : BitVec 32} (hpoly : rpoly[31] = true) (a : BitVec 32) :
    (crcShiftLsb rpoly a)[31] = a[0] := by
  by_cases h : a[0] <;> simp [crcShiftLsb, h, hpoly]

theorem eq_of_ushiftRight_one {a b : BitVec 32} (hbit : a[0] = b[0]) (h : a >>> 1 = b >>> 1) :
    a = b := by
  apply BitVec.eq_of_getElem_eq
  intro i hi
  cases i with
  | zero => exact hbit
  | succ i => simpa [Nat.add_comm 1, hi] using congrArg (·.getLsbD i) h

theorem crcShiftLsb_injective {rpoly : BitVec 32} (hpoly : rpoly[31] = true) :
    Function.Injective (crcShiftLsb rpoly) := by
  intro a b h
  have hbit : a[0] = b[0] := by
    rw [← crcShiftLsb_top hpoly a, ← crcShiftLsb_top hpoly b, h]
  refine eq_of_ushiftRight_one hbit ?_
  unfold crcShiftLsb at h
  rw [show a.getLsbD 0 = b.getLsbD 0 from hbit] at h
  split at h
  · exact (BitVec.xor_left_inj rpoly).1 h
  · exact h

/-- A byte moved to the top of a register of at least 8 bits can be read back. -/
theorem placedByte_injective (hn : 8 ≤ n) :
    Function.Injective fun x : Byte => x.setWidth n <<< (n - 8) := by
  have htoNat (x : Byte) : (x.setWidth n <<< (n - 8)).toNat = x.toNat * 2 ^ (n - 8) := by
    have hlt : x.toNat * 2 ^ (n - 8) < 2 ^ n := by
      calc x.toNat * 2 ^ (n - 8) < 2 ^ 8 * 2 ^ (n - 8) :=
            Nat.mul_lt_mul_of_pos_right x.isLt (Nat.two_pow_pos _)
        _ = 2 ^ n := by rw [← Nat.pow_add, Nat.add_sub_cancel' hn]
    rw [BitVec.toNat_shiftLeft, BitVec.toNat_setWidth_of_le hn, Nat.shiftLeft_eq, Nat.mod_eq_of_lt hlt]
  intro x y h
  have hmul := congrArg BitVec.toNat h
  dsimp only at hmul
  rw [htoNat, htoNat] at hmul
  exact BitVec.eq_of_toNat_eq (Nat.eq_of_mul_eq_mul_right (Nat.two_pow_pos _) hmul)

/-- A byte step that loses nothing of the register, nor of the byte. -/
structure StepInjective (step : BitVec n → Byte → BitVec n) : Prop where
  register : ∀ x, Function.Injective fun r => step r x
  byte : ∀ r, Function.Injective (step r)

theorem crcStepMsb_stepInjective (hn : 8 ≤ n) {poly : BitVec n} (hpoly : poly.getLsbD 0 = true) :
    StepInjective (crcStepMsb poly) where
  register _ _ _ h := (BitVec.xor_left_inj _).1 ((crcShiftMsb_injective hpoly).iterate 8 h)
  byte r _ _ h := placedByte_injective hn
    ((BitVec.xor_right_inj r).1 ((crcShiftMsb_injective hpoly).iterate 8 h))

theorem crcStepLsb_stepInjective {rpoly : BitVec 32} (hpoly : rpoly[31] = true) :
    StepInjective (crcStepLsb rpoly) where
  register _ _ _ h := (BitVec.xor_left_inj _).1 ((crcShiftLsb_injective hpoly).iterate 8 h)
  byte r x y h := by
    have hwide := (BitVec.xor_right_inj r).1 ((crcShiftLsb_injective hpoly).iterate 8 h)
    simpa [BitVec.setWidth_setWidth_of_le] using congrArg (BitVec.setWidth 8) hwide

theorem foldl_injective {step : BitVec n → Byte → BitVec n} (h : StepInjective step) (v : List Byte) :
    Function.Injective fun r => v.foldl step r := by
  induction v with
  | nil => exact fun _ _ heq => heq
  | cons x v ih => exact fun _ _ heq => h.register x (ih heq)

/-- A register that is read off the checksum and stepped injectively tells each byte apart. -/
theorem tellsBytes_of_register {p : Policy} {step : BitVec n → Byte → BitVec n}
    (hstep : StepInjective step)
    (hp : ∀ (k : Accum) (x : Byte), (absorb p k x).a.setWidth n = step (k.a.setWidth n) x)
    (hvalue : ∀ k l : Accum, ckValue p k = ckValue p l → k.a = l.a) : TellsBytes p := by
  intro u v x y h
  have hreg := congrArg (BitVec.setWidth n) (hvalue _ _ h)
  rw [absorbAll_register hp, absorbAll_register hp, List.foldl_append, List.foldl_append,
    List.foldl_cons, List.foldl_cons] at hreg
  exact hstep.byte _ (foldl_injective hstep v hreg)

end

/-- R215 item 2: ten policies tell each byte apart; `none` has no value to compare, and fletcher16 reduces
modulo 255. -/
theorem tellsBytes {p : Policy} (hnone : p ≠ .none) (hfletcher : p ≠ .fletcher16) : TellsBytes p := by
  cases p with
  | none => exact absurd rfl hnone
  | sum8 => exact tellsBytes_of_byteSum (by decide) toNat_compute_sum8
  | sum16 => exact tellsBytes_of_byteSum (by decide) toNat_compute_sum16
  | sum32 => exact tellsBytes_of_byteSum (by decide) toNat_compute_sum32
  | crc8 =>
    exact tellsBytes_of_register (crcStepMsb_stepInjective (poly := 0x07) (by decide) (by decide))
      (fun _ _ => setWidth_setWidth_self (by decide) _) fun _ _ h => h
  | crc16 =>
    exact tellsBytes_of_register (crcStepMsb_stepInjective (poly := 0x1021) (by decide) (by decide))
      (fun _ _ => setWidth_setWidth_self (by decide) _) fun _ _ h => h
  | crc32 =>
    exact tellsBytes_of_register (crcStepLsb_stepInjective (rpoly := 0xEDB88320) (by decide))
      (fun _ _ => setWidth_setWidth_self (by decide) _) fun _ _ h => (BitVec.xor_left_inj _).1 h
  | crc64 =>
    exact tellsBytes_of_register
      (crcStepMsb_stepInjective (poly := 0x42F0E1EBA9EA3693#64) (by decide) (by decide))
      (fun k x => by rw [BitVec.setWidth_eq, BitVec.setWidth_eq]; rfl) fun _ _ h => h
  | fletcher16 => exact absurd rfl hfletcher
  | fletcher32 => exact tellsBytes_fletcher32
  | adler32 => exact tellsBytes_adler32
  | internet16 => exact tellsBytes_internet16

/-! ## One byte under fletcher16 (R183, conflict C3) -/

/-- Two different bytes are congruent modulo 255 exactly when they are 0x00 and 0xFF. -/
theorem fletcher16_blind_iff {x y : Byte} (hne : y ≠ x) :
    x.toNat % 255 = y.toNat % 255 ↔ (x = 0 ∧ y = 0xFF) ∨ (x = 0xFF ∧ y = 0) := by
  have hx := x.isLt
  have hy := y.isLt
  have hzero : (0 : Byte).toNat = 0 := rfl
  have hones : (0xFF : Byte).toNat = 255 := rfl
  simp only [← BitVec.toNat_inj, ne_eq, hzero, hones] at hne ⊢
  omega

theorem compute_fletcher16_replace {x y : Byte} (hne : y ≠ x) (u v : List Byte) :
    compute .fletcher16 (u ++ x :: v) = compute .fletcher16 (u ++ y :: v) ↔
      (x = 0 ∧ y = 0xFF) ∨ (x = 0xFF ∧ y = 0) := by
  rw [← fletcher16_blind_iff hne]
  obtain ⟨c, hc⟩ := prefixSums_replace u v
  obtain ⟨hx, -⟩ := runningSumsInClosedForm (u ++ x :: v)
  obtain ⟨hy, -⟩ := runningSumsInClosedForm (u ++ y :: v)
  rw [byteSum_replace, hc] at hx hy
  constructor
  · intro h
    rw [h, hy] at hx
    have hlow : (byteSum u + byteSum v + x.toNat) % 255 = (byteSum u + byteSum v + y.toNat) % 255 := by
      omega
    exact Nat.ModEq.add_left_cancel' _ hlow
  · intro h
    have hmod : x.toNat ≡ y.toNat [MOD 255] := h
    have hlow : (byteSum u + byteSum v + x.toNat) % 255 = (byteSum u + byteSum v + y.toNat) % 255 :=
      hmod.add_left _
    have hhigh : (c + (v.length + 1) * x.toNat) % 255 = (c + (v.length + 1) * y.toNat) % 255 :=
      (hmod.mul_left _).add_left _
    exact BitVec.eq_of_toNat_eq (by rw [hx, hy, hlow, hhigh])

end Sys2Proof.Proofs

/-!
PROOFS. Sealing, changing and delivering a packet (43_validator_pipeline.md R215 to R218).

A change of one byte of the buffer is a change of one byte of the image; whether the packet is still valid
is a question about the checksum field and the checksum of the covered bytes.
-/

namespace Sys2Proof.Proofs

open Sys2Proof.Machine Sys2Proof.Safety Sys2Proof.Claims Sys2Proof.Laws

/-! ## Sealing twice (R214, R215 items 1 and 3) -/

section
variable {p : Packet} {image : List Byte}

theorem HasImage.length_covered (h : HasImage p image) :
    (image.take (p.n - fOf p.layout)).length = p.n - fOf p.layout := by
  rw [List.length_take, h.length]
  omega

/-- Sealing keeps the covered bytes. -/
theorem HasImage.take_sealedImage (h : HasImage p image) :
    (sealedImage p image).take (p.n - fOf p.layout) = image.take (p.n - fOf p.layout) :=
  List.take_left' h.length_covered

theorem HasImage.drop_sealedImage (h : HasImage p image) :
    (sealedImage p image).drop (p.n - fOf p.layout) = checksumField p image :=
  List.drop_left' h.length_covered

theorem HasImage.checksumField_sealedImage (h : HasImage p image) :
    checksumField p (sealedImage p image) = checksumField p image := by
  rw [checksumField, h.take_sealedImage, checksumField]

theorem HasImage.sealedImage_sealedImage (h : HasImage p image) :
    sealedImage p (sealedImage p image) = sealedImage p image := by
  rw [sealedImage, h.take_sealedImage, h.checksumField_sealedImage, sealedImage]

/-- R214: sealing does nothing to a packet whose image is sealed. -/
theorem HasImage.sealed_of_fixed (h : HasImage p image) (hfix : sealedImage p image = image) :
    p.sealed = .ok p := by
  obtain ⟨buf, hsealed, himage⟩ := h.exists_sealed
  have hbuf : buf = p.buf := by
    rw [h.buf, ← hfix]
    exact himage.buf
  rw [hsealed, hbuf]

theorem respond_setPacket_self {t : State} {r : Response} (h : t.response = some r) :
    (t.setPacket t.p).respond r = t := by
  obtain ⟨cfg, hdr, p, k, params, events, response⟩ := t
  obtain rfl : response = some r := h
  rfl

/-- R214: sealing a sealed packet once more leaves the very same state. -/
theorem exec_valSeal_of_fixed {t : State} (h : HasImage t.p image)
    (hfix : sealedImage t.p image = image) (hresp : t.response = some (only .ok)) :
    exec .valSeal t = .next t := by
  rw [exec_valSeal_held h.valid, h.sealed_of_fixed hfix, updatePacket_ok]
  exact congrArg _ (respond_setPacket_self hresp)

end

/-- Settles O52: the sealed image ends in its checksum field, and sealing it again gives it back. -/
theorem sealThenValid : Obligations.SealThenValid := by
  intro s hi hv
  obtain ⟨image, h⟩ := exists_hasImage hi hv
  obtain ⟨buf, himage, hseal, -⟩ := exec_txPrep_image h
  refine ⟨_, hseal, ?_, ?_⟩
  · rw [exec_valIsValid_image himage, if_pos]
    exact h.drop_sealedImage.trans h.checksumField_sealedImage.symm
  · exact exec_valSeal_of_fixed himage h.sealedImage_sealedImage rfl

/-! ## Delivery (R145, R216 to R218) -/

/-- A layout that asks for a packet's layout has the packet's checksums, too. -/
theorem leBytes_compute_of_layoutOf {lay : Layout} {p : Packet} (h : layoutOf lay p) (bs : List Byte) :
    leBytes (fOf lay) (compute lay.policy bs) = leBytes (fOf p.layout) (compute p.policy bs) := by
  rw [fOf_of_layoutOf h]
  obtain ⟨-, -, hpolicy⟩ := h
  cases hk : p.kind with
  | basic => simp [fOf, Packet.layout, hk, leBytes]
  | framed => rw [hpolicy hk]

/-- Settles O59: the checks pass as the packet is one that was held, and the sealed image is valid. -/
theorem preparedPacketIsDelivered : Obligations.PreparedPacketIsDelivered := by
  intro s hi hv hn
  obtain ⟨image, h⟩ := exists_hasImage hi hv
  obtain ⟨buf, hsealed, -, hprep⟩ := exec_txPrep_image h
  refine ⟨_, _, hprep, fun u lay hparams hlay => ?_⟩
  have hlen : (sealedImage s.p image).length = s.p.n := hsealed.length
  obtain ⟨-, -, hp, -⟩ := hi
  obtain ⟨-, halign, hmax, -⟩ := hp hv
  have hmax : withinMax u.params (sealedImage s.p image).length := by
    rw [hparams, hlen]
    exact exceedsMax_eq_false_iff.1 hmax
  have hsize : goodSize u.params lay (sealedImage s.p image).length := by
    obtain ⟨-, hwidth, -⟩ := id hlay
    rw [goodSize, hparams, hlen, hwidth, fOf_of_layoutOf hlay]
    exact ⟨h.size, halign⟩
  have hport : (BitVec.ofNat 32 s.p.n).toNat = (sealedImage s.p image).length := by
    rw [hlen, BitVec.toNat_ofNat, Nat.mod_eq_of_lt hn]
  have hreceiver : (sealedImage s.p image)[3]? = s.p.buf.read 3 := by
    have hsize := h.size
    rw [sealedImage, List.getElem?_append_left (by rw [h.length_covered]; omega),
      List.getElem?_take_of_lt (by omega), h.buf, read_ofBytes, if_pos (Nat.zero_le 3)]
  have hfield : (sealedImage s.p image).drop ((sealedImage s.p image).length - fOf lay) =
      leBytes (fOf lay) (compute lay.policy
        ((sealedImage s.p image).take ((sealedImage s.p image).length - fOf lay))) := by
    rw [leBytes_compute_of_layoutOf hlay, fOf_of_layoutOf hlay, hlen, h.drop_sealedImage,
      h.take_sealedImage, checksumField]
  rw [exec_rxAccept_of_checks hport hmax hsize, hreceiver]
  refine ⟨fun hmine => ⟨_, ?_, samePacket_parsedPacket hsealed hlay u.p⟩, fun hother => if_pos hother⟩
  rw [if_neg (not_not.2 hmine), if_pos hfield]

/-! ## Changing one byte (R215) -/

section
variable {s : State} {image : List Byte} {off : Nat} {x y : Byte}

/-- The state in which one byte of the packet buffer has another value. -/
def withByte (s : State) (off : Nat) (y : Byte) : State :=
  { s with p := { s.p with buf := s.p.buf.write off y } }

theorem HasImage.withByte (h : HasImage s.p image) (hoff : off < s.p.n) (y : Byte) :
    HasImage (withByte s off y).p (image.set off y) := by
  have hset : image.take off ++ [y] ++ image.drop (off + 1) = image.set off y := by
    rw [List.set_eq_take_append_cons_drop, if_pos (by rw [h.length]; exact hoff)]
    simp
  rw [← hset]
  exact h.store (bs := [y]) (by rw [List.length_singleton]; omega)

/-- R213: a packet that is found valid has the checksum field that belongs to its image. -/
theorem HasImage.drop_of_valid (h : HasImage s.p image)
    (hvalid : exec .valIsValid s = answers s (okRes 1)) :
    image.drop (s.p.n - fOf s.p.layout) = checksumField s.p image := by
  by_contra hne
  rw [exec_valIsValid_image h, if_neg hne] at hvalid
  simp [answers, okRes] at hvalid

/-- The byte of the buffer at an offset is that of the image. -/
theorem HasImage.getElem?_of_read (h : HasImage s.p image) (hx : s.p.buf.read off = some x) :
    image[off]? = some x := by
  rwa [h.buf, read_ofBytes, if_pos (Nat.zero_le off)] at hx

/-- R211: with the changed byte the packet is valid when its checksum field still belongs to its image. -/
theorem exec_valIsValid_withByte (h : HasImage s.p image) (hoff : off < s.p.n) (y : Byte) :
    exec .valIsValid (withByte s off y) = answers (withByte s off y)
      (okRes (if (image.set off y).drop (s.p.n - fOf s.p.layout) =
        checksumField s.p (image.set off y) then 1 else 0)) :=
  exec_valIsValid_image (h.withByte hoff y)

/-- A change in the checksum field is a change of the field, and of nothing that it is compared with. -/
theorem HasImage.drop_set_ne_checksumField (h : HasImage s.p image)
    (hvalid : exec .valIsValid s = answers s (okRes 1)) (hfield : s.p.n - fOf s.p.layout ≤ off)
    (hoff : off < s.p.n) (hx : s.p.buf.read off = some x) (hne : y ≠ x) :
    (image.set off y).drop (s.p.n - fOf s.p.layout) ≠ checksumField s.p (image.set off y) := by
  rw [checksumField, List.take_set_of_le hfield, ← checksumField, ← h.drop_of_valid hvalid]
  intro heq
  have hsame : (image.set off y)[off]? = image[off]? := by
    have hat := congrArg (·[off - (s.p.n - fOf s.p.layout)]?) heq
    simpa only [List.getElem?_drop, Nat.add_sub_cancel' hfield] using hat
  rw [List.getElem?_set_self (by rw [h.length]; exact hoff), h.getElem?_of_read hx] at hsame
  exact hne (Option.some.inj hsame)

/-- Where there is a checksum field, it tells checksums apart (R187). -/
theorem checksumField_eq_iff {p : Packet} (hf : fOf p.layout ≠ 0) (a b : List Byte) :
    checksumField p a = checksumField p b ↔
      compute p.policy (a.take (p.n - fOf p.layout)) =
        compute p.policy (b.take (p.n - fOf p.layout)) := by
  rw [checksumField, checksumField, eq_leBytes_iff (length_leBytes ..) (compute_lt_fOf hf _),
    ← le_toNat, unLE_le _ _ (compute_lt_fOf hf _), BitVec.toNat_inj, eq_comm]

/-- A covered byte in its place among the covered bytes. -/
theorem HasImage.take_set_eq (h : HasImage s.p image) (hcov : off < s.p.n - fOf s.p.layout)
    (hx : s.p.buf.read off = some x) : ∃ u v : List Byte,
    image.take (s.p.n - fOf s.p.layout) = u ++ x :: v ∧
      ∀ y, (image.set off y).take (s.p.n - fOf s.p.layout) = u ++ y :: v := by
  have hlt : off < (image.take (s.p.n - fOf s.p.layout)).length := by rwa [h.length_covered]
  have hset (y : Byte) : (image.set off y).take (s.p.n - fOf s.p.layout) =
      (image.take (s.p.n - fOf s.p.layout)).take off ++ y ::
        (image.take (s.p.n - fOf s.p.layout)).drop (off + 1) := by
    rw [List.take_set, List.set_eq_take_append_cons_drop, if_pos hlt]
  obtain ⟨hoff, hbyte⟩ := List.getElem?_eq_some_iff.1 (h.getElem?_of_read hx)
  refine ⟨_, _, ?_, hset⟩
  rw [← hset x, ← hbyte, List.set_getElem_self]

/-- R215 item 2: a change of a covered byte goes undetected when the checksum is the same. -/
theorem exec_valIsValid_covered (h : HasImage s.p image) (hf : fOf s.p.layout ≠ 0)
    (hvalid : exec .valIsValid s = answers s (okRes 1)) (hcov : off < s.p.n - fOf s.p.layout)
    (hx : s.p.buf.read off = some x) (y : Byte) : ∃ u v : List Byte,
    exec .valIsValid (withByte s off y) = answers (withByte s off y)
      (okRes (if compute s.p.policy (u ++ x :: v) = compute s.p.policy (u ++ y :: v)
        then 1 else 0)) := by
  obtain ⟨u, v, hold, hnew⟩ := h.take_set_eq hcov hx
  refine ⟨u, v, ?_⟩
  rw [exec_valIsValid_withByte h (by omega), List.drop_set_of_lt hcov, h.drop_of_valid hvalid]
  simp only [checksumField_eq_iff hf, hold, hnew]

end

/-- Settles O55: the covered bytes are the same, the field is not. -/
theorem checksumByteMutationDetected : Obligations.ChecksumByteMutationDetected := by
  intro s off x y hi hv hvalid hfield hoff hx hne
  obtain ⟨image, h⟩ := exists_hasImage hi hv
  have hchanged := h.drop_set_ne_checksumField hvalid hfield hoff hx hne
  have hexec := exec_valIsValid_withByte h hoff y
  rwa [if_neg hchanged] at hexec

theorem fOf_framed {p : Packet} (hk : p.kind = .framed) : fOf p.layout = policyWidth p.policy := by
  simp [fOf, Packet.layout, hk]

theorem policyWidth_ne_zero {p : Policy} (h : p ≠ .none) : policyWidth p ≠ 0 := by
  cases p
  case none => exact absurd rfl h
  all_goals decide

/-- Settles O53: the policy tells the two values of the byte apart. -/
theorem singleByteMutationDetected : Obligations.SingleByteMutationDetected := by
  intro s off x y hi hv hk hnone hfletcher hvalid hcov hx hne
  obtain ⟨image, h⟩ := exists_hasImage hi hv
  have hf : fOf s.p.layout ≠ 0 := fOf_framed hk ▸ policyWidth_ne_zero hnone
  obtain ⟨u, v, hexec⟩ := exec_valIsValid_covered h hf hvalid hcov hx y
  rwa [if_neg fun heq => hne (tellsBytes hnone hfletcher u v x y heq).symm] at hexec

/-- Settles O54: the checksum is the same exactly for 0x00 and 0xFF. -/
theorem fletcher16MissesZeroAndOnes : Obligations.Fletcher16MissesZeroAndOnes := by
  intro s off x y hi hv hk hp hvalid hcov hx hne
  obtain ⟨image, h⟩ := exists_hasImage hi hv
  have hf : fOf s.p.layout = 2 := by rw [fOf_framed hk, hp]; rfl
  obtain ⟨u, v, hexec⟩ := exec_valIsValid_covered h (by omega) hvalid (hf ▸ hcov) hx y
  simp only [hp, compute_fletcher16_replace hne] at hexec
  exact hexec

end Sys2Proof.Proofs
